-- ==== Sys2Proof/Word.lean ====
section
/-! DEFINITION. The command word (spec/00_scope.md rule R9) and the fixed-arity groups of rule R2. -/

namespace Sys2Proof

/-- A command word, an operand word and a response word are 32 bits (R9, R91). -/
abbrev Word := BitVec 32

/-- The binary64 encoding carried by two operand words (R95). -/
abbrev DWord := BitVec 64

/-- Two of a kind, one per channel: index 0 = left, 1 = right (R2). -/
structure Stereo (α : Type) where
  l : α
  r : α
  deriving DecidableEq, Repr, Inhabited

/-- Four of a kind: the All-Pass Filters of one channel (R2: "arity is a structural constant of the topology"). -/
structure Bank4 (α : Type) where
  a0 : α
  a1 : α
  a2 : α
  a3 : α
  deriving DecidableEq, Repr, Inhabited

/-- Seven of a kind: the pre-equaliser bands of one channel (R2). -/
structure Bank7 (α : Type) where
  b0 : α
  b1 : α
  b2 : α
  b3 : α
  b4 : α
  b5 : α
  b6 : α
  deriving DecidableEq, Repr, Inhabited

/-- Eight of a kind: the Comb Filters of one channel (R2). -/
structure Bank8 (α : Type) where
  c0 : α
  c1 : α
  c2 : α
  c3 : α
  c4 : α
  c5 : α
  c6 : α
  c7 : α
  deriving DecidableEq, Repr, Inhabited

variable {α β : Type}

def Stereo.get (p : Stereo α) : Fin 2 → α
  | 0 => p.l
  | 1 => p.r

def Stereo.map (f : α → β) (p : Stereo α) : Stereo β := ⟨f p.l, f p.r⟩

def Stereo.ofFn (f : Fin 2 → α) : Stereo α := ⟨f 0, f 1⟩

def Bank4.get (b : Bank4 α) : Fin 4 → α
  | 0 => b.a0
  | 1 => b.a1
  | 2 => b.a2
  | 3 => b.a3

def Bank4.map (f : α → β) (b : Bank4 α) : Bank4 β := ⟨f b.a0, f b.a1, f b.a2, f b.a3⟩

def Bank4.ofFn (f : Fin 4 → α) : Bank4 α := ⟨f 0, f 1, f 2, f 3⟩

def Bank4.toList (b : Bank4 α) : List α := [b.a0, b.a1, b.a2, b.a3]

def Bank7.get (b : Bank7 α) : Fin 7 → α
  | 0 => b.b0
  | 1 => b.b1
  | 2 => b.b2
  | 3 => b.b3
  | 4 => b.b4
  | 5 => b.b5
  | 6 => b.b6

def Bank7.map (f : α → β) (b : Bank7 α) : Bank7 β :=
  ⟨f b.b0, f b.b1, f b.b2, f b.b3, f b.b4, f b.b5, f b.b6⟩

def Bank7.ofFn (f : Fin 7 → α) : Bank7 α := ⟨f 0, f 1, f 2, f 3, f 4, f 5, f 6⟩

def Bank8.get (b : Bank8 α) : Fin 8 → α
  | 0 => b.c0
  | 1 => b.c1
  | 2 => b.c2
  | 3 => b.c3
  | 4 => b.c4
  | 5 => b.c5
  | 6 => b.c6
  | 7 => b.c7

def Bank8.map (f : α → β) (b : Bank8 α) : Bank8 β :=
  ⟨f b.c0, f b.c1, f b.c2, f b.c3, f b.c4, f b.c5, f b.c6, f b.c7⟩

def Bank8.ofFn (f : Fin 8 → α) : Bank8 α := ⟨f 0, f 1, f 2, f 3, f 4, f 5, f 6, f 7⟩

def Bank8.toList (b : Bank8 α) : List α := [b.c0, b.c1, b.c2, b.c3, b.c4, b.c5, b.c6, b.c7]

end Sys2Proof
end

