-- ==== Sys2Proof/Config.lean ====
section
/-! DEFINITION. What an instance fixes for its whole life: the open parameters of spec/00_scope.md rule R7, the identifiers
they are written with, and the free values (opaque constants) that stand for what the spec leaves open. -/

namespace Sys2Proof

/-- The four presets in the enumeration order of R90: Arena 0, Stadium 1, Hall 2, Club 3. -/
inductive Preset where
  | arena
  | stadium
  | hall
  | club
  deriving DecidableEq, Repr, Inhabited

/-- The port classes of R101: the unit a command port belongs to. -/
inductive Port where
  | dl
  | comb
  | ap
  | eng
  deriving DecidableEq, Repr, Inhabited

/-- `kind` of the biquad contract (R250). -/
inductive FilterKind where
  | lowpass
  | lowshelf
  | peaking
  deriving DecidableEq, Repr, Inhabited

/-- A number handed to `BQ.setCoefficients` (R250: "`freqHz`, `Q` and `linearGain` are numbers; the document gives them
no type"): a sample number, an exact rational, or `dbToLin d = 10^(d/20)` of R258, which is irrational and so kept as the
decibel figure (DESIGN CHOICE, log 11). Which number each form is: `Denotes` in Machine/Biquad.lean; its digits:
`dbToLinDigits`. -/
inductive BqNumber (S : Type) where
  | sample (v : S)
  | exact (q : Rat)
  | dbToLin (d : Int)
  deriving DecidableEq, Repr

/-- The arguments of one `BQ.setCoefficients` call (R250, R255): they stand for the coefficients it installs, since those
"depend only on its arguments" (R254 BQ-SETCOEF-PURE). -/
structure BqCoef (S : Type) where
  sampleRate : DWord
  kind : FilterKind
  freqHz : BqNumber S
  q : BqNumber S
  linearGain : BqNumber S
  deriving DecidableEq, Repr

/-- Which biquad primitive is attached to the machine `State` describes: the identity biquad of `TESTCFG` (R8), or the external
library's (R250), whose behaviour is `Config.bqProcess` (DESIGN CHOICE, log 8). Any other record of R250 is an argument of the
parametric machine (Machine/Parametric.lean). -/
inductive BiquadChoice where
  | identity
  | external
  deriving DecidableEq, Repr, Inhabited

/-- `RESET_PARAMS` of R7. -/
structure ResetParams (S : Type) where
  preset : Preset
  domeAmount : S
  stereoWidth : S
  bassBoost : S
  deriving DecidableEq, Repr, Inhabited

/-- The open parameters of R7 that are data, "a field of its configuration record"; fixed for the life of an instance (R41).
The two that are records of functions, `NUM` and `BQ`, are `Num` (Machine/Num.lean) and `BQ` (Machine/Biquad.lean), arguments of
every function of the machine. -/
structure Params (S : Type) where
  combDelayMs : Stereo (Bank8 Rat)
  combMaxMs : Stereo (Bank8 Rat)
  apDelayMs : Stereo (Bank4 Rat)
  apMaxMs : Stereo (Bank4 Rat)
  apCoeff : Stereo (Bank4 S)
  preDelayMaxMs : Stereo Rat
  eqQ : Bank7 Rat
  toneLpQ : Rat
  bassShelfHz : Rat
  bassShelfQ : Rat
  resetParams : ResetParams S
  maxCap : Nat
  deriving DecidableEq, Repr, Inhabited

/-- The four binary operations of `NUM` (R12): a label for the free NaN values below. -/
inductive NumOp where
  | add
  | sub
  | mul
  deriving DecidableEq, Repr

/-- FREE VALUE (DESIGN CHOICE, log 5). Sign and trailing significand (less one, so never zero) of the NaN that an operation
answers: IEEE-754 fixes that the result is a NaN and leaves its sign and payload open (R12, U16). A function of the
operation and its operands, since `NUM`'s operations are functions. -/
opaque Config.nanResult : NumOp → Word → Word → Bool × Fin 8388607

/-- FREE VALUE (DESIGN CHOICE, log 6). The sign of a zero that `clamp v lo hi` answers for an operand -0 or one below a zero bound:
"any value of {+0, −0}" (93_implementation_defined.md U9). -/
opaque Config.clampZeroSign : (v lo hi : Word) → Bool

/-- FREE VALUE (DESIGN CHOICE, log 7). `clamp` of a NaN, which R12 leaves undefined; no command reaches it, since NaN setter
operands are refused (R279). -/
opaque Config.clampOfNaN : (v lo hi : Word) → Word

/-- FREE VALUE (DESIGN CHOICE, log 7). The rational "encoded" by a binary32 infinity or NaN, which R13 does not give; under
`NUM_B32` no command reaches it, under `NUM_IDEAL` such an operand word does (R94). -/
opaque Config.ratOfNonFinite : Word → Rat

/-- FREE VALUE (DESIGN CHOICE, log 7). The same of a binary64 infinity or NaN; no command reaches it, since such a rate is
refused (R95). -/
opaque Config.ratOfNonFinite64 : DWord → Rat

/-- FREE VALUE (DESIGN CHOICE, log 7). The delay length a read uses while `n` is unset; R24 forbids every number, and no
command reaches the read: `TICK`/`PROCESS` of a standalone unit is refused `DelayUnset`, and `ENG.CONFIGURE` sets every length. -/
opaque Config.unsetLength : Nat

/-- FREE VALUE (DESIGN CHOICE, log 8). `BQ.processSample` of the external biquad (R250, R252): new memory and output sample from the
coefficients (none while unset), the memory (`[]` = zero) and the input. -/
opaque Config.bqProcess : Option (BqCoef Word) → List Word → Word → List Word × Word

/-- FREE VALUE (DESIGN CHOICE, log 2). The parameters R7 leaves OPEN, for the instance that `State.reset` describes. -/
opaque Config.openParams : Params Word

end Sys2Proof
end

