-- ==== Sys2Proof/Syntax.lean ====
section
/-! DEFINITION. The 21 commands of spec/30_encoding.md rule R100, one constructor each, with their operands decoded. -/

namespace Sys2Proof

/-- One command (R14, R100). A binary32 operand is its encoding `W1` (R94), `sampleRate` its binary64 encoding (R95), an
integer operand the mathematical integer (R25, R96), the preset its identity (R97), `numChannels` and `r` the values of
`imm16` (R98, R99). -/
inductive Instr where
  /-- `DL.CONFIGURE sampleRate, maxDelayMs` (R125). -/
  | dlConfigure (sampleRate : DWord) (maxDelayMs : Word)
  /-- `DL.SETDELAY n` (R124). -/
  | dlSetDelay (n : Int)
  /-- `DL.CLEAR` (R126). -/
  | dlClear
  /-- `DL.TICK x` (R127). -/
  | dlTick (x : Word)
  /-- `COMB.CONFIGURE sampleRate, maxDelayMs` (R141). -/
  | combConfigure (sampleRate : DWord) (maxDelayMs : Word)
  /-- `COMB.SETDELAY n` (R142). -/
  | combSetDelay (n : Int)
  /-- `COMB.CLEAR` (R146). -/
  | combClear
  /-- `COMB.PROCESS x` (R145). -/
  | combProcess (x : Word)
  /-- `COMB.SETFB f` (R143). -/
  | combSetFb (f : Word)
  /-- `COMB.SETDAMP d` (R144). -/
  | combSetDamp (d : Word)
  /-- `AP.CONFIGURE sampleRate, maxDelayMs` (R161). -/
  | apConfigure (sampleRate : DWord) (maxDelayMs : Word)
  /-- `AP.SETDELAY n` (R162). -/
  | apSetDelay (n : Int)
  /-- `AP.CLEAR` (R163). -/
  | apClear
  /-- `AP.PROCESS x` (R165). -/
  | apProcess (x : Word)
  /-- `AP.SETCOEF c` (R164). -/
  | apSetCoef (c : Word)
  /-- `ENG.CONFIGURE sampleRate, blockSizeHint` (R181). -/
  | engConfigure (sampleRate : DWord) (blockSizeHint : Int)
  /-- `ENG.SETDOME amount` (R232). -/
  | engSetDome (amount : Word)
  /-- `ENG.SETPRESET id` (R233). -/
  | engSetPreset (id : Preset)
  /-- `ENG.PROCESS numChannels, numSamples` (R183). -/
  | engProcess (numChannels numSamples : Nat)
  /-- `ENG.CLEAR` (R182). -/
  | engClear
  /-- `ENG.GETPARAM r` (R184). -/
  | engGetParam (r : Nat)
  deriving DecidableEq, Repr

end Sys2Proof
end

