-- ==== Sys2Proof/WellFormed.lean ====
section
/-! DEFINITION. Which terms of `Instr` some command words can express: the operand widths of spec/10_state.md rule R25 and
spec/30_encoding.md rules R96, R98, R99. Legality of the values themselves is a matter of the commands (R104). -/

namespace Sys2Proof

/-- A signed 32-bit integer operand (R96). -/
def fitsInt32 (n : Int) : Bool := decide (-2 ^ 31 ≤ n ∧ n < 2 ^ 31)

/-- An unsigned 32-bit integer operand (R96). -/
def fitsNat32 (n : Nat) : Bool := decide (n < 2 ^ 32)

/-- A value of `imm16` (R91). -/
def fitsImm16 (n : Nat) : Bool := decide (n < 2 ^ 16)

/-- Every operand fits its field. -/
def Instr.wellFormed : Instr → Bool
  | .dlConfigure _ _ => true
  | .dlSetDelay n => fitsInt32 n
  | .dlClear => true
  | .dlTick _ => true
  | .combConfigure _ _ => true
  | .combSetDelay n => fitsInt32 n
  | .combClear => true
  | .combProcess _ => true
  | .combSetFb _ => true
  | .combSetDamp _ => true
  | .apConfigure _ _ => true
  | .apSetDelay n => fitsInt32 n
  | .apClear => true
  | .apProcess _ => true
  | .apSetCoef _ => true
  | .engConfigure _ hint => fitsInt32 hint
  | .engSetDome _ => true
  | .engSetPreset _ => true
  | .engProcess ch ns => fitsImm16 ch && fitsNat32 ns
  | .engClear => true
  | .engGetParam r => fitsImm16 r

end Sys2Proof
end

