-- ==== Sys2Proof/Decode.lean ====
section
/-! DEFINITION. Framing, decoding and encoding of commands (spec/30_encoding.md rules R91 to R106): the opcode table as
data, a decoder total on any words, and the encoder written from the same table. -/

namespace Sys2Proof

/-- `zext(W[hi:lo])` of R9. -/
def slice (w : Word) (hi lo : Nat) : Nat := (w.toNat / 2 ^ lo) % 2 ^ (hi + 1 - lo)

/-- The three header fields of R91. -/
def opField (h : Word) : Nat := slice h 31 24
def rsvField (h : Word) : Nat := slice h 23 16
def immField (h : Word) : Nat := slice h 15 0

/-- The seven formats of R92. -/
inductive Format where
  | n0
  | ni
  | f1
  | i1
  | cu
  | ce
  | pr
  deriving DecidableEq, Repr

/-- Command length in words, the header included (R106). -/
def Format.words : Format → Nat
  | .n0 => 1
  | .ni => 1
  | .f1 => 2
  | .i1 => 2
  | .pr => 2
  | .cu => 4
  | .ce => 4

/-- One row of the table of R100. -/
structure Row where
  mnemonic : String
  op : Nat
  format : Format
  matchBits : Word
  mask : Word
  port : Port
  deriving DecidableEq, Repr

def dlRows : List Row :=
  [ ⟨"DL.CONFIGURE", 0x01, .cu, 0x01000000#32, 0xFFFFFFFF#32, .dl⟩,
    ⟨"DL.SETDELAY", 0x02, .i1, 0x02000000#32, 0xFFFFFFFF#32, .dl⟩,
    ⟨"DL.CLEAR", 0x03, .n0, 0x03000000#32, 0xFFFFFFFF#32, .dl⟩,
    ⟨"DL.TICK", 0x04, .f1, 0x04000000#32, 0xFFFFFFFF#32, .dl⟩ ]

def combRows : List Row :=
  [ ⟨"COMB.CONFIGURE", 0x11, .cu, 0x11000000#32, 0xFFFFFFFF#32, .comb⟩,
    ⟨"COMB.SETDELAY", 0x12, .i1, 0x12000000#32, 0xFFFFFFFF#32, .comb⟩,
    ⟨"COMB.CLEAR", 0x13, .n0, 0x13000000#32, 0xFFFFFFFF#32, .comb⟩,
    ⟨"COMB.PROCESS", 0x14, .f1, 0x14000000#32, 0xFFFFFFFF#32, .comb⟩,
    ⟨"COMB.SETFB", 0x15, .f1, 0x15000000#32, 0xFFFFFFFF#32, .comb⟩,
    ⟨"COMB.SETDAMP", 0x16, .f1, 0x16000000#32, 0xFFFFFFFF#32, .comb⟩ ]

def apRows : List Row :=
  [ ⟨"AP.CONFIGURE", 0x21, .cu, 0x21000000#32, 0xFFFFFFFF#32, .ap⟩,
    ⟨"AP.SETDELAY", 0x22, .i1, 0x22000000#32, 0xFFFFFFFF#32, .ap⟩,
    ⟨"AP.CLEAR", 0x23, .n0, 0x23000000#32, 0xFFFFFFFF#32, .ap⟩,
    ⟨"AP.PROCESS", 0x24, .f1, 0x24000000#32, 0xFFFFFFFF#32, .ap⟩,
    ⟨"AP.SETCOEF", 0x25, .f1, 0x25000000#32, 0xFFFFFFFF#32, .ap⟩ ]

def engRows : List Row :=
  [ ⟨"ENG.CONFIGURE", 0x41, .ce, 0x41000000#32, 0xFFFFFFFF#32, .eng⟩,
    ⟨"ENG.SETDOME", 0x42, .f1, 0x42000000#32, 0xFFFFFFFF#32, .eng⟩,
    ⟨"ENG.SETPRESET", 0x43, .ni, 0x43000000#32, 0xFFFFFFFC#32, .eng⟩,
    ⟨"ENG.PROCESS", 0x44, .pr, 0x44000000#32, 0xFFFF0000#32, .eng⟩,
    ⟨"ENG.CLEAR", 0x45, .n0, 0x45000000#32, 0xFFFFFFFF#32, .eng⟩,
    ⟨"ENG.GETPARAM", 0x46, .ni, 0x46000000#32, 0xFFFF0000#32, .eng⟩ ]

/-- The opcode map of R100. -/
def opcodeTable : List Row := dlRows ++ combRows ++ apRows ++ engRows

/-- The row a header's `op` selects on a port of class `p`; none: `op` is not listed for the port (R101, R102). -/
def listedRow (p : Port) (h : Word) : Option Row :=
  opcodeTable.find? fun r => decide (r.port = p) && decide (r.op = opField h)

/-- Length of the command a header starts on port `p` (R106): that of its format, reserved bits or not; one word when `op`
is not listed for the port. -/
def commandWords (p : Port) (h : Word) : Nat :=
  match listedRow p h with
  | some r => r.format.words
  | none => 1

/-- `H AND mask = match` of R100; its failure is a nonzero reserved field (R103). -/
def Row.accepts (r : Row) (h : Word) : Bool := decide (h &&& r.mask = r.matchBits)

/-- The next command's words and the words after it; none while a word of it has not arrived (R91, R106). -/
def frame (p : Port) : List Word → Option (List Word × List Word)
  | [] => none
  | h :: t =>
    let k := commandWords p h
    if k ≤ (h :: t).length then some ((h :: t).take k, (h :: t).drop k) else none

/-- `id = imm16[1:0]` of R97. -/
def Preset.ofIndex (k : Nat) : Preset :=
  match k % 4 with
  | 0 => .arena
  | 1 => .stadium
  | 2 => .hall
  | _ => .club

/-- The preset index (R90). -/
def Preset.index : Preset → Nat
  | .arena => 0
  | .stadium => 1
  | .hall => 2
  | .club => 3

/-- Operand assembly (R94 to R99) for the opcode of a row and the operand words of its format. -/
def assemble (op imm : Nat) (ops : List Word) : Option Instr :=
  match op, ops with
  | 0x01, [w1, w2, w3] => some (.dlConfigure (w2 ++ w1) w3)
  | 0x02, [w1] => some (.dlSetDelay w1.toInt)
  | 0x03, [] => some .dlClear
  | 0x04, [w1] => some (.dlTick w1)
  | 0x11, [w1, w2, w3] => some (.combConfigure (w2 ++ w1) w3)
  | 0x12, [w1] => some (.combSetDelay w1.toInt)
  | 0x13, [] => some .combClear
  | 0x14, [w1] => some (.combProcess w1)
  | 0x15, [w1] => some (.combSetFb w1)
  | 0x16, [w1] => some (.combSetDamp w1)
  | 0x21, [w1, w2, w3] => some (.apConfigure (w2 ++ w1) w3)
  | 0x22, [w1] => some (.apSetDelay w1.toInt)
  | 0x23, [] => some .apClear
  | 0x24, [w1] => some (.apProcess w1)
  | 0x25, [w1] => some (.apSetCoef w1)
  | 0x41, [w1, w2, w3] => some (.engConfigure (w2 ++ w1) w3.toInt)
  | 0x42, [w1] => some (.engSetDome w1)
  | 0x43, [] => some (.engSetPreset (Preset.ofIndex imm))
  | 0x44, [w1] => some (.engProcess imm w1.toNat)
  | 0x45, [] => some .engClear
  | 0x46, [] => some (.engGetParam imm)
  | _, _ => none

/-- Why a decoder has no command: the two verdicts of R102 and R103, and words that are not one whole command. -/
inductive DecodeError where
  | illegalOpcode
  | reservedFieldNonzero
  | badFrame
  deriving DecidableEq, Repr

/-- The decoder (R102): total; reads the words of ONE framed command on a port of class `p`, checking `op` first and the
reserved bits second (R275). -/
def decode (p : Port) : List Word → Except DecodeError Instr
  | [] => .error .badFrame
  | h :: ops =>
    match listedRow p h with
    | none => .error .illegalOpcode
    | some row =>
      if row.accepts h then
        match assemble row.op (immField h) ops with
        | some i => .ok i
        | none => .error .badFrame
      else .error .reservedFieldNonzero

/-! ## Encoder -/

/-- A header with `rsv = 0` (R91). -/
def header (op imm : Nat) : Word := BitVec.ofNat 32 (op * 2 ^ 24 + imm)

/-- The two words of a binary64 operand, low word first (R95). -/
def dwordLow (d : DWord) : Word := d.extractLsb' 0 32
def dwordHigh (d : DWord) : Word := d.extractLsb' 32 32

/-- The words of a well-formed command, in the order sent (R92). -/
def encode : Instr → List Word
  | .dlConfigure sr ms => [header 0x01 0, dwordLow sr, dwordHigh sr, ms]
  | .dlSetDelay n => [header 0x02 0, BitVec.ofInt 32 n]
  | .dlClear => [header 0x03 0]
  | .dlTick x => [header 0x04 0, x]
  | .combConfigure sr ms => [header 0x11 0, dwordLow sr, dwordHigh sr, ms]
  | .combSetDelay n => [header 0x12 0, BitVec.ofInt 32 n]
  | .combClear => [header 0x13 0]
  | .combProcess x => [header 0x14 0, x]
  | .combSetFb f => [header 0x15 0, f]
  | .combSetDamp d => [header 0x16 0, d]
  | .apConfigure sr ms => [header 0x21 0, dwordLow sr, dwordHigh sr, ms]
  | .apSetDelay n => [header 0x22 0, BitVec.ofInt 32 n]
  | .apClear => [header 0x23 0]
  | .apProcess x => [header 0x24 0, x]
  | .apSetCoef c => [header 0x25 0, c]
  | .engConfigure sr hint => [header 0x41 0, dwordLow sr, dwordHigh sr, BitVec.ofInt 32 hint]
  | .engSetDome a => [header 0x42 0, a]
  | .engSetPreset id => [header 0x43 id.index]
  | .engProcess ch ns => [header 0x44 ch, BitVec.ofNat 32 ns]
  | .engClear => [header 0x45 0]
  | .engGetParam r => [header 0x46 r]

/-- The port class a command belongs to (R100). -/
def Instr.port : Instr → Port
  | .dlConfigure _ _ => .dl
  | .dlSetDelay _ => .dl
  | .dlClear => .dl
  | .dlTick _ => .dl
  | .combConfigure _ _ => .comb
  | .combSetDelay _ => .comb
  | .combClear => .comb
  | .combProcess _ => .comb
  | .combSetFb _ => .comb
  | .combSetDamp _ => .comb
  | .apConfigure _ _ => .ap
  | .apSetDelay _ => .ap
  | .apClear => .ap
  | .apProcess _ => .ap
  | .apSetCoef _ => .ap
  | .engConfigure _ _ => .eng
  | .engSetDome _ => .eng
  | .engSetPreset _ => .eng
  | .engProcess _ _ => .eng
  | .engClear => .eng
  | .engGetParam _ => .eng

/-- The mnemonic of a command's row (R100). -/
def Instr.mnemonic : Instr → String
  | .dlConfigure _ _ => "DL.CONFIGURE"
  | .dlSetDelay _ => "DL.SETDELAY"
  | .dlClear => "DL.CLEAR"
  | .dlTick _ => "DL.TICK"
  | .combConfigure _ _ => "COMB.CONFIGURE"
  | .combSetDelay _ => "COMB.SETDELAY"
  | .combClear => "COMB.CLEAR"
  | .combProcess _ => "COMB.PROCESS"
  | .combSetFb _ => "COMB.SETFB"
  | .combSetDamp _ => "COMB.SETDAMP"
  | .apConfigure _ _ => "AP.CONFIGURE"
  | .apSetDelay _ => "AP.SETDELAY"
  | .apClear => "AP.CLEAR"
  | .apProcess _ => "AP.PROCESS"
  | .apSetCoef _ => "AP.SETCOEF"
  | .engConfigure _ _ => "ENG.CONFIGURE"
  | .engSetDome _ => "ENG.SETDOME"
  | .engSetPreset _ => "ENG.SETPRESET"
  | .engProcess _ _ => "ENG.PROCESS"
  | .engClear => "ENG.CLEAR"
  | .engGetParam _ => "ENG.GETPARAM"

/-! ## Words as the opcode table numbers them -/

/-- The port whose table lists the header's `op`; an unlisted one is shown to the engine port, which refuses it (R102). -/
def tablePort (h : Word) : Port :=
  match opcodeTable.find? fun r => decide (r.op = opField h) with
  | some r => r.port
  | none => .eng

/-- The words of the command whose bits are the low `nbits` bits of `w`, first word in bits 31..0, later words counting on
from it, absent bits zero; as many words as the header's format has. -/
def tableWords (nbits w : Nat) : List Word :=
  let v := w % 2 ^ nbits
  let h := BitVec.ofNat 32 v
  (List.range (commandWords (tablePort h) h)).map fun j => BitVec.ofNat 32 (v / 2 ^ (32 * j))

/-- The command the decoder reads from a table word, on the port that lists its opcode. -/
def decodeTableWord (nbits w : Nat) : Option Instr :=
  match decode (tablePort (BitVec.ofNat 32 (w % 2 ^ nbits))) (tableWords nbits w) with
  | .ok i => some i
  | .error _ => none

end Sys2Proof
end

