-- ==== Sys2Proof/Machine/Float.lean ====
section
/-! DEFINITION. Binary floating-point encodings as spec/00_scope.md rules R9 and R12 use them: IEEE-754 binary32 arithmetic
(round to nearest, ties to even, one rounding per operation, subnormals kept), the rationals that binary32 and binary64
encodings stand for, and the rounding of decimals. Operands are turned into integers, the result is computed exactly, and
one function rounds. -/

namespace Sys2Proof.Machine

/-- Rounding to nearest, ties to even (R12), for a format of precision `p` whose infinity has the encoding `inf`. The exact
magnitude is `mag` counted in units of `2^-k` of the format's least subnormal; the answer is the sign-less encoding. `q` is
the number of low bits dropped; adding `(q - k) * 2^(p-1)` to the kept bits is the biased exponent, and a carry out of the
significand moves it up by itself. -/
def roundMagnitude (p inf mag k : Nat) : Nat :=
  let q := max k (Nat.log2 mag + 1 - p)
  let kept := mag / 2 ^ q
  let dropped := mag % 2 ^ q
  let up := if 2 ^ q < 2 * dropped then 1 else if 2 * dropped = 2 ^ q then kept % 2 else 0
  min ((q - k) * 2 ^ (p - 1) + kept + up) inf

/-- The encoding nearest to the rational `num / den` for a format of precision `p` whose least subnormal is `2^-e`. The
last bit of the magnitude handed on only says that something was cut off. -/
def roundRatio (p inf e num den : Nat) : Nat :=
  let t := num * 2 ^ (e + 1)
  roundMagnitude p inf (2 * (t / den) + if t % den = 0 then 0 else 1) 2

/-! ## binary32 -/

namespace F32

/-- The 31 bits below the sign bit. -/
def magnitude (w : Word) : Nat := w.toNat % 2 ^ 31

def negative (w : Word) : Bool := w.msb

/-- The encoding of infinity without its sign. -/
def infBits : Nat := 0x7F800000

def isNaN (w : Word) : Bool := decide (infBits < magnitude w)

def isInf (w : Word) : Bool := decide (magnitude w = infBits)

def isFinite (w : Word) : Bool := decide (magnitude w < infBits)

/-- Either zero. -/
def isZero (w : Word) : Bool := decide (magnitude w = 0)

/-- What a finite sign-less encoding stands for, in units of the least subnormal, `2^-149`. -/
def scaledOf (m : Nat) : Nat :=
  if m / 2 ^ 23 = 0 then m % 2 ^ 23 else (m % 2 ^ 23 + 2 ^ 23) * 2 ^ (m / 2 ^ 23 - 1)

/-- Magnitude of a finite number in units of `2^-149`. -/
def scaledMagnitude (w : Word) : Nat := scaledOf (magnitude w)

/-- A finite number in units of `2^-149`. -/
def scaled (w : Word) : Int :=
  if negative w then -(scaledMagnitude w : Int) else (scaledMagnitude w : Int)

/-- The rational a finite encoding stands for (R13); free for an infinity or a NaN. -/
def toRat (w : Word) : Rat :=
  if isFinite w then mkRat (scaled w) (2 ^ 149) else Config.ratOfNonFinite w

/-- A number from its sign and its sign-less encoding. -/
def pack (neg : Bool) (bits : Nat) : Word := BitVec.ofNat 32 (bits + if neg then 2 ^ 31 else 0)

/-- A NaN of free sign and payload. -/
def nan (op : NumOp) (a b : Word) : Word :=
  pack (Config.nanResult op a b).1 (infBits + 1 + (Config.nanResult op a b).2.val)

/-- Round an exact magnitude in units of `2^-(149+k)`. -/
def round (neg : Bool) (mag k : Nat) : Word := pack neg (roundMagnitude 24 infBits mag k)

/-- Exact sum of two finite numbers, rounded once. An exact zero is +0 unless both operands are -0. -/
def addFinite (a b : Word) : Word :=
  let s := scaled a + scaled b
  if s = 0 then pack (negative a && negative b) 0 else round (decide (s < 0)) s.natAbs 0

/-- `a + b'` where neither is a NaN; `op` and `b` only label the free NaN of `∞ − ∞`. -/
def addOrdered (op : NumOp) (a b b' : Word) : Word :=
  if isInf a then
    if isInf b' && negative a != negative b' then nan op a b else a
  else if isInf b' then b'
  else addFinite a b'

/-- `NUM.neg`: "flips the sign bit" (R12). -/
def neg (a : Word) : Word := a ^^^ 0x80000000#32

def add (a b : Word) : Word :=
  if isNaN a || isNaN b then nan .add a b else addOrdered .add a b b

def sub (a b : Word) : Word :=
  if isNaN a || isNaN b then nan .sub a b else addOrdered .sub a b (neg b)

def mul (a b : Word) : Word :=
  let s := negative a != negative b
  if isNaN a || isNaN b then nan .mul a b
  else if isInf a || isInf b then
    if isZero a || isZero b then nan .mul a b else pack s infBits
  else round s (scaledMagnitude a * scaledMagnitude b) 149

/-- A number's place in the order of R12: the sign-magnitude encoding read as an integer; both zeros are 0, infinities
are at the ends. -/
def orderKey (w : Word) : Int := if negative w then -(magnitude w : Int) else (magnitude w : Int)

/-- The order of `NUM`; a NaN is neither below nor above anything (R279). -/
def lt (a b : Word) : Bool := !isNaN a && !isNaN b && decide (orderKey a < orderKey b)

def le (a b : Word) : Bool := !isNaN a && !isNaN b && decide (orderKey a ≤ orderKey b)

/-- `clamp v lo hi = max(lo, min(v, hi))` of R12. The sign of a zero made of -0, or of an operand below a zero bound, is
free (U9); the result for a NaN is free. -/
def clamp (v lo hi : Word) : Word :=
  if isNaN v then Config.clampOfNaN v lo hi
  else if lt v lo then
    if isZero lo then pack (Config.clampZeroSign v lo hi) 0 else lo
  else if lt hi v then hi
  else if isZero v && negative v then pack (Config.clampZeroSign v lo hi) 0
  else v

/-- The binary32 number nearest to a rational (R12 `ofDecimal`); zero is +0. Marked irreducible so that no proof unfolds a
constant by accident; the kernel evaluates it. -/
@[irreducible] def ofRat (q : Rat) : Word := pack (decide (q < 0)) (roundRatio 24 infBits 149 q.num.natAbs q.den)

end F32

/-! ## binary64 (only as an operand encoding, R95) -/

namespace F64

def magnitude (d : DWord) : Nat := d.toNat % 2 ^ 63

def negative (d : DWord) : Bool := d.msb

def infBits : Nat := 0x7FF0000000000000

/-- Neither NaN nor infinite, and above zero (R95). -/
def isPositiveFinite (d : DWord) : Bool :=
  !negative d && decide (0 < magnitude d) && decide (magnitude d < infBits)

/-- Magnitude of a finite number in units of the least subnormal, `2^-1074`. -/
def scaledMagnitude (d : DWord) : Nat :=
  let e := magnitude d / 2 ^ 52
  let f := magnitude d % 2 ^ 52
  if e = 0 then f else (f + 2 ^ 52) * 2 ^ (e - 1)

/-- The rational an encoding stands for (R13); of an infinity or a NaN a free value (DESIGN CHOICE, log 7). -/
def toRat (d : DWord) : Rat :=
  if magnitude d < infBits then
    mkRat (if negative d then -(scaledMagnitude d : Int) else (scaledMagnitude d : Int)) (2 ^ 1074)
  else Config.ratOfNonFinite64 d

/-- The binary64 number nearest to a rational (R113). -/
def ofRat (q : Rat) : DWord :=
  BitVec.ofNat 64 (roundRatio 53 infBits 1074 q.num.natAbs q.den + if q < 0 then 2 ^ 63 else 0)

end F64

end Sys2Proof.Machine
end

