-- ==== Sys2Proof/Machine/Num.lean ====
section
/-! DEFINITION. `NUM`, the number system of samples and coefficients (spec/00_scope.md rule R12), with its two named
instances, and the integer and sizing arithmetic of rules R11 and R13. -/

namespace Sys2Proof.Machine

/-- What a command answers (R93, R30): a 32-bit word, or, under `NUM_IDEAL`, "the rational itself in place of `bits32`". -/
inductive Response (S : Type) where
  | word (w : Word)
  | number (v : S)
  deriving DecidableEq, Repr

/-- `NUM` of R12 over a carrier `S`. `zero` is `ofDecimal(0)`, what `CONFIGURE` and
`CLEAR` write (R63). `ofBits` reads a binary32 operand word (R94); `respond` is how a sample is answered (R93, R30); `toRat` is
the rational a value stands for (R13); `le` is the order `clamp` uses. -/
structure Num (S : Type) where
  zero : S
  ofDecimal : Rat → S
  ofBits : Word → S
  respond : S → Response S
  toRat : S → Rat
  add : S → S → S
  sub : S → S → S
  mul : S → S → S
  neg : S → S
  le : S → S → Bool
  clamp : (v lo hi : S) → S

/-- `NUM_B32`: IEEE-754 binary32, the number system of this hardware (R12). A sample is its encoding. -/
def Num.b32 : Num Word where
  zero := 0#32
  ofDecimal := F32.ofRat
  ofBits := id
  respond := .word
  toRat := F32.toRat
  add := F32.add
  sub := F32.sub
  mul := F32.mul
  neg := F32.neg
  le := F32.le
  clamp := F32.clamp

/-- `NUM_IDEAL`: the rationals, every operation exact (R12). -/
def Num.ideal : Num Rat where
  zero := 0
  ofDecimal := id
  ofBits := F32.toRat
  respond := .number
  toRat := id
  add := fun a b => a + b
  sub := fun a b => a - b
  mul := fun a b => a * b
  neg := fun a => -a
  le := fun a b => decide (a ≤ b)
  clamp := fun v lo hi => max lo (min v hi)

/-- `clampInt` of R11. -/
def clampInt (v lo hi : Int) : Int := max lo (min v hi)

/-- `msToSamples` of R13: exact, then floored. -/
def msToSamples (ms sr : Rat) : Int := (ms * sr / 1000).floor

/-- A delay length: `clampInt(_, 1, cap − 1)` of R124. -/
def clampLength (n : Int) (cap : Nat) : Nat := (clampInt n 1 ((cap : Int) - 1)).toNat

end Sys2Proof.Machine
end

