-- ==== Sys2Proof/Machine/Units.lean ====
section
/-! DEFINITION. The state of the units (spec/10_state.md rules R21 to R24, R29, R31, R34), as plain data over the sample
type: Delay Line, Comb Filter, All-Pass Filter, biquad, one engine channel, the engine. -/

namespace Sys2Proof.Machine

/-- A sample memory (R32), addressed by sample index (R60): index and sample pairs in one canonical form (`Memory.wf`),
an unlisted index holding zero. -/
abbrev Memory (S : Type) := List (Nat × S)

/-- A Delay Line (R21). `n = none` is *unset* (R24). -/
structure DelayLine (S : Type) where
  cap : Nat
  buf : Memory S
  w : Nat
  n : Option Nat
  deriving DecidableEq, Repr

/-- A Comb Filter (R22). -/
structure Comb (S : Type) where
  dl : DelayLine S
  fb : S
  damp : S
  filterStore : S
  deriving DecidableEq, Repr

/-- An All-Pass Filter (R23). -/
structure AllPass (S : Type) where
  dl : DelayLine S
  g : S
  deriving DecidableEq, Repr

/-- A biquad instance of the machine `State` describes (R31(b), R250; DESIGN CHOICE, log 8): its coefficients, held as the arguments that determine them (none: unset), and its
memory, held as words of unknown meaning (`[]`: zero). -/
structure Biquad (S : Type) where
  coef : Option (BqCoef S)
  mem : List Word
  deriving DecidableEq, Repr

/-- The units of one channel of the engine (R34). `Q` is `BQ.State` of R250, the type of its biquads. -/
structure Channel (S Q : Type) where
  comb : Bank8 (Comb S)
  ap : Bank4 (AllPass S)
  pre : DelayLine S
  eq : Bank7 Q
  toneLP : Q
  toneLS : Q
  deriving DecidableEq, Repr

/-- The Reverb Engine (R34): the two channels and the scalar registers of R29. `none` is *unset* (R24). -/
structure Engine (S Q : Type) where
  ch : Stereo (Channel S Q)
  domeAmount : S
  preset : Preset
  stereoWidth : S
  bassBoost : S
  wetGain : S
  dryGain : S
  lpCutoff : S
  preDelaySamples : Stereo (Option Nat)
  sampleRate : Option DWord
  configured : Bool
  deriving DecidableEq, Repr

/-- A channel of the machine `State` describes. -/
abbrev Channel32 := Channel Word (Biquad Word)

/-- The engine of the machine `State` describes. -/
abbrev Engine32 := Engine Word (Biquad Word)

variable {S Q : Type}

/-- `eng.comb[c][k]` of R10. -/
def Engine.comb (e : Engine S Q) (c : Fin 2) (k : Fin 8) : Comb S := (e.ch.get c).comb.get k

/-- `eng.ap[c][j]` of R10. -/
def Engine.ap (e : Engine S Q) (c : Fin 2) (j : Fin 4) : AllPass S := (e.ch.get c).ap.get j

/-- `eng.pre[c]` of R10. -/
def Engine.pre (e : Engine S Q) (c : Fin 2) : DelayLine S := (e.ch.get c).pre

/-- `eng.eq[c][b]` of R10. -/
def Engine.eq (e : Engine S Q) (c : Fin 2) (b : Fin 7) : Q := (e.ch.get c).eq.get b

/-- The 13 Delay Lines of a channel in the order R275 names them. -/
def Channel.lines (h : Channel S Q) : List (DelayLine S) :=
  h.comb.toList.map (·.dl) ++ h.ap.toList.map (·.dl) ++ [h.pre]

/-- The 26 Delay Lines of the engine (R2) in the order R275 names them. -/
def Engine.lines (e : Engine S Q) : List (DelayLine S) := e.ch.l.lines ++ e.ch.r.lines

/-- The 9 biquads of a channel. -/
def Channel.biquads (h : Channel S Q) : List Q :=
  [h.eq.b0, h.eq.b1, h.eq.b2, h.eq.b3, h.eq.b4, h.eq.b5, h.eq.b6, h.toneLP, h.toneLS]

end Sys2Proof.Machine
end

