-- ==== Sys2Proof/Machine/Ops.lean ====
section
/-! DEFINITION. The named operations over sample memories and Delay Lines (spec/20_memory.md rules R60 to R63,
spec/40_delay_line.md rules R121 to R127). There is no operation that takes an exception: the hardware has no trap entry
and no return (spec/60_exceptions.md rules R276, R277). -/

namespace Sys2Proof.Machine

variable {S : Type}

/-! ## Sample memory -/

/-- `MemRead(M, i)` of R10: one whole sample; an unlisted index holds zero. -/
def Memory.read (zero : S) : Memory S → Nat → S
  | [], _ => zero
  | (j, v) :: rest, i => if j = i then v else Memory.read zero rest i

/-- `MemWrite(M, i, v)` of R10, keeping the canonical form: writing zero takes the entry out. -/
def Memory.write [DecidableEq S] (zero : S) (m : Memory S) (i : Nat) (v : S) : Memory S :=
  match m with
  | [] => if v = zero then [] else [(i, v)]
  | (j, u) :: rest =>
    if i < j then
      if v = zero then (j, u) :: rest else (i, v) :: (j, u) :: rest
    else if i = j then
      if v = zero then rest else (i, v) :: rest
    else (j, u) :: Memory.write zero rest i v

/-- The canonical form: indices strictly rising, no entry that says what an unlisted index says. -/
abbrev Memory.wf (zero : S) (m : Memory S) : Prop :=
  (m.map Prod.fst).Pairwise (· < ·) ∧ ∀ p ∈ m, p.2 ≠ zero

/-- Every listed index is below the memory's size (R32(a)). -/
abbrev Memory.within (m : Memory S) (size : Nat) : Prop := ∀ p ∈ m, p.1 < size

/-! ## Delay Line micro-operations -/

/-- A Delay Line that no `CONFIGURE` has reached (R21, R38). -/
def DelayLine.unconfigured : DelayLine S := ⟨0, [], 0, none⟩

/-- The state after a successful `CONFIGURE` with capacity `c` (R125): `c` zero cells, cursor 0, length unset. -/
def DelayLine.fresh (c : Nat) : DelayLine S := ⟨c, [], 0, none⟩

/-- The delay length a read uses (R121); free while unset (R24; DESIGN CHOICE, log 7). -/
def DelayLine.length (D : DelayLine S) : Nat := D.n.getD Config.unsetLength

/-- `(D.w − D.n) mod D.cap` with the Euclidean remainder (R121, R11). -/
def DelayLine.readIndex (D : DelayLine S) : Nat := (((D.w : Int) - (D.length : Int)) % (D.cap : Int)).toNat

/-- `dl_read` (R121). -/
def DelayLine.read (N : Num S) (D : DelayLine S) : S := D.buf.read N.zero D.readIndex

/-- `dl_write` (R122). -/
def DelayLine.write [DecidableEq S] (N : Num S) (D : DelayLine S) (v : S) : DelayLine S :=
  { D with buf := D.buf.write N.zero D.w v }

/-- `dl_advance` (R123). -/
def DelayLine.advance (D : DelayLine S) : DelayLine S := { D with w := (D.w + 1) % D.cap }

/-- The read, write, advance pattern of R127 and R192. -/
def DelayLine.tick [DecidableEq S] (N : Num S) (D : DelayLine S) (x : S) : DelayLine S × S :=
  ((D.write N x).advance, D.read N)

/-- Every cell zero; `cap`, `w` and `n` kept (R126). The loop over the cells empties the list of nonzero ones. -/
def DelayLine.clear (D : DelayLine S) : DelayLine S := { D with buf := [] }

/-- `D.n <- clampInt(n, 1, D.cap − 1)` (R124). -/
def DelayLine.setLength (D : DelayLine S) (n : Int) : DelayLine S := { D with n := some (clampLength n D.cap) }

end Sys2Proof.Machine
end

