-- ==== Sys2Proof/Machine/Biquad.lean ====
section
/-! DEFINITION. The external biquad primitive as the core consumes it (spec/45_biquad_contract.md): the record `BQ` the model takes
as an argument, the properties R254 lets a claim assume of it, the records of the machine `State` describes, the numbers and the
arguments the engine passes. -/

namespace Sys2Proof.Machine

variable {S Q : Type}

/-! ## The contract -/

/-- `BQ` of R250, with `Q` its member `BQ.State`. The arguments of `setCoefficients` (R251, R255) stand in a `BqCoef`. -/
structure BQ (S Q : Type) where
  init : Q
  setCoefficients : Q → BqCoef S → Q
  processSample : Q → S → Q × S
  reset : Q → Q

/-- A way to see an opaque `BQ.State` as "coefficients and per-sample memory" (R250), with the memory that is zero. -/
structure BqView (Q C M : Type) where
  coef : Q → C
  mem : Q → M
  zero : M

/-- R253: `reset` zeroes the memory and keeps the coefficients. -/
def BQ.Resets {C M : Type} (B : BQ S Q) (V : BqView Q C M) : Prop :=
  ∀ q, V.coef (B.reset q) = V.coef q ∧ V.mem (B.reset q) = V.zero

/-- BQ-ZERO of R254 for a class `Z` of samples that count as zero: from zero memory a zero input gives a zero output and
leaves the memory zero, whatever the coefficients. -/
def BQ.Zero {C M : Type} (B : BQ S Q) (V : BqView Q C M) (Z : S → Prop) : Prop :=
  ∀ q x, V.mem q = V.zero → Z x → V.mem (B.processSample q x).1 = V.zero ∧ Z (B.processSample q x).2

/-- BQ-RESET of R254: `reset` depends only on the coefficients. -/
def BQ.ResetPure {C M : Type} (B : BQ S Q) (V : BqView Q C M) : Prop :=
  ∀ q q', V.coef q = V.coef q' → B.reset q = B.reset q'

/-- BQ-SETCOEF-PURE of R254: the memory is left as it was, and the coefficients depend only on the arguments. BQ-DET needs no
definition: every member of the record is a function. -/
def BQ.SetCoefPure {C M : Type} (B : BQ S Q) (V : BqView Q C M) : Prop :=
  ∀ q c, V.mem (B.setCoefficients q c) = V.mem q ∧ ∀ q', V.coef (B.setCoefficients q c) = V.coef (B.setCoefficients q' c)

/-- The two records of functions the model takes as arguments: `NUM` (R12) and `BQ` (R250). -/
structure Hardware (S Q : Type) where
  num : Num S
  bq : BQ S Q

/-! ## Records -/

/-- The identity biquad of `TESTCFG` (R8): `processSample(x) = x`, no memory, `setCoefficients` and `reset` do nothing. -/
def BQ.identity : BQ S Unit := ⟨(), fun _ _ => (), fun _ x => ((), x), fun _ => ()⟩

/-- What a biquad computes from its coefficients (none: unset), its memory (`[]`: zero) and an input. -/
abbrev BqProcess (S : Type) := Option (BqCoef S) → List Word → S → List Word × S

/-- `BQ.init`: coefficients unset, memory zero (R250). -/
def Biquad.init : Biquad S := ⟨none, []⟩

/-- `BQ.setCoefficients` (R251): the memory is left as it was (R254). -/
def Biquad.setCoefficients (b : Biquad S) (c : BqCoef S) : Biquad S := { b with coef := some c }

/-- `BQ.processSample` (R252): the coefficients persist (R31). -/
def Biquad.processSample (p : BqProcess S) (b : Biquad S) (x : S) : Biquad S × S :=
  ({ b with mem := (p b.coef b.mem x).1 }, (p b.coef b.mem x).2)

/-- `BQ.reset` (R253): memory zeroed, coefficients kept. -/
def Biquad.reset (b : Biquad S) : Biquad S := { b with mem := [] }

/-- A `Biquad` as coefficients and memory. -/
def Biquad.view : BqView (Biquad S) (Option (BqCoef S)) (List Word) := ⟨Biquad.coef, Biquad.mem, []⟩

/-- The record whose state is a `Biquad` (DESIGN CHOICE, log 8). It has BQ-RESET, BQ-DET and BQ-SETCOEF-PURE whatever `p` is;
BQ-ZERO is a premise of the claim that needs it. -/
def BQ.ofProcess (p : BqProcess S) : BQ S (Biquad S) := ⟨Biquad.init, Biquad.setCoefficients, Biquad.processSample p, Biquad.reset⟩

/-- What the attached biquad computes: the input itself, or whatever the external library does (R250, R259; log 8). -/
def processOf : BiquadChoice → BqProcess Word
  | .identity => fun _ m x => (m, x)
  | .external => Config.bqProcess

/-- The biquad of the machine `State` describes (R7). -/
abbrev biquadOf (b : BiquadChoice) : BQ Word (Biquad Word) := .ofProcess (processOf b)

/-- The two records of the machine `State` describes: `NUM_B32` (R12) and the attached biquad. -/
def hardwareOf (b : BiquadChoice) : Hardware Word (Biquad Word) := ⟨Num.b32, biquadOf b⟩

/-! ## The numbers of the contract -/

/-- The number an argument of `setCoefficients` is; `dbToLin(d) = 10^(d/20)` (R258). -/
def Denotes (N : Num S) : BqNumber S → ℝ → Prop
  | .sample v, x => x = (N.toRat v : ℝ)
  | .exact q, x => x = (q : ℝ)
  | .dbToLin d, x => x = (10 : ℝ) ^ ((d : ℝ) / 20)

/-- The greatest number whose 20th power is at most `m`, if it is below `r + 2^bits`: one binary digit at a time. -/
def root20 (m : Nat) : (bits : Nat) → (r : Nat) → Nat
  | 0, r => r
  | bits + 1, r => if (r + 2 ^ bits) ^ 20 ≤ m then root20 m bits (r + 2 ^ bits) else root20 m bits r

/-- `dbToLin(d)` of R258 to `k` decimal places, cut off: the greatest multiple of `10^-k` whose 20th power is at most `10^d`. -/
def dbToLinDigits (k : Nat) (d : Int) : Rat :=
  let m := 10 ^ (20 * k + d.toNat) / 10 ^ (-d).toNat
  mkRat (root20 m (m.log2 + 1) 0) (10 ^ k)

/-! ## The arguments the engine passes -/

/-- `EQ_BAND[b]` of R256: kind, frequency, gain (R258: 1 for the low-pass). -/
def eqBand : Fin 7 → FilterKind × Rat × BqNumber S
  | 0 => (.lowshelf, 50, .dbToLin 1)
  | 1 => (.peaking, 100, .dbToLin (-1))
  | 2 => (.peaking, 200, .dbToLin (-3))
  | 3 => (.peaking, 400, .dbToLin (-4))
  | 4 => (.peaking, 1000, .dbToLin 2)
  | 5 => (.peaking, 4000, .dbToLin 6)
  | 6 => (.lowpass, 10000, .exact 1)

/-- The arguments `ENG.CONFIGURE` passes for equaliser band `b` (R181, R256). -/
def eqCoef (cfg : Params S) (sr : DWord) (b : Fin 7) : BqCoef S :=
  ⟨sr, (eqBand b : FilterKind × Rat × BqNumber S).1, .exact (eqBand b : FilterKind × Rat × BqNumber S).2.1,
    .exact (cfg.eqQ.get b), (eqBand b).2.2⟩

/-- The arguments for the tone low-pass (R257). -/
def toneLpCoef (cfg : Params S) (sr : DWord) (cutoff : S) : BqCoef S :=
  ⟨sr, .lowpass, .sample cutoff, .exact cfg.toneLpQ, .exact 1⟩

/-- The arguments for the tone low-shelf (R257). -/
def toneLsCoef (cfg : Params S) (sr : DWord) (bassBoost : S) : BqCoef S :=
  ⟨sr, .lowshelf, .exact cfg.bassShelfHz, .exact cfg.bassShelfQ, .sample bassBoost⟩

end Sys2Proof.Machine
end

