-- ==== Sys2Proof/Machine/Pipeline.lean ====
section
/-! DEFINITION. The per-sample datapath: the Comb Filter (spec/41_comb_filter.md rule R145), the All-Pass Filter
(spec/42_allpass_filter.md rule R165) and the eight pipeline steps of the engine (spec/43_reverb_engine.md rules R190 to
R199), over any `NUM`. Every operator of a rule is one `NUM` operation, in the parenthesisation the rule writes (R12). -/

namespace Sys2Proof.Machine

variable {S Q : Type}

/-! ## The two filters -/

/-- Step 2 of R145: the new `filterStore` from the value just read. -/
def Comb.nextStore (N : Num S) (c : Comb S) (delayed : S) : S :=
  N.add (N.mul delayed (N.sub (N.ofDecimal 1) c.damp)) (N.mul c.filterStore c.damp)

/-- Step 3 of R145: the value stored in the buffer, made with the NEW `filterStore`. -/
def Comb.stored (N : Num S) (c : Comb S) (x : S) : S :=
  N.add x (N.mul (c.nextStore N (c.dl.read N)) c.fb)

/-- Steps 1 to 5 of R145. -/
def Comb.process [DecidableEq S] (N : Num S) (c : Comb S) (x : S) : Comb S × S :=
  ({ c with filterStore := c.nextStore N (c.dl.read N), dl := (c.dl.write N (c.stored N x)).advance }, c.dl.read N)

/-- `COMB.CLEAR` on a comb (R146). -/
def Comb.clear (N : Num S) (c : Comb S) : Comb S := { c with dl := c.dl.clear, filterStore := N.zero }

/-- Step 2 of R165. -/
def AllPass.output (N : Num S) (a : AllPass S) (x : S) : S := N.add (N.neg (N.mul a.g x)) (a.dl.read N)

/-- Step 3 of R165: the value stored in the buffer. -/
def AllPass.stored (N : Num S) (a : AllPass S) (x : S) : S := N.add x (N.mul a.g (a.dl.read N))

/-- Steps 1 to 4 of R165. -/
def AllPass.process [DecidableEq S] (N : Num S) (a : AllPass S) (x : S) : AllPass S × S :=
  ({ a with dl := (a.dl.write N (a.stored N x)).advance }, a.output N x)

/-- `AP.CLEAR` on an all-pass (R163). -/
def AllPass.clear (a : AllPass S) : AllPass S := { a with dl := a.dl.clear }

/-! ## Pipeline steps of one channel -/

/-- Step 1, `preEQ` (R191): seven biquads in order. -/
def preEq (B : BQ S Q) (q : Bank7 Q) (v : S) : Bank7 Q × S :=
  let r0 := B.processSample q.b0 v
  let r1 := B.processSample q.b1 r0.2
  let r2 := B.processSample q.b2 r1.2
  let r3 := B.processSample q.b3 r2.2
  let r4 := B.processSample q.b4 r3.2
  let r5 := B.processSample q.b5 r4.2
  let r6 := B.processSample q.b6 r5.2
  (⟨r0.1, r1.1, r2.1, r3.1, r4.1, r5.1, r6.1⟩, r6.2)

/-- The eight comb outputs added left to right from comb 0 (R193). -/
def combSum (N : Num S) (y : Bank8 S) : S :=
  N.add (N.add (N.add (N.add (N.add (N.add (N.add y.c0 y.c1) y.c2) y.c3) y.c4) y.c5) y.c6) y.c7

/-- Step 3, `combBank` (R193): same input to every comb, sum scaled once by 0.125. -/
def combBank [DecidableEq S] (N : Num S) (b : Bank8 (Comb S)) (v : S) : Bank8 (Comb S) × S :=
  (b.map fun c => (c.process N v).1, N.mul (combSum N (b.map fun c => (c.process N v).2)) (N.ofDecimal 0.125))

/-- Step 5, `apCascade` (R195): four all-passes in series, index order. -/
def apCascade [DecidableEq S] (N : Num S) (b : Bank4 (AllPass S)) (v : S) : Bank4 (AllPass S) × S :=
  let r0 := b.a0.process N v
  let r1 := b.a1.process N r0.2
  let r2 := b.a2.process N r1.2
  let r3 := b.a3.process N r2.2
  (⟨r0.1, r1.1, r2.1, r3.1⟩, r3.2)

/-- Steps 1 to 3 on one channel (R191 to R193). -/
def Channel.front [DecidableEq S] (N : Num S) (B : BQ S Q) (h : Channel S Q) (x : S) : Channel S Q × S :=
  let a := preEq B h.eq x
  let p := h.pre.tick N a.2
  let s := combBank N h.comb p.2
  ({ h with eq := a.1, pre := p.1, comb := s.1 }, s.2)

/-- Steps 5 and 6 on one channel (R195, R196): cascade, tone low-pass, tone low-shelf. -/
def Channel.back [DecidableEq S] (N : Num S) (B : BQ S Q) (h : Channel S Q) (x : S) : Channel S Q × S :=
  let d := apCascade N h.ap x
  let lp := B.processSample h.toneLP d.2
  let ls := B.processSample h.toneLS lp.2
  ({ h with ap := d.1, toneLP := lp.1, toneLS := ls.1 }, ls.2)

/-- `ENG.CLEAR` on one channel (R182). -/
def Channel.clear (N : Num S) (B : BQ S Q) (h : Channel S Q) : Channel S Q :=
  { comb := h.comb.map (·.clear N), ap := h.ap.map (·.clear), pre := h.pre.clear, eq := h.eq.map B.reset,
    toneLP := B.reset h.toneLP, toneLS := B.reset h.toneLS }

/-! ## Steps that join the channels -/

/-- Step 4, one side of the crossfeed (R194): `own + (other * 0.15)`. -/
def crossfeed (N : Num S) (own other : S) : S := N.add own (N.mul other (N.ofDecimal 0.15))

/-- Step 7 (R197). -/
def width (N : Num S) (stereoWidth l r : S) : S × S :=
  let mid := N.mul (N.add l r) (N.ofDecimal 0.5)
  let side := N.mul (N.mul (N.sub l r) (N.ofDecimal 0.5)) stereoWidth
  (N.add mid side, N.sub mid side)

/-- Step 8 on one channel (R198). -/
def mix (N : Num S) (dry wet input processed : S) : S := N.add (N.mul dry input) (N.mul wet processed)

/-- `eng_sample` (R190): the new engine and (outL, outR). -/
def Engine.sample [DecidableEq S] (N : Num S) (B : BQ S Q) (e : Engine S Q) (inL inR : S) : Engine S Q × S × S :=
  let fl := e.ch.l.front N B inL
  let fr := e.ch.r.front N B inR
  let bl := fl.1.back N B (crossfeed N fl.2 fr.2)
  let br := fr.1.back N B (crossfeed N fr.2 fl.2)
  let u := width N e.stereoWidth bl.2 br.2
  ({ e with ch := ⟨bl.1, br.1⟩ }, mix N e.dryGain e.wetGain inL u.1, mix N e.dryGain e.wetGain inR u.2)

/-- Flat index of `HB(c, i)` (R66). -/
def hbIndex (numSamples c i : Nat) : Nat := c * numSamples + i

/-- The loop of R183 over the sample indices `i, i+1, …`, as many as the first argument. -/
def Engine.processFrom [DecidableEq S] (N : Num S) (B : BQ S Q) (numChannels numSamples : Nat) :
    Nat → Nat → Engine S Q → Memory S → Engine S Q × Memory S
  | 0, _, e, hb => (e, hb)
  | k + 1, i, e, hb =>
    let inL := hb.read N.zero (hbIndex numSamples 0 i)
    let inR := if numChannels = 2 then hb.read N.zero (hbIndex numSamples 1 i) else inL
    let out := e.sample N B inL inR
    let hb0 := hb.write N.zero (hbIndex numSamples 0 i) out.2.1
    let hb1 := if numChannels = 2 then hb0.write N.zero (hbIndex numSamples 1 i) out.2.2 else hb0
    Engine.processFrom N B numChannels numSamples k (i + 1) out.1 hb1

/-- `ENG.PROCESS` past its checks (R183): all `numSamples` samples, in place. -/
def Engine.process [DecidableEq S] (N : Num S) (B : BQ S Q) (numChannels numSamples : Nat) (e : Engine S Q)
    (hb : Memory S) : Engine S Q × Memory S :=
  Engine.processFrom N B numChannels numSamples numSamples 0 e hb

/-- `ENG.CLEAR` (R182). -/
def Engine.clear (N : Num S) (B : BQ S Q) (e : Engine S Q) : Engine S Q := { e with ch := e.ch.map (·.clear N B) }

end Sys2Proof.Machine
end

