-- ==== Sys2Proof/Machine/Derive.lean ====
section
/-! DEFINITION. The Parameter Mapper's functions (spec/44_parameter_mapper.md rules R221 to R231, R238), the engine's
configuration step past its checks (spec/43_reverb_engine.md rule R181), the engine after reset (spec/10_state.md rule R38),
and the parameter sets an instance can have (spec/00_scope.md rules R7, R8). -/

namespace Sys2Proof.Machine

variable {S Q : Type}

/-- The quantities of R222 that depend on `domeAmount` alone. -/
structure Derived (S : Type) where
  wetGain : S
  dryGain : S
  combFeedback : S
  combDamping : S
  lpCutoff : S
  deriving DecidableEq, Repr

/-- `map_derive` (R221): R223, R224, R227, R228, R229. -/
def mapDerive (N : Num S) (a : S) : Derived S :=
  { wetGain := N.mul a (N.ofDecimal 0.6)
    dryGain := N.sub (N.ofDecimal 1) (N.mul a (N.ofDecimal 0.3))
    combFeedback := N.add (N.ofDecimal 0.75) (N.mul a (N.ofDecimal 0.12))
    combDamping := N.add (N.ofDecimal 0.15) (N.mul a (N.ofDecimal 0.35))
    lpCutoff := N.sub (N.ofDecimal 10000) (N.mul a (N.ofDecimal 5000)) }

/-- The clamp of `setFeedback` (R143). -/
def clampFb (N : Num S) (f : S) : S := N.clamp f (N.ofDecimal 0) (N.ofDecimal 0.99)

/-- The clamp of `setDamping` (R144). -/
def clampDamp (N : Num S) (d : S) : S := N.clamp d (N.ofDecimal 0) (N.ofDecimal 1)

/-- The clamp of `setCoefficient` (R164). -/
def clampCoef (N : Num S) (c : S) : S := N.clamp c (N.ofDecimal 0) (N.ofDecimal 0.9)

/-- The clamp of `setDomeAmount` (R232). -/
def clampDome (N : Num S) (a : S) : S := N.clamp a (N.ofDecimal 0) (N.ofDecimal 1)

/-- `PRE_MS` of R6 and R238. -/
def preMs : Fin 2 → Rat
  | 0 => 25
  | 1 => 30

/-- `preDelaySamples[c]` of R225 and R226: `floor(a * PRE_MS[c] * sr / 1000)`, exact, clamped into [1, cap − 1]. -/
def preDelayLength (N : Num S) (a : S) (c : Fin 2) (sr : DWord) (cap : Nat) : Nat :=
  clampLength (msToSamples (N.toRat a * preMs c) (F64.toRat sr)) cap

/-- One row of the preset table R230. -/
structure PresetRow (S : Type) where
  domeAmount : S
  stereoWidth : S
  bassBoost : S
  deriving DecidableEq, Repr

/-- The preset table (R230). -/
def presetRow (N : Num S) : Preset → PresetRow S
  | .arena => ⟨N.ofDecimal 0.60, N.ofDecimal 0.80, N.ofDecimal 1.5⟩
  | .stadium => ⟨N.ofDecimal 0.80, N.ofDecimal 1.00, N.ofDecimal 1.8⟩
  | .hall => ⟨N.ofDecimal 0.40, N.ofDecimal 0.60, N.ofDecimal 1.2⟩
  | .club => ⟨N.ofDecimal 0.25, N.ofDecimal 0.50, N.ofDecimal 2.0⟩

/-- The part of `map_apply` that needs no sample rate (R238, first half). -/
def Engine.pushScalars (N : Num S) (e : Engine S Q) : Engine S Q :=
  let d := mapDerive N e.domeAmount
  let setBoth : Comb S → Comb S :=
    fun c => { c with fb := clampFb N d.combFeedback, damp := clampDamp N d.combDamping }
  { e with
    wetGain := d.wetGain
    dryGain := d.dryGain
    lpCutoff := d.lpCutoff
    ch := e.ch.map fun h => { h with comb := h.comb.map setBoth } }

/-- The rate-dependent part for channel `c` (R238, second half). -/
def Channel.pushRate (N : Num S) (B : BQ S Q) (cfg : Params S) (e : Engine S Q) (sr : DWord) (c : Fin 2) (h : Channel S Q) : Channel S Q :=
  { h with
    pre := { h.pre with n := some (preDelayLength N e.domeAmount c sr h.pre.cap) }
    toneLP := B.setCoefficients h.toneLP (toneLpCoef cfg sr e.lpCutoff)
    toneLS := B.setCoefficients h.toneLS (toneLsCoef cfg sr e.bassBoost) }

/-- The rate-dependent part of `map_apply` (R238, second half). -/
def Engine.pushRate (N : Num S) (B : BQ S Q) (cfg : Params S) (sr : DWord) (e : Engine S Q) : Engine S Q :=
  { e with
    preDelaySamples := .ofFn fun c => some (preDelayLength N e.domeAmount c sr (e.pre c).cap)
    ch := .ofFn fun c => (e.ch.get c).pushRate N B cfg e sr c }

/-- `map_apply` (R238): "while the engine is not configured the sample-rate-dependent part is skipped". The rate is set
whenever `configured` is (R24, R28). -/
def Engine.mapApply (N : Num S) (B : BQ S Q) (cfg : Params S) (e : Engine S Q) : Engine S Q :=
  let e1 := e.pushScalars N
  if e1.configured then
    match e1.sampleRate with
    | some sr => e1.pushRate N B cfg sr
    | none => e1
  else e1

/-! ## Configuration -/

/-- `floor(M * sampleRate / 1000)` (R181, R125). -/
def capacityOf (maxMs : Rat) (sr : DWord) : Int := msToSamples maxMs (F64.toRat sr)

/-- The maximum delay times `M(D)` of the 26 lines, in the order R275 checks them. -/
def lineMaxima (cfg : Params S) : List Rat :=
  cfg.combMaxMs.l.toList ++ cfg.apMaxMs.l.toList ++ [cfg.preDelayMaxMs.l] ++
  (cfg.combMaxMs.r.toList ++ cfg.apMaxMs.r.toList ++ [cfg.preDelayMaxMs.r])

/-- A comb's or all-pass's line in `ENG.CONFIGURE` (R181): fresh, with its length set. -/
def configuredLine (maxMs delayMs : Rat) (sr : DWord) : DelayLine S :=
  (DelayLine.fresh (capacityOf maxMs sr).toNat).setLength (msToSamples delayMs (F64.toRat sr))

/-- `ENG.CONFIGURE` on channel `c`, before `map_apply` (R181). -/
def Channel.configure (N : Num S) (B : BQ S Q) (cfg : Params S) (sr : DWord) (c : Fin 2) (h : Channel S Q) : Channel S Q :=
  { comb := .ofFn fun k =>
      { h.comb.get k with
        dl := configuredLine ((cfg.combMaxMs.get c).get k) ((cfg.combDelayMs.get c).get k) sr
        filterStore := N.zero }
    ap := .ofFn fun j =>
      { h.ap.get j with dl := configuredLine ((cfg.apMaxMs.get c).get j) ((cfg.apDelayMs.get c).get j) sr }
    pre := .fresh (capacityOf (cfg.preDelayMaxMs.get c) sr).toNat
    eq := .ofFn fun b => B.reset (B.setCoefficients (h.eq.get b) (eqCoef cfg sr b))
    toneLP := B.reset h.toneLP
    toneLS := B.reset h.toneLS }

/-- `ENG.CONFIGURE` past its checks (R181). -/
def Engine.configure (N : Num S) (B : BQ S Q) (cfg : Params S) (sr : DWord) (e : Engine S Q) : Engine S Q :=
  Engine.mapApply N B cfg
    { e with
      sampleRate := some sr
      configured := true
      ch := .ofFn fun c => (e.ch.get c).configure N B cfg sr c }

/-- `ENG.SETDOME` past its check (R232). -/
def Engine.setDome (N : Num S) (B : BQ S Q) (cfg : Params S) (amount : S) (e : Engine S Q) : Engine S Q :=
  Engine.mapApply N B cfg { e with domeAmount := clampDome N amount }

/-- `ENG.SETPRESET` (R233). -/
def Engine.setPreset (N : Num S) (B : BQ S Q) (cfg : Params S) (id : Preset) (e : Engine S Q) : Engine S Q :=
  Engine.mapApply N B cfg
    { e with
      preset := id
      domeAmount := (presetRow N id).domeAmount
      stereoWidth := (presetRow N id).stereoWidth
      bassBoost := (presetRow N id).bassBoost }

/-! ## Reset -/

/-- A standalone comb after reset (R38). -/
def Comb.reset (N : Num S) : Comb S := ⟨.unconfigured, N.zero, N.zero, N.zero⟩

/-- A standalone all-pass after reset (R38). -/
def AllPass.reset (N : Num S) : AllPass S := ⟨.unconfigured, N.zero⟩

/-- One channel at construction; the combs' coefficients are derived by the `map_apply` that reset ends with (R238). -/
def Channel.reset (N : Num S) (B : BQ S Q) (cfg : Params S) (c : Fin 2) : Channel S Q :=
  { comb := .ofFn fun _ => Comb.reset N
    ap := .ofFn fun j => ⟨.unconfigured, clampCoef N ((cfg.apCoeff.get c).get j)⟩
    pre := .unconfigured
    eq := .ofFn fun _ => B.init
    toneLP := B.init
    toneLS := B.init }

/-- The engine after reset (R38, R300). -/
def Engine.reset (N : Num S) (B : BQ S Q) (cfg : Params S) : Engine S Q :=
  Engine.mapApply N B cfg
    { ch := .ofFn fun c => Channel.reset N B cfg c
      domeAmount := cfg.resetParams.domeAmount
      preset := cfg.resetParams.preset
      stereoWidth := cfg.resetParams.stereoWidth
      bassBoost := cfg.resetParams.bassBoost
      wetGain := N.zero
      dryGain := N.zero
      lpCutoff := N.zero
      preDelaySamples := ⟨none, none⟩
      sampleRate := none
      configured := false }

/-! ## Parameter sets -/

/-- The "legal values" column of R7 (for `AP_COEFF` and the reset parameters: numbers, not NaN, since R12 defines `clamp`
only there). -/
def paramsLegal (N : Num S) (cfg : Params S) : Bool :=
  (cfg.combDelayMs.l.toList ++ cfg.combDelayMs.r.toList ++ cfg.apDelayMs.l.toList ++ cfg.apDelayMs.r.toList).all
    (fun q => decide (0 ≤ q)) &&
  (lineMaxima cfg).all (fun q => decide (0 < q)) &&
  (cfg.apCoeff.l.toList ++ cfg.apCoeff.r.toList).all (fun g => N.le g g) &&
  [cfg.eqQ.b0, cfg.eqQ.b1, cfg.eqQ.b2, cfg.eqQ.b3, cfg.eqQ.b4, cfg.eqQ.b5, cfg.eqQ.b6, cfg.toneLpQ, cfg.bassShelfHz,
    cfg.bassShelfQ].all (fun q => decide (0 < q)) &&
  N.le (N.ofDecimal 0) cfg.resetParams.domeAmount && N.le cfg.resetParams.domeAmount (N.ofDecimal 1) &&
  decide (2 ≤ cfg.maxCap) && decide (cfg.maxCap ≤ 2 ^ 31 - 1)

/-- `RESET_PARAMS` at its default, "the Arena row" (R7, R38). -/
def arenaReset (N : Num S) : ResetParams S :=
  ⟨.arena, (presetRow N .arena).domeAmount, (presetRow N .arena).stereoWidth, (presetRow N .arena).bassBoost⟩

/-- `TESTCFG` (R8), but for `NUM`, `BQ` and the sample rate, which are arguments. R8 gives `EQ_Q`, `TONE_LP_Q` and the two
`BASS_SHELF` parameters no value, since its identity biquad ignores them; the model writes 1 for each (DESIGN CHOICE, log 24). -/
def testParams (N : Num S) : Params S :=
  { combDelayMs := ⟨⟨2, 3, 4, 5, 6, 7, 8, 9⟩, ⟨3, 4, 5, 6, 7, 8, 9, 10⟩⟩
    combMaxMs := ⟨⟨16, 16, 16, 16, 16, 16, 16, 16⟩, ⟨16, 16, 16, 16, 16, 16, 16, 16⟩⟩
    apDelayMs := ⟨⟨1, 2, 3, 4⟩, ⟨2, 3, 4, 5⟩⟩
    apMaxMs := ⟨⟨8, 8, 8, 8⟩, ⟨8, 8, 8, 8⟩⟩
    apCoeff := .ofFn fun _ => .ofFn fun _ => N.ofDecimal 0.5
    preDelayMaxMs := ⟨32, 32⟩
    eqQ := ⟨1, 1, 1, 1, 1, 1, 1⟩
    toneLpQ := 1
    bassShelfHz := 1
    bassShelfQ := 1
    resetParams := arenaReset N
    maxCap := 65536 }

/-- The parameters of the instance `State.reset` describes (DESIGN CHOICE, log 2): any legal ones, with `RESET_PARAMS` at its
default. `Config.openParams` is free; an illegal value of it describes no hardware, and `TESTCFG` stands in for that case (with
the Q values of log 24, beside the external biquad) only so that the set of instances is the legal ones. -/
def defaultParams : Params Word :=
  let p := { Config.openParams with resetParams := arenaReset Num.b32 }
  { (if paramsLegal Num.b32 p then p else testParams Num.b32) with resetParams := arenaReset Num.b32 }

end Sys2Proof.Machine
end

