-- ==== Sys2Proof/Machine/State.lean ====
section
/-! DEFINITION. The machine's state as plain data, the reasons a command is refused, and the state after reset
(spec/10_state.md rules R20 to R41, spec/60_exceptions.md rules R270 to R272). -/

namespace Sys2Proof.Machine

/-- Faults: there are none. "The core raises no exception, fault, trap or error code, ever" (R270), and no access can be
misaligned or out of range (R62). -/
inductive Fault where
  deriving DecidableEq, Repr

/-- The refusal reasons: the closed list of R272 in its order. A refused command has no successor state, no response and
writes no host cell (R271). Every one is SAFE: the spec gives the refused input no meaning, so nothing can be proved of it. -/
inductive Refusal where
  /-- Raised by `step` on any header whose `op` is not listed for the port (R102). Safe: the spec's own refusal. -/
  | illegalOpcode
  /-- Raised by `step` on a listed `op` whose `rsv` or unused `imm16` bits are not zero (R103). Safe: the spec's own refusal. -/
  | reservedFieldNonzero
  /-- Raised by the four `CONFIGURE` commands: `sampleRate` NaN, infinite, zero or negative (R125, R181). Safe. -/
  | badSampleRate
  /-- Raised by `DL.`, `COMB.`, `AP.CONFIGURE`: `maxDelayMs` NaN, infinite, zero or negative (R125). Safe. -/
  | badMaxDelay
  /-- Raised by `ENG.CONFIGURE`: `blockSizeHint` below 1 (R181). Safe. -/
  | badBlockSize
  /-- Raised by the four `CONFIGURE` commands: a computed capacity below 2 (R125, R181). Safe. -/
  | capacityTooSmall
  /-- Raised by the four `CONFIGURE` commands: a computed capacity above `MAX_CAP` (R125, R181). Safe. -/
  | capacityTooLarge
  /-- Raised by `SETDELAY`, `TICK` and `PROCESS` on a unit without buffer, and by `ENG.PROCESS` before `ENG.CONFIGURE`
  (R124, R127, R145, R165, R183). Safe. -/
  | notConfigured
  /-- Raised by `DL.TICK`, `COMB.PROCESS`, `AP.PROCESS` while the delay length is unset (R24, R127). Safe. -/
  | delayUnset
  /-- Raised by `ENG.PROCESS`: `numChannels` not 1 or 2 (R98, R183). Safe. -/
  | badChannelCount
  /-- Raised by `ENG.GETPARAM`: register number 14 or above (R99, R184). Safe. -/
  | badRegister
  /-- Raised by `ENG.GETPARAM` of a register that is unset (R24, R184). Safe. -/
  | readUnset
  /-- Raised by `COMB.SETFB`, `COMB.SETDAMP`, `AP.SETCOEF`, `ENG.SETDOME` on a NaN (R279). Safe. -/
  | nanOperand
  /-- Raised by `exec` only, for a command that has no meaning yet; no arm uses it. Safe. -/
  | notModelled (mnemonic : String)
  deriving DecidableEq, Repr

/-- The machine over any number system with carrier `S` and any biquad with state type `Q` (R7, R12, R250). One unit of each
port class (R101): a standalone Delay Line, Comb Filter and All-Pass Filter, and the engine; instances share no state (R2,
R285), so one of each shows every behaviour (DESIGN CHOICE, log 23). `cfg` is not state but the instance's configuration
(R41), which no step writes (DESIGN CHOICE, log 1). `hb` is the host's sample buffer (R32(b); DESIGN CHOICE, log 4). `inbox`
and `responses` are the two sides of the command ports (R91, R93): words the host has sent and no command has consumed, and
responses, oldest first (DESIGN CHOICE, log 3). -/
structure Session (S Q : Type) where
  cfg : Params S
  dl : DelayLine S
  comb : Comb S
  ap : AllPass S
  eng : Engine S Q
  hb : Memory S
  inbox : List (Port × Word)
  responses : List (Port × Response S)
  deriving DecidableEq, Repr

/-- The state of this hardware, whose number system is `NUM_B32` (R12; log 12), with the choice of attached biquad (R7; log 8). -/
structure State extends Session Word (Biquad Word) where
  biquad : BiquadChoice
  deriving DecidableEq, Repr

/-- The two records of functions this hardware has (R12, R250). -/
def State.hardware (s : State) : Hardware Word (Biquad Word) := hardwareOf s.biquad

/-- The state right after construction (R38, R300) of an instance with parameters `cfg`. -/
def Session.reset {S Q : Type} (H : Hardware S Q) (cfg : Params S) : Session S Q :=
  { cfg := cfg
    dl := .unconfigured
    comb := Comb.reset H.num
    ap := AllPass.reset H.num
    eng := Engine.reset H.num H.bq cfg
    hb := []
    inbox := []
    responses := [] }

/-- The same of this hardware, with the biquad `b` attached. -/
def State.resetWith (cfg : Params Word) (b : BiquadChoice) : State :=
  { Session.reset (hardwareOf b) cfg with biquad := b }

/-- The state right after reset (R38), `RESET_PARAMS` at its default, the external biquad attached, and every other open
parameter free (DESIGN CHOICE, log 2). -/
def State.reset : State := State.resetWith defaultParams .external

/-- What a command ends in. -/
abbrev Result := Host.Outcome State Fault Refusal

/-- What a command of the parametric machine ends in. -/
abbrev Outcome (S Q : Type) := Host.Outcome (Session S Q) Fault Refusal

/-- A command of the parametric machine, run with this hardware's two records; the attached biquad stays attached. -/
def State.run (s : State) (command : Hardware Word (Biquad Word) → Session Word (Biquad Word) → Outcome Word (Biquad Word)) :
    Result :=
  match command s.hardware s.toSession with
  | .next t => .next { s with toSession := t }
  | .fault f => .fault f
  | .refused r => .refused r

/-! ## Named updates -/

section Updates

variable {S Q : Type} (s : Session S Q)

def Session.withDl (d : DelayLine S) : Session S Q := { s with dl := d }
def Session.withComb (c : Comb S) : Session S Q := { s with comb := c }
def Session.withAp (a : AllPass S) : Session S Q := { s with ap := a }
def Session.withEng (e : Engine S Q) : Session S Q := { s with eng := e }
def Session.withHb (m : Memory S) : Session S Q := { s with hb := m }
def Session.withInbox (q : List (Port × Word)) : Session S Q := { s with inbox := q }
/-- Answer on port `p` (R93). -/
def Session.answer (p : Port) (r : Response S) : Session S Q := { s with responses := s.responses ++ [(p, r)] }

end Updates

def State.withDl (s : State) (d : DelayLine Word) : State := { s with dl := d }
def State.withComb (s : State) (c : Comb Word) : State := { s with comb := c }
def State.withAp (s : State) (a : AllPass Word) : State := { s with ap := a }
def State.withEng (s : State) (e : Engine32) : State := { s with eng := e }
def State.withHb (s : State) (m : Memory Word) : State := { s with hb := m }
def State.withInbox (s : State) (q : List (Port × Word)) : State := { s with inbox := q }
/-- Answer one response word on port `p` (R93). -/
def State.answer (s : State) (p : Port) (w : Word) : State := { s with responses := s.responses ++ [(p, .word w)] }

end Sys2Proof.Machine
end

