-- ==== Sys2Proof/Machine/Operands.lean ====
section
/-! DEFINITION. The operand and state checks of the commands, in the order of spec/60_exceptions.md rule R275, and the shared
operations of the commands that a Delay Line's owner forwards to it (spec/40_delay_line.md rules R124, R125, R127). -/

namespace Sys2Proof.Machine

variable {S : Type}

/-! ## Operand checks (R275 step 3) -/

/-- `sampleRate` must be finite and above zero (R95). -/
def checkRate (sr : DWord) : Option Refusal := if F64.isPositiveFinite sr then none else some .badSampleRate

/-- `maxDelayMs` must be finite and above zero (R125). -/
def checkMaxDelay (ms : Word) : Option Refusal :=
  if F32.isFinite ms && !F32.negative ms && !F32.isZero ms then none else some .badMaxDelay

/-- `blockSizeHint` must be at least 1 (R181). -/
def checkBlockSize (hint : Int) : Option Refusal := if hint < 1 then some .badBlockSize else none

/-- `numChannels` must be 1 or 2 (R183). -/
def checkChannels (ch : Nat) : Option Refusal := if ch = 1 ∨ ch = 2 then none else some .badChannelCount

/-- A coefficient setter refuses a NaN (R279). -/
def checkNotNaN (v : Word) : Option Refusal := if F32.isNaN v then some .nanOperand else none

/-! ## State preconditions (R275 step 4) -/

/-- The line has a buffer (R124). -/
def checkBuffer (D : DelayLine S) : Option Refusal := if D.cap = 0 then some .notConfigured else none

/-- The line has a buffer and a delay length (R127). -/
def checkReady (D : DelayLine S) : Option Refusal :=
  if D.cap = 0 then some .notConfigured else if D.n = none then some .delayUnset else none

/-! ## Computed capacities (R275 step 5) -/

/-- A computed capacity lies in [2, MAX_CAP] (R125). -/
def checkCapacity (maxCap : Nat) (c : Int) : Option Refusal :=
  if c < 2 then some .capacityTooSmall else if (maxCap : Int) < c then some .capacityTooLarge else none

/-- The first failing line gives the reason (R275). -/
def checkCapacities (maxCap : Nat) : List Int → Option Refusal
  | [] => none
  | c :: rest =>
    match checkCapacity maxCap c with
    | some r => some r
    | none => checkCapacities maxCap rest

/-- The first of several checks that fails. -/
def firstRefusal : List (Option Refusal) → Option Refusal
  | [] => none
  | some r :: _ => some r
  | none :: rest => firstRefusal rest

/-- "All refusal checks of a command come before its first state change" (R280): a refusal, or the command's effect. -/
def unlessRefused {σ : Type} (check : Option Refusal) (effect : σ) : Host.Outcome σ Fault Refusal :=
  match check with
  | some r => .refused r
  | none => .next effect

/-! ## Commands of a Delay Line, shared by its three owners -/

/-- The capacity a unit's `CONFIGURE` computes from its two operands (R125). -/
def unitCapacity (sr : DWord) (ms : Word) : Int := capacityOf (F32.toRat ms) sr

/-- The checks of a unit's `CONFIGURE` (R125). -/
def checkConfigure (maxCap : Nat) (sr : DWord) (ms : Word) : Option Refusal :=
  firstRefusal [checkRate sr, checkMaxDelay ms, checkCapacity maxCap (unitCapacity sr ms)]

/-- The line after a unit's `CONFIGURE` (R125). -/
def configureLine (sr : DWord) (ms : Word) : DelayLine S := .fresh (unitCapacity sr ms).toNat

/-- The checks of `ENG.CONFIGURE` (R181): operands first, then the 26 capacities. -/
def checkEngConfigure (cfg : Params S) (sr : DWord) (hint : Int) : Option Refusal :=
  firstRefusal [checkRate sr, checkBlockSize hint,
    checkCapacities cfg.maxCap ((lineMaxima cfg).map fun m => capacityOf m sr)]

end Sys2Proof.Machine
end

