-- ==== Sys2Proof/Machine/Flags.lean ====
section
/-! DEFINITION. The only flag of the hardware, `eng.configured` (spec/10_state.md rule R28), the check that reads it, and the
register read-back of rule R30. No command computes a condition code. -/

namespace Sys2Proof.Machine

variable {S Q : Type}

/-- `ENG.PROCESS` needs a configured engine (R28, R183). -/
def checkEngConfigured (e : Engine S Q) : Option Refusal := if e.configured then none else some .notConfigured

/-- The status word, register 13: bit 0 = `configured`, bits 31..1 = 0 (R30). -/
def statusWord (e : Engine S Q) : Word := if e.configured then 1#32 else 0#32

/-- A register that may be unset: refused `ReadUnset` while it is (R24). -/
def readOrUnset {α : Type} (v : Option α) (toWord : α → Word) : Except Refusal (Response S) :=
  match v with
  | some x => .ok (.word (toWord x))
  | none => .error .readUnset

/-- The response of `ENG.GETPARAM r` (R30, R184): a sample as `NUM` answers it, `bits32` of it under `NUM_B32` and "the rational
itself" under `NUM_IDEAL`; every other register as its word. -/
def readParam (N : Num S) (e : Engine S Q) (r : Nat) : Except Refusal (Response S) :=
  match r with
  | 0 => .ok (N.respond e.domeAmount)
  | 1 => .ok (.word (BitVec.ofNat 32 e.preset.index))
  | 2 => .ok (N.respond e.stereoWidth)
  | 3 => .ok (N.respond e.bassBoost)
  | 4 => .ok (N.respond e.wetGain)
  | 5 => .ok (N.respond e.dryGain)
  | 6 => readOrUnset e.preDelaySamples.l (BitVec.ofNat 32)
  | 7 => readOrUnset e.preDelaySamples.r (BitVec.ofNat 32)
  | 8 => .ok (N.respond (e.comb 0 0).fb)
  | 9 => .ok (N.respond (e.comb 0 0).damp)
  | 10 => .ok (N.respond e.lpCutoff)
  | 11 => readOrUnset e.sampleRate (fun d => d.extractLsb' 0 32)
  | 12 => readOrUnset e.sampleRate (fun d => d.extractLsb' 32 32)
  | 13 => .ok (.word (statusWord e))
  | _ => .error .badRegister

end Sys2Proof.Machine
end

