-- ==== Sys2Proof/Machine/CommandPort.lean ====
section
/-! DEFINITION. The command ports between host and core: which command is next and which words it takes
(spec/30_encoding.md rules R91, R101, R106; spec/20_memory.md rule R69), what a refused command leaves (spec/60_exceptions.md
rules R271, R277), and the host's moves (spec/70_reset_and_hazards.md rule R312). -/

namespace Sys2Proof.Machine

/-- The words waiting on port `p`, in the order sent. -/
def portWords (p : Port) : List (Port × Word) → List Word
  | [] => []
  | (q, w) :: rest => if q = p then w :: portWords p rest else portWords p rest

/-- The queue without the first `k` words of port `p`. -/
def takeWords (p : Port) : Nat → List (Port × Word) → List (Port × Word)
  | 0, queue => queue
  | _ + 1, [] => []
  | k + 1, (q, w) :: rest => if q = p then takeWords p k rest else (q, w) :: takeWords p (k + 1) rest

/-- The command words next on port `p`; none while the command is not whole (R106). -/
def nextFrame (p : Port) (queue : List (Port × Word)) : Option (List Word) := (frame p (portWords p queue)).map (·.1)

/-- The port whose command runs next: among the ports with a whole command waiting, the one whose words reached the head of
the queue first, so that commands run in the order the host issues them (R69) and a port that is still being sent words
delays no other (R285; DESIGN CHOICE, log 3). -/
def nextPort (queue : List (Port × Word)) : Option Port :=
  (queue.map (·.1)).find? fun p => (nextFrame p queue).isSome

/-- The next command: its port and its words. -/
def nextCommand (queue : List (Port × Word)) : Option (Port × List Word) :=
  match nextPort queue with
  | some p =>
    match nextFrame p queue with
    | some ws => some (p, ws)
    | none => none
  | none => none

/-- The queue after the command is taken off its port. -/
def consume (p : Port) (ws : List Word) (queue : List (Port × Word)) : List (Port × Word) := takeWords p ws.length queue

/-- The refusal a decoder verdict stands for (R102, R103). `badFrame` never meets `step`, which decodes whole frames. -/
def refusalOf : DecodeError → Refusal
  | .illegalOpcode => .illegalOpcode
  | .reservedFieldNonzero => .reservedFieldNonzero
  | .badFrame => .illegalOpcode

/-- One step over any carrier: with no whole command in `queue` the core holds its state `wait`; else the next command is
decoded for its port and `run` with the queue its words are taken from, or refused (R69, R271, R286). -/
def stepBy {σ : Type} (queue : List (Port × Word)) (wait : σ)
    (run : Instr → List (Port × Word) → Host.Outcome σ Fault Refusal) : Host.Outcome σ Fault Refusal :=
  match nextCommand queue with
  | none => .next wait
  | some (p, ws) =>
    match decode p ws with
    | .ok i => run i (consume p ws queue)
    | .error e => .refused (refusalOf e)

/-- The queue a refused command leaves: its words are gone from the port (R106: "discards it and takes the next word as a
header", "its operand words are consumed and discarded with it"; DEDUCED for a command refused by value, log 9). -/
def discardNext (queue : List (Port × Word)) : List (Port × Word) :=
  match nextCommand queue with
  | some (p, ws) => consume p ws queue
  | none => queue

/-- The state a refused command leaves to the next one: its words are gone, all else is as it was (R271, R276). -/
def State.discard (s : State) : State := s.withInbox (discardNext s.inbox)

/-- Put the words of a table word at the head of its port, so that they are the next command (see `Step.lean`). -/
def State.placeTableWord (s : State) (nbits w : Nat) : State :=
  s.withInbox ((tableWords nbits w).map (fun x => (tablePort (BitVec.ofNat 32 (w % 2 ^ nbits)), x)) ++ s.inbox)

/-! ## The host's moves at a command boundary (R312) -/

/-- L1: issue a command (or any words) on a port. -/
def State.issue (s : State) (p : Port) (ws : List Word) : State := s.withInbox (s.inbox ++ ws.map fun w => (p, w))

/-- L1 on the parametric machine. -/
def Session.issue {S Q : Type} (s : Session S Q) (p : Port) (ws : List Word) : Session S Q :=
  s.withInbox (s.inbox ++ ws.map fun w => (p, w))

/-- The samples of one channel as memory cells from flat index `at`, zero samples unlisted. -/
def cellsFrom {S : Type} [DecidableEq S] (zero : S) (start : Nat) : List S → Memory S
  | [] => []
  | v :: rest => if v = zero then cellsFrom zero (start + 1) rest else (start, v) :: cellsFrom zero (start + 1) rest

/-- L2, H5: present a host buffer, channel-major (R66): channel 0's samples, then channel 1's. -/
def State.presentBuffer (s : State) (ch0 ch1 : List Word) : State :=
  s.withHb (cellsFrom 0#32 0 (ch0 ++ ch1))

/-- L2, H5 on the parametric machine. -/
def Session.presentBuffer {S Q : Type} [DecidableEq S] (N : Num S) (s : Session S Q) (ch0 ch1 : List S) : Session S Q :=
  s.withHb (cellsFrom N.zero 0 (ch0 ++ ch1))

/-- L4: read the host buffer after a command with `numSamples` samples a channel. -/
def State.bufferSample (s : State) (numSamples c i : Nat) : Word := s.hb.read Num.b32.zero (hbIndex numSamples c i)

/-- L4 on the parametric machine. -/
def Session.bufferSample {S Q : Type} (N : Num S) (s : Session S Q) (numSamples c i : Nat) : S :=
  s.hb.read N.zero (hbIndex numSamples c i)

/-! ## Pseudo-commands (R114, R115) -/

/-- `prepare(sampleRate)`: `ENG.CONFIGURE` with whatever hint the host has. -/
def prepare (sampleRate : DWord) (hint : Int) : List Instr := [.engConfigure sampleRate hint]

/-- Transport reset. -/
def transportReset : List Instr := [.engClear]

/-- `RESTORE dome, idx`: the preset first, so that both persisted values survive (R115). -/
def restore (dome : Word) (idx : Preset) : List Instr := [.engSetPreset idx, .engSetDome dome]

end Sys2Proof.Machine
end

