-- ==== Sys2Proof/Machine/AllPassFilter.lean ====
section
/-! DEFINITION. The commands of a standalone All-Pass Filter (spec/42_allpass_filter.md rules R161 to R165): of the parametric
machine, and of this hardware. -/

namespace Sys2Proof.Machine

variable {S Q : Type} (s : Session S Q)

/-- `AP.CONFIGURE sampleRate, maxDelayMs` (R161). -/
def Session.apConfigure (sr : DWord) (ms : Word) : Outcome S Q :=
  unlessRefused (checkConfigure s.cfg.maxCap sr ms) (s.withAp { s.ap with dl := configureLine sr ms })

/-- `AP.SETDELAY n` (R162). -/
def Session.apSetDelay (n : Int) : Outcome S Q :=
  unlessRefused (checkBuffer s.ap.dl) (s.withAp { s.ap with dl := s.ap.dl.setLength n })

/-- `AP.CLEAR` (R163): never refused. -/
def Session.apClear : Outcome S Q := .next (s.withAp s.ap.clear)

/-- `AP.PROCESS x` (R165). -/
def Session.apProcess [DecidableEq S] (N : Num S) (x : Word) : Outcome S Q :=
  unlessRefused (checkReady s.ap.dl)
    ((s.withAp (s.ap.process N (N.ofBits x)).1).answer .ap (N.respond (s.ap.process N (N.ofBits x)).2))

/-- `AP.SETCOEF c` (R164). -/
def Session.apSetCoef (N : Num S) (c : Word) : Outcome S Q :=
  unlessRefused (checkNotNaN c) (s.withAp { s.ap with g := clampCoef N (N.ofBits c) })

/-! ## On this hardware -/

def execApConfigure (sr : DWord) (ms : Word) (s : State) : Result := s.run fun _ σ => σ.apConfigure sr ms
def execApSetDelay (n : Int) (s : State) : Result := s.run fun _ σ => σ.apSetDelay n
def execApClear (s : State) : Result := s.run fun _ σ => σ.apClear
def execApProcess (x : Word) (s : State) : Result := s.run fun H σ => σ.apProcess H.num x
def execApSetCoef (c : Word) (s : State) : Result := s.run fun H σ => σ.apSetCoef H.num c

end Sys2Proof.Machine
end

