-- ==== Sys2Proof/Machine/CombFilter.lean ====
section
/-! DEFINITION. The commands of a standalone Comb Filter (spec/41_comb_filter.md rules R141 to R146): of the parametric machine,
and of this hardware. -/

namespace Sys2Proof.Machine

variable {S Q : Type} (s : Session S Q)

/-- `COMB.CONFIGURE sampleRate, maxDelayMs` (R141): `DL.CONFIGURE` on the embedded line, `filterStore` zeroed. -/
def Session.combConfigure (N : Num S) (sr : DWord) (ms : Word) : Outcome S Q :=
  unlessRefused (checkConfigure s.cfg.maxCap sr ms)
    (s.withComb { s.comb with dl := configureLine sr ms, filterStore := N.zero })

/-- `COMB.SETDELAY n` (R142). -/
def Session.combSetDelay (n : Int) : Outcome S Q :=
  unlessRefused (checkBuffer s.comb.dl) (s.withComb { s.comb with dl := s.comb.dl.setLength n })

/-- `COMB.CLEAR` (R146): never refused. -/
def Session.combClear (N : Num S) : Outcome S Q := .next (s.withComb (s.comb.clear N))

/-- `COMB.PROCESS x` (R145). -/
def Session.combProcess [DecidableEq S] (N : Num S) (x : Word) : Outcome S Q :=
  unlessRefused (checkReady s.comb.dl)
    ((s.withComb (s.comb.process N (N.ofBits x)).1).answer .comb (N.respond (s.comb.process N (N.ofBits x)).2))

/-- `COMB.SETFB f` (R143). -/
def Session.combSetFb (N : Num S) (f : Word) : Outcome S Q :=
  unlessRefused (checkNotNaN f) (s.withComb { s.comb with fb := clampFb N (N.ofBits f) })

/-- `COMB.SETDAMP d` (R144). -/
def Session.combSetDamp (N : Num S) (d : Word) : Outcome S Q :=
  unlessRefused (checkNotNaN d) (s.withComb { s.comb with damp := clampDamp N (N.ofBits d) })

/-! ## On this hardware -/

def execCombConfigure (sr : DWord) (ms : Word) (s : State) : Result := s.run fun H σ => σ.combConfigure H.num sr ms
def execCombSetDelay (n : Int) (s : State) : Result := s.run fun _ σ => σ.combSetDelay n
def execCombClear (s : State) : Result := s.run fun H σ => σ.combClear H.num
def execCombProcess (x : Word) (s : State) : Result := s.run fun H σ => σ.combProcess H.num x
def execCombSetFb (f : Word) (s : State) : Result := s.run fun H σ => σ.combSetFb H.num f
def execCombSetDamp (d : Word) (s : State) : Result := s.run fun H σ => σ.combSetDamp H.num d

end Sys2Proof.Machine
end

