-- ==== Sys2Proof/Machine/DelayLine.lean ====
section
/-! DEFINITION. The commands of a standalone Delay Line (spec/40_delay_line.md rules R124 to R127): of the parametric machine, and
of this hardware. -/

namespace Sys2Proof.Machine

variable {S Q : Type} (s : Session S Q)

/-- `DL.CONFIGURE sampleRate, maxDelayMs` (R125). -/
def Session.dlConfigure (sr : DWord) (ms : Word) : Outcome S Q :=
  unlessRefused (checkConfigure s.cfg.maxCap sr ms) (s.withDl (configureLine sr ms))

/-- `DL.SETDELAY n` (R124). -/
def Session.dlSetDelay (n : Int) : Outcome S Q := unlessRefused (checkBuffer s.dl) (s.withDl (s.dl.setLength n))

/-- `DL.CLEAR` (R126): never refused. -/
def Session.dlClear : Outcome S Q := .next (s.withDl s.dl.clear)

/-- `DL.TICK x` (R127). -/
def Session.dlTick [DecidableEq S] (N : Num S) (x : Word) : Outcome S Q :=
  unlessRefused (checkReady s.dl)
    ((s.withDl (s.dl.tick N (N.ofBits x)).1).answer .dl (N.respond (s.dl.tick N (N.ofBits x)).2))

/-! ## On this hardware -/

def execDlConfigure (sr : DWord) (ms : Word) (s : State) : Result := s.run fun _ σ => σ.dlConfigure sr ms
def execDlSetDelay (n : Int) (s : State) : Result := s.run fun _ σ => σ.dlSetDelay n
def execDlClear (s : State) : Result := s.run fun _ σ => σ.dlClear
def execDlTick (x : Word) (s : State) : Result := s.run fun H σ => σ.dlTick H.num x

end Sys2Proof.Machine
end

