-- ==== Sys2Proof/Machine/ReverbEngine.lean ====
section
/-! DEFINITION. The commands of the engine, spec/43_reverb_engine.md rules R181 to R184 and spec/44_parameter_mapper.md rules
R232 and R233: of the parametric machine, and of this hardware. -/

namespace Sys2Proof.Machine

variable {S Q : Type} (s : Session S Q) (H : Hardware S Q)

/-- `ENG.CONFIGURE sampleRate, blockSizeHint` (R181). The hint is checked and forgotten (R41). -/
def Session.engConfigure (sr : DWord) (hint : Int) : Outcome S Q :=
  unlessRefused (checkEngConfigure s.cfg sr hint) (s.withEng (s.eng.configure H.num H.bq s.cfg sr))

/-- `ENG.SETDOME amount` (R232). -/
def Session.engSetDome (amount : Word) : Outcome S Q :=
  unlessRefused (checkNotNaN amount) (s.withEng (s.eng.setDome H.num H.bq s.cfg (H.num.ofBits amount)))

/-- `ENG.SETPRESET id` (R233): never refused. -/
def Session.engSetPreset (id : Preset) : Outcome S Q := .next (s.withEng (s.eng.setPreset H.num H.bq s.cfg id))

/-- `ENG.PROCESS numChannels, numSamples` on the host buffer (R183). -/
def Session.engProcess [DecidableEq S] (ch ns : Nat) : Outcome S Q :=
  unlessRefused (firstRefusal [checkChannels ch, checkEngConfigured s.eng])
    ((s.withEng (s.eng.process H.num H.bq ch ns s.hb).1).withHb (s.eng.process H.num H.bq ch ns s.hb).2)

/-- `ENG.CLEAR` (R182): never refused. -/
def Session.engClear : Outcome S Q := .next (s.withEng (s.eng.clear H.num H.bq))

/-- `ENG.GETPARAM r` (R184): one response, no state of the engine changed. -/
def Session.engGetParam (N : Num S) (r : Nat) : Outcome S Q :=
  match readParam N s.eng r with
  | .ok w => .next (s.answer .eng w)
  | .error reason => .refused reason

/-! ## On this hardware -/

def execEngConfigure (sr : DWord) (hint : Int) (s : State) : Result := s.run fun H σ => σ.engConfigure H sr hint
def execEngSetDome (amount : Word) (s : State) : Result := s.run fun H σ => σ.engSetDome H amount
def execEngSetPreset (id : Preset) (s : State) : Result := s.run fun H σ => σ.engSetPreset H id
def execEngProcess (ch ns : Nat) (s : State) : Result := s.run fun H σ => σ.engProcess H ch ns
def execEngClear (s : State) : Result := s.run fun H σ => σ.engClear H
def execEngGetParam (r : Nat) (s : State) : Result := s.run fun H σ => σ.engGetParam H.num r

end Sys2Proof.Machine
end

