-- ==== Sys2Proof/Machine/Dispatch.lean ====
section
/-! DEFINITION. The meaning of every command of spec/30_encoding.md rule R100. -/

namespace Sys2Proof.Machine

def exec (i : Instr) (s : State) : Host.Outcome State Fault Refusal :=
  match i with
  | .dlConfigure sr ms => Sys2Proof.Machine.execDlConfigure sr ms s
  | .dlSetDelay n => Sys2Proof.Machine.execDlSetDelay n s
  | .dlClear => Sys2Proof.Machine.execDlClear s
  | .dlTick x => Sys2Proof.Machine.execDlTick x s
  | .combConfigure sr ms => Sys2Proof.Machine.execCombConfigure sr ms s
  | .combSetDelay n => Sys2Proof.Machine.execCombSetDelay n s
  | .combClear => Sys2Proof.Machine.execCombClear s
  | .combProcess x => Sys2Proof.Machine.execCombProcess x s
  | .combSetFb f => Sys2Proof.Machine.execCombSetFb f s
  | .combSetDamp d => Sys2Proof.Machine.execCombSetDamp d s
  | .apConfigure sr ms => Sys2Proof.Machine.execApConfigure sr ms s
  | .apSetDelay n => Sys2Proof.Machine.execApSetDelay n s
  | .apClear => Sys2Proof.Machine.execApClear s
  | .apProcess x => Sys2Proof.Machine.execApProcess x s
  | .apSetCoef c => Sys2Proof.Machine.execApSetCoef c s
  | .engConfigure sr hint => Sys2Proof.Machine.execEngConfigure sr hint s
  | .engSetDome a => Sys2Proof.Machine.execEngSetDome a s
  | .engSetPreset id => Sys2Proof.Machine.execEngSetPreset id s
  | .engProcess ch ns => Sys2Proof.Machine.execEngProcess ch ns s
  | .engClear => Sys2Proof.Machine.execEngClear s
  | .engGetParam r => Sys2Proof.Machine.execEngGetParam r s

end Sys2Proof.Machine
end

