-- ==== Sys2Proof/Machine/Step.lean ====
section
/-! DEFINITION. One step: the next whole command on the ports is taken, decoded for its port and executed to completion
(spec/20_memory.md rule R69); with none waiting the core holds its state (spec/60_exceptions.md rule R286,
spec/70_reset_and_hazards.md rule R312 L3). -/

namespace Sys2Proof.Machine

/-- One step of the machine. A refusal carries its reason (R271). -/
def step (s : State) : Host.Outcome State Fault Refusal :=
  stepBy s.inbox s fun i queue => exec i (s.withInbox queue)

/-- The state with a command's words, numbered as the opcode table numbers them, placed where `step` takes its next one. -/
def State.withFetchWord (s : State) (nbits w : Nat) : State := s.placeTableWord nbits w

/-- The session goes on (R277: "After a refusal the host may issue any command"): a step, or, where it is refused, the state
without the refused command. -/
def proceed (s : State) : State :=
  match step s with
  | .next t => t
  | .fault _ => s
  | .refused _ => s.discard

/-- Several commands executed in order (R69), up to the first refusal. -/
def execList : List Instr → State → Host.Outcome State Fault Refusal
  | [], s => .next s
  | i :: rest, s =>
    match exec i s with
    | .next t => execList rest t
    | .fault f => .fault f
    | .refused r => .refused r

end Sys2Proof.Machine
end

