-- ==== Sys2Proof/Machine/Parametric.lean ====
section
/-! DEFINITION. The machine over any `NUM` and any `BQ` (spec/00_scope.md rules R7, R12; spec/45_biquad_contract.md rule R250):
every command and a step. Machine/Dispatch.lean and Machine/Step.lean are this machine at the two records of this hardware
(Laws/Parametric.lean proves it). -/

namespace Sys2Proof.Machine

variable {S Q : Type} [DecidableEq S] (H : Hardware S Q)

/-- The meaning of every command (R100). -/
def Session.exec (i : Instr) (s : Session S Q) : Outcome S Q :=
  match i with
  | .dlConfigure sr ms => s.dlConfigure sr ms
  | .dlSetDelay n => s.dlSetDelay n
  | .dlClear => s.dlClear
  | .dlTick x => s.dlTick H.num x
  | .combConfigure sr ms => s.combConfigure H.num sr ms
  | .combSetDelay n => s.combSetDelay n
  | .combClear => s.combClear H.num
  | .combProcess x => s.combProcess H.num x
  | .combSetFb f => s.combSetFb H.num f
  | .combSetDamp d => s.combSetDamp H.num d
  | .apConfigure sr ms => s.apConfigure sr ms
  | .apSetDelay n => s.apSetDelay n
  | .apClear => s.apClear
  | .apProcess x => s.apProcess H.num x
  | .apSetCoef c => s.apSetCoef H.num c
  | .engConfigure sr hint => s.engConfigure H sr hint
  | .engSetDome a => s.engSetDome H a
  | .engSetPreset id => s.engSetPreset H id
  | .engProcess ch ns => s.engProcess H ch ns
  | .engClear => s.engClear H
  | .engGetParam r => s.engGetParam H.num r

/-- One step: the next whole command on the ports (R69). -/
def Session.step (s : Session S Q) : Outcome S Q :=
  stepBy s.inbox s fun i queue => (s.withInbox queue).exec H i

/-- Commands executed in order (R69), up to the first refusal. -/
def Session.execList : List Instr → Session S Q → Outcome S Q
  | [], s => .next s
  | i :: rest, s =>
    match s.exec H i with
    | .next t => Session.execList rest t
    | .fault f => .fault f
    | .refused r => .refused r

end Sys2Proof.Machine
end

