-- ==== Sys2Proof/Safety.lean ====
section
/-! DEFINITION. What claims are stated with: the invariants of spec/10_state.md rules R21, R24, R28, R35, R36, R37 and of the
derived registers (R29), zero memory (R200), and what the commands of a port may touch (R101). -/

namespace Sys2Proof.Machine

/-- `lo ≤ v ≤ hi` in the order of `NUM_B32`; false for a NaN. -/
def inRange (lo v hi : Word) : Bool := F32.le lo v && F32.le v hi

/-- The invariants of a Delay Line of a machine whose largest capacity is `maxCap` (R21, R35(a)), and the canonical form
of its buffer. -/
structure LineInv (maxCap : Nat) (D : DelayLine Word) : Prop where
  capacity : D.cap = 0 ∨ (2 ≤ D.cap ∧ D.cap ≤ maxCap)
  unconfigured : D.cap = 0 → D.w = 0 ∧ D.n = none
  cursor : D.cap ≠ 0 → D.w < D.cap
  length : ∀ k, D.n = some k → 1 ≤ k ∧ k ≤ D.cap - 1
  canonical : D.buf.wf 0#32
  within : D.buf.within D.cap

/-- The invariants of a Comb Filter (R22, R36). -/
structure CombInv (maxCap : Nat) (c : Comb Word) : Prop where
  line : LineInv maxCap c.dl
  feedback : inRange 0#32 c.fb (F32.ofRat 0.99) = true
  damping : inRange 0#32 c.damp (F32.ofRat 1) = true

/-- The invariants of an All-Pass Filter (R23, R36). -/
structure AllPassInv (maxCap : Nat) (a : AllPass Word) : Prop where
  line : LineInv maxCap a.dl
  coefficient : inRange 0#32 a.g (F32.ofRat 0.9) = true

/-- A line as `ENG.CONFIGURE` at rate `sr` leaves it (R181): capacity of its maximum, length of its delay time. -/
def LineAs (maxMs delayMs : Rat) (sr : DWord) (D : DelayLine Word) : Prop :=
  D.cap = (capacityOf maxMs sr).toNat ∧ D.n = some (clampLength (msToSamples delayMs (F64.toRat sr)) D.cap)

/-- What a configured engine's channel holds (R181, R238, R252): every line sized and its length set, every biquad's
coefficients set for this rate. -/
structure ChannelConfigured (cfg : Params Word) (sr : DWord) (e : Engine32) (c : Fin 2) : Prop where
  combs : ∀ k, LineAs ((cfg.combMaxMs.get c).get k) ((cfg.combDelayMs.get c).get k) sr (e.comb c k).dl
  allPasses : ∀ j, LineAs ((cfg.apMaxMs.get c).get j) ((cfg.apDelayMs.get c).get j) sr (e.ap c j).dl
  preCap : (e.pre c).cap = (capacityOf (cfg.preDelayMaxMs.get c) sr).toNat
  preLength : (e.pre c).n = some (preDelayLength Num.b32 e.domeAmount c sr (e.pre c).cap)
  equaliser : ∀ b, (e.eq c b).coef = some (eqCoef cfg sr b)
  toneLP : (e.ch.get c).toneLP.coef = some (toneLpCoef cfg sr e.lpCutoff)
  toneLS : (e.ch.get c).toneLS.coef = some (toneLsCoef cfg sr e.bassBoost)

/-- The invariants of the engine: R24, R28, R29, R35, R36, R37. -/
structure EngineInv (cfg : Params Word) (e : Engine32) : Prop where
  dome : inRange 0#32 e.domeAmount (F32.ofRat 1) = true
  wet : e.wetGain = (mapDerive Num.b32 e.domeAmount).wetGain
  dry : e.dryGain = (mapDerive Num.b32 e.domeAmount).dryGain
  cutoff : e.lpCutoff = (mapDerive Num.b32 e.domeAmount).lpCutoff
  feedback : ∀ c k, (e.comb c k).fb = clampFb Num.b32 (mapDerive Num.b32 e.domeAmount).combFeedback
  damping : ∀ c k, (e.comb c k).damp = clampDamp Num.b32 (mapDerive Num.b32 e.domeAmount).combDamping
  combs : ∀ c k, CombInv cfg.maxCap (e.comb c k)
  allPasses : ∀ c j, AllPassInv cfg.maxCap (e.ap c j)
  preDelays : ∀ c, LineInv cfg.maxCap (e.pre c)
  preDelayRegister : ∀ c, e.preDelaySamples.get c = (e.pre c).n
  flag : e.configured = e.sampleRate.isSome
  rate : ∀ sr, e.sampleRate = some sr → F64.isPositiveFinite sr = true
  idle : e.sampleRate = none → ∀ D ∈ e.lines, D.cap = 0
  sized : ∀ sr, e.sampleRate = some sr → ∀ D ∈ e.lines, D.cap ≠ 0
  configuredAs : ∀ sr, e.sampleRate = some sr → ∀ c, ChannelConfigured cfg sr e c

/-- The invariant of the machine. -/
structure State.Inv (s : State) : Prop where
  parameters : paramsLegal Num.b32 s.cfg = true
  delayLine : LineInv s.cfg.maxCap s.dl
  comb : CombInv s.cfg.maxCap s.comb
  allPass : AllPassInv s.cfg.maxCap s.ap
  engine : EngineInv s.cfg s.eng
  hostBuffer : s.hb.wf 0#32

/-! ## Settings: a unit without its memories and cursors (the frame of `PROCESS` and `CLEAR`, R40, R73) -/

def DelayLine.settings {S : Type} (D : DelayLine S) : DelayLine S := { D with buf := [], w := 0 }

def Comb.settings (c : Comb Word) : Comb Word := { c with dl := c.dl.settings, filterStore := 0#32 }

def AllPass.settings {S : Type} (a : AllPass S) : AllPass S := { a with dl := a.dl.settings }

def Channel.settings (h : Channel32) : Channel32 :=
  { comb := h.comb.map (·.settings), ap := h.ap.map (·.settings), pre := h.pre.settings, eq := h.eq.map (·.reset),
    toneLP := h.toneLP.reset, toneLS := h.toneLS.reset }

/-- Everything of the engine that `PROCESS` and `CLEAR` leave alone: capacities, delay lengths, coefficients, registers. -/
def Engine.settings (e : Engine32) : Engine32 := { e with ch := e.ch.map (·.settings) }

/-- The memories of a unit and its cursor: what the parameter setters leave alone (R73, R235: "filter memories are not
reset"; R130: "never buffer sizes"). -/
def DelayLine.memory {S : Type} (D : DelayLine S) : DelayLine S := { D with n := none }

def Comb.memory (c : Comb Word) : Comb Word := { c with fb := 0#32, damp := 0#32 }

def Biquad.memory {S : Type} (b : Biquad S) : Biquad S := { b with coef := none }

/-- Everything of a channel that `ENG.SETDOME` and `ENG.SETPRESET` leave alone (R238): comb lines and `filterStore`,
all-passes whole, the pre-delay line but its length, the equaliser whole, the tone filters' memories. -/
def Channel.memory (h : Channel32) : Channel32 :=
  { comb := h.comb.map (·.memory), ap := h.ap, pre := h.pre.memory, eq := h.eq, toneLP := h.toneLP.memory,
    toneLS := h.toneLS.memory }

/-- Every sample memory cell of a line is a zero, +0 or -0 (R200: "Under `NUM_B32` "zero" here is +0 or −0"). -/
def LineZero (D : DelayLine Word) : Prop := ∀ i, F32.isZero (D.buf.read 0#32 i) = true

/-- Every memory of a channel is zero (R200). -/
structure ChannelZero (h : Channel32) : Prop where
  combs : ∀ k, LineZero (h.comb.get k).dl ∧ F32.isZero (h.comb.get k).filterStore = true
  allPasses : ∀ j, LineZero (h.ap.get j).dl
  pre : LineZero h.pre
  biquads : ∀ b ∈ h.biquads, b.mem = []

/-- Every memory of the engine is zero (R200). -/
def EngineZero (e : Engine32) : Prop := ∀ c, ChannelZero (e.ch.get c)

/-- Two Delay Lines that differ by a rotation of `r` cells (R33): every future output is the same. -/
def Rotated (r : Nat) (D D' : DelayLine Word) : Prop :=
  D'.cap = D.cap ∧ D'.n = D.n ∧ D'.w = (D.w + r) % D.cap ∧
  ∀ j < D.cap, D'.buf.read 0#32 ((j + r) % D.cap) = D.buf.read 0#32 j

/-! ## Runs -/

/-- A unit's outputs over a list of input samples, in order, and its state after them. -/
def runUnit {σ α β : Type} (f : σ → α → σ × β) : σ → List α → σ × List β
  | u, [] => (u, [])
  | u, x :: rest => ((runUnit f (f u x).1 rest).1, (f u x).2 :: (runUnit f (f u x).1 rest).2)

/-- The host buffers that a sequence of `ENG.PROCESS` commands leaves, each block given as (channel count, sample count,
buffer presented); none if a command is refused. -/
def blockOutputs : List (Nat × Nat × Memory Word) → State → Option (List (Memory Word))
  | [], _ => some []
  | (ch, ns, hb) :: rest, s =>
    match exec (.engProcess ch ns) (s.withHb hb) with
    | .next t => (blockOutputs rest t).map (t.hb :: ·)
    | _ => none

/-! ## What the commands of a Delay Line answer, for each of its three owners

`r` is the command's answer, `D` the owner's line before it, and `put D'` the state after it with `D'` for the owner's line
(R141, R142, R146, R161, R162, R163: the same command on the embedded line). -/

/-- `CONFIGURE` (R125): its four refusals in the order of R275, and the line it leaves. -/
def ConfiguresLine (maxCap : Nat) (sr : DWord) (ms : Word) (r : Result) (put : DelayLine Word → State) : Prop :=
  let c := (F32.toRat ms * F64.toRat sr / 1000).floor
  (F64.isPositiveFinite sr = false → r = .refused .badSampleRate) ∧
  (F64.isPositiveFinite sr = true → (F32.isFinite ms = false ∨ F32.toRat ms ≤ 0) → r = .refused .badMaxDelay) ∧
  (F64.isPositiveFinite sr = true → F32.isFinite ms = true → 0 < F32.toRat ms →
    (c < 2 → r = .refused .capacityTooSmall) ∧
    (2 ≤ c → (maxCap : Int) < c → r = .refused .capacityTooLarge) ∧
    (2 ≤ c → c ≤ maxCap → ∃ D, r = .next (put D) ∧
      (D.cap : Int) = c ∧ (∀ j, D.buf.read 0#32 j = 0#32) ∧ D.w = 0 ∧ D.n = none))

/-- `SETDELAY n` (R124). -/
def SetsLength (D : DelayLine Word) (n : Int) (r : Result) (put : DelayLine Word → State) : Prop :=
  (D.cap = 0 → r = .refused .notConfigured) ∧
  (D.cap ≠ 0 → r = .next (put { D with n := some (max 1 (min n ((D.cap : Int) - 1))).toNat }))

/-- `CLEAR` (R126). -/
def ClearsLine (D : DelayLine Word) (r : Result) (put : DelayLine Word → State) : Prop :=
  ∃ m : Memory Word, r = .next (put { D with buf := m }) ∧ ∀ j, m.read 0#32 j = 0#32

/-! ## Tables of the spec that claims are checked against -/

/-- The opcodes each port class lists (R100, as R102 spells out their complement). -/
def listedOpcode (p : Port) (op : Nat) : Prop :=
  match p with
  | .dl => 0x01 ≤ op ∧ op ≤ 0x04
  | .comb => 0x11 ≤ op ∧ op ≤ 0x16
  | .ap => 0x21 ≤ op ∧ op ≤ 0x25
  | .eng => 0x41 ≤ op ∧ op ≤ 0x46

/-- The length R106 gives a listed opcode. -/
def lengthOfOpcode (op : Nat) : Nat :=
  if op = 0x01 ∨ op = 0x11 ∨ op = 0x21 ∨ op = 0x41 then 4
  else if op = 0x03 ∨ op = 0x13 ∨ op = 0x23 ∨ op = 0x45 ∨ op = 0x43 ∨ op = 0x46 then 1
  else 2

/-- The reserved-field condition of R103 and R272 for a listed opcode. -/
def reservedNonzero (h : Word) : Prop :=
  rsvField h ≠ 0 ∨
    (opField h ≠ 0x43 ∧ opField h ≠ 0x44 ∧ opField h ≠ 0x46 ∧ immField h ≠ 0) ∨
    (opField h = 0x43 ∧ immField h / 4 ≠ 0)

/-- The commands column of R272's table, for the reasons a decoded command can be refused with. -/
def mayRefuse : Instr → Refusal → Prop
  | .dlConfigure _ _, r | .combConfigure _ _, r | .apConfigure _ _, r =>
    r = .badSampleRate ∨ r = .badMaxDelay ∨ r = .capacityTooSmall ∨ r = .capacityTooLarge
  | .engConfigure _ _, r => r = .badSampleRate ∨ r = .badBlockSize ∨ r = .capacityTooSmall ∨ r = .capacityTooLarge
  | .dlSetDelay _, r | .combSetDelay _, r | .apSetDelay _, r => r = .notConfigured
  | .dlTick _, r | .combProcess _, r | .apProcess _, r => r = .notConfigured ∨ r = .delayUnset
  | .engProcess _ _, r => r = .badChannelCount ∨ r = .notConfigured
  | .engGetParam _, r => r = .badRegister ∨ r = .readUnset
  | .combSetFb _, r | .combSetDamp _, r | .apSetCoef _, r | .engSetDome _, r => r = .nanOperand
  | .dlClear, _ | .combClear, _ | .apClear, _ | .engClear, _ | .engSetPreset _, _ => False

/-- The commands that size buffers (R130). -/
def isConfigure : Instr → Bool
  | .dlConfigure _ _ | .combConfigure _ _ | .apConfigure _ _ | .engConfigure _ _ => true
  | .dlSetDelay _ | .dlClear | .dlTick _ => false
  | .combSetDelay _ | .combClear | .combProcess _ | .combSetFb _ | .combSetDamp _ => false
  | .apSetDelay _ | .apClear | .apProcess _ | .apSetCoef _ => false
  | .engSetDome _ | .engSetPreset _ | .engProcess _ _ | .engClear | .engGetParam _ => false

end Sys2Proof.Machine
end

