-- ==== Sys2Proof/Certificates/Slice0/Obligations.lean ====
section
/-! DEFINITION. The statements for the provers. Each docstring names the rules of spec/ it formalises. -/

open Sys2Proof Sys2Proof.Machine

/-! ## Commands and words -/

/-- R91 to R100: no bit of a command is dropped by encoding and decoding it. -/
def Obligations.DecodeOfEncodeIsIdentity : Prop :=
  ∀ i : Instr, i.wellFormed = true → decode i.port (encode i) = .ok i

/-- R91 to R103: words have at most one meaning; a decoded command is well formed, belongs to the port, and its encoding is
the words it was read from. -/
def Obligations.EncodeOfDecodeIsIdentity : Prop :=
  ∀ (p : Port) (ws : List Word) (i : Instr), decode p ws = .ok i →
    i.port = p ∧ i.wellFormed = true ∧ encode i = ws

/-- The example words of R113 decode to the commands they stand for. -/
def Obligations.ExampleWordsDecode : Prop :=
  decode .dl [0x01000000#32, 0x00000000#32, 0x408F4000#32, 0x40800000#32] =
      .ok (.dlConfigure 0x408F400000000000#64 0x40800000#32) ∧
    decode .dl [0x02000000#32, 0xFFFFFFFD#32] = .ok (.dlSetDelay (-3)) ∧
    decode .dl [0x04000000#32, 0x3F800000#32] = .ok (.dlTick 0x3F800000#32) ∧
    decode .comb [0x15000000#32, 0x3F000000#32] = .ok (.combSetFb 0x3F000000#32) ∧
    decode .ap [0x25000000#32, 0x3F666666#32] = .ok (.apSetCoef 0x3F666666#32) ∧
    decode .eng [0x41000000#32, 0x00000000#32, 0x40E58880#32, 0x00000200#32] =
      .ok (.engConfigure 0x40E5888000000000#64 512) ∧
    decode .eng [0x42000000#32, 0x3F19999A#32] = .ok (.engSetDome 0x3F19999A#32) ∧
    decode .eng [0x43000003#32] = .ok (.engSetPreset .club) ∧
    decode .eng [0x44000002#32, 0x00000010#32] = .ok (.engProcess 2 16) ∧
    decode .eng [0x45000000#32] = .ok .engClear ∧
    decode .eng [0x46000002#32] = .ok (.engGetParam 2)

/-- R106: the length of a command is a function of `op` alone; one word when the port does not list it. -/
def Obligations.CommandLengthIsThatOfTheOpcode : Prop :=
  ∀ (p : Port) (h : Word),
    (listedOpcode p (opField h) → commandWords p h = lengthOfOpcode (opField h)) ∧
    (¬ listedOpcode p (opField h) → commandWords p h = 1)

/-- R102, R106: an opcode the port does not list is refused `IllegalOpcode`, and the decoder discards the header and takes the
next word as a header. The queue `inbox` and `discard` are the model's (logs 3 and 9). -/
def Obligations.UnlistedOpcodeIsRefusedAndDiscarded : Prop :=
  ∀ (s : State) (p : Port) (h : Word) (rest : List (Port × Word)),
    s.inbox = (p, h) :: rest → ¬ listedOpcode p (opField h) →
      step s = .refused .illegalOpcode ∧ s.discard = { s with inbox := rest }

/-- R103, R106: a listed opcode with a nonzero reserved field is refused `ReservedFieldNonzero`, and its operand words are
consumed and discarded with it. The queue `inbox` and `discard` are the model's (logs 3 and 9). -/
def Obligations.ReservedFieldIsRefusedAndDiscarded : Prop :=
  ∀ (s : State) (p : Port) (h : Word) (ops : List Word) (rest : List (Port × Word)),
    s.inbox = (p, h) :: (ops.map (fun w => (p, w)) ++ rest) → listedOpcode p (opField h) →
    ops.length + 1 = lengthOfOpcode (opField h) → reservedNonzero h →
      step s = .refused .reservedFieldNonzero ∧ s.discard = { s with inbox := rest }

/-- R69, R106: the command whose words stand first on the ports is the one that runs, and only its words are taken. The queue
of words is the model's (log 3). -/
def Obligations.FirstCommandOnThePortsRuns : Prop :=
  ∀ (s : State) (i : Instr) (rest : List (Port × Word)), i.wellFormed = true →
    s.inbox = (encode i).map (fun w => (i.port, w)) ++ rest → step s = exec i { s with inbox := rest }

/-- R69: a step runs the decoded command. What `step` adds around `exec` is taking the command's words off its port: the
model's choice (log 3). -/
def Obligations.StepRunsTheDecodedCommand : Prop :=
  ∀ (s : State) (p : Port) (ws : List Word) (i : Instr),
    nextCommand s.inbox = some (p, ws) → decode p ws = .ok i →
      step s = exec i { s with inbox := consume p ws s.inbox }

/-- R271, R276, R277: a refused command leaves every register, buffer and host cell as it was and answers nothing; the session
goes on without its words. That the words are gone is the model's reading of R106 (log 9). -/
def Obligations.RefusedCommandLeavesTheState : Prop :=
  ∀ (s : State) (r : Refusal), step s = .refused r →
    ∃ p ws, nextCommand s.inbox = some (p, ws) ∧ proceed s = { s with inbox := consume p ws s.inbox }

/-- R286, R312 L3: with no whole command waiting the core holds its state. That such a step is a step is the model's choice
(log 10). -/
def Obligations.IdleCoreHoldsItsState : Prop :=
  ∀ s : State, (∀ p, nextFrame p s.inbox = none) → step s = .next s

/-! ## The Delay Line -/

/-- R125: `DL.CONFIGURE` sizes and zeroes the buffer, resets the cursor and unsets the length; its four refusals in their
order (R275); nothing outside the line changes. -/
def Obligations.DlConfigureSizesAndZeroesTheLine : Prop :=
  ∀ (sr : DWord) (ms : Word) (s : State),
    ConfiguresLine s.cfg.maxCap sr ms (exec (.dlConfigure sr ms) s) fun D => { s with dl := D }

/-- R124: `DL.SETDELAY` clamps into [1, cap − 1], touches neither buffer nor cursor, and needs a buffer. -/
def Obligations.DlSetDelayClampsTheLength : Prop :=
  ∀ (n : Int) (s : State), SetsLength s.dl n (exec (.dlSetDelay n) s) fun D => { s with dl := D }

/-- R126: `DL.CLEAR` zeroes every cell and leaves capacity, cursor and length; never refused. -/
def Obligations.DlClearZeroesTheBuffer : Prop :=
  ∀ s : State, ClearsLine s.dl (exec .dlClear s) fun D => { s with dl := D }

/-- R121, R122, R123, R127: `DL.TICK` answers the cell `n` behind the cursor, stores the input at the cursor, leaves every
other cell, and advances the cursor; its two refusals. -/
def Obligations.DlTickReadsThenWritesThenAdvances : Prop :=
  ∀ (x : Word) (s : State), LineInv s.cfg.maxCap s.dl →
    (s.dl.cap = 0 → exec (.dlTick x) s = .refused .notConfigured) ∧
    (s.dl.cap ≠ 0 → s.dl.n = none → exec (.dlTick x) s = .refused .delayUnset) ∧
    (∀ n, s.dl.n = some n → ∃ t, exec (.dlTick x) s = .next t ∧
      t.responses = s.responses ++ [(.dl, .word (s.dl.buf.read 0#32 ((s.dl.w + s.dl.cap - n) % s.dl.cap)))] ∧
      t.dl.buf.read 0#32 s.dl.w = x ∧
      (∀ j, j ≠ s.dl.w → t.dl.buf.read 0#32 j = s.dl.buf.read 0#32 j) ∧
      t.dl.w = (if s.dl.w = s.dl.cap - 1 then 0 else s.dl.w + 1) ∧
      t = { s with dl := { s.dl with buf := t.dl.buf, w := t.dl.w }, responses := t.responses })

/-- R128: after a clear, the cell `k` behind the cursor holds the `k`-th most recent stored value, or zero if there have been
fewer, whatever `SETDELAY` commands were interleaved. -/
def Obligations.BufferHoldsTheLatestWrites : Prop :=
  ∀ (s : State) (cmds : List Instr), LineInv s.cfg.maxCap s.dl → s.dl.buf = [] → (∃ n, s.dl.n = some n) →
    (∀ i ∈ cmds, (∃ x, i = .dlTick x) ∨ ∃ n, i = .dlSetDelay n) →
      ∃ t, execList cmds s = .next t ∧
        let stored := cmds.filterMap fun i => match i with | .dlTick x => some x | _ => none
        ∀ k, 1 ≤ k → k ≤ t.dl.cap →
          t.dl.buf.read 0#32 ((t.dl.w + t.dl.cap - k) % t.dl.cap) = (stored.reverse.getD (k - 1) 0#32)

/-- R129: from a cleared line with length `n`, the responses are the inputs delayed by exactly `n` samples. -/
def Obligations.CleanLineDelaysByItsLength : Prop :=
  ∀ (s : State) (n : Nat) (xs : List Word), LineInv s.cfg.maxCap s.dl → s.dl.buf = [] → s.dl.n = some n →
    ∃ t, execList (xs.map .dlTick) s = .next t ∧
      t.responses = s.responses ++ ((List.replicate n 0#32 ++ xs).take xs.length).map fun y => (.dl, .word y)

/-- R33: Delay Lines that differ by a rotation answer alike and stay so. -/
def Obligations.RotationOfALineIsUnobservable : Prop :=
  ∀ (maxCap r : Nat) (D D' : DelayLine Word) (x : Word), LineInv maxCap D → LineInv maxCap D' → D.n ≠ none →
    Rotated r D D' → (D'.tick Num.b32 x).2 = (D.tick Num.b32 x).2 ∧
      Rotated r (D.tick Num.b32 x).1 (D'.tick Num.b32 x).1

/-! ## The Comb Filter -/

/-- R141, R142, R146: `COMB.CONFIGURE` is `DL.CONFIGURE` on the embedded line and zeroes `filterStore`; `COMB.SETDELAY` is
`DL.SETDELAY` on it; `COMB.CLEAR` is `DL.CLEAR` on it and zeroes `filterStore`; nothing else changes. -/
def Obligations.CombForwardsToItsLine : Prop :=
  ∀ s : State,
    (∀ sr ms, ConfiguresLine s.cfg.maxCap sr ms (exec (.combConfigure sr ms) s)
      fun D => { s with comb := { s.comb with dl := D, filterStore := 0#32 } }) ∧
    (∀ n, SetsLength s.comb.dl n (exec (.combSetDelay n) s) fun D => { s with comb := { s.comb with dl := D } }) ∧
    ClearsLine s.comb.dl (exec .combClear s) fun D => { s with comb := { s.comb with dl := D, filterStore := 0#32 } }

/-- R143: `COMB.SETFB` clamps into [0, 0.99], refuses only a NaN, and changes nothing else. -/
def Obligations.CombSetFbClamps : Prop :=
  ∀ (f : Word) (s : State),
    (F32.isNaN f = true → exec (.combSetFb f) s = .refused .nanOperand) ∧
    (F32.isNaN f = false → ∃ v, exec (.combSetFb f) s = .next { s with comb := { s.comb with fb := v } } ∧
      (F32.lt f 0#32 = true → F32.isZero v = true) ∧
      (F32.lt 0x3F7D70A4#32 f = true → v = 0x3F7D70A4#32) ∧
      (F32.le 0#32 f = true → F32.le f 0x3F7D70A4#32 = true → v = f ∨ (F32.isZero f = true ∧ F32.isZero v = true)))

/-- R144: `COMB.SETDAMP` clamps into [0, 1], refuses only a NaN, and changes nothing else. -/
def Obligations.CombSetDampClamps : Prop :=
  ∀ (d : Word) (s : State),
    (F32.isNaN d = true → exec (.combSetDamp d) s = .refused .nanOperand) ∧
    (F32.isNaN d = false → ∃ v, exec (.combSetDamp d) s = .next { s with comb := { s.comb with damp := v } } ∧
      (F32.lt d 0#32 = true → F32.isZero v = true) ∧
      (F32.lt 0x3F800000#32 d = true → v = 0x3F800000#32) ∧
      (F32.le 0#32 d = true → F32.le d 0x3F800000#32 = true → v = d ∨ (F32.isZero d = true ∧ F32.isZero v = true)))

/-- R145: the five steps of `COMB.PROCESS`, in order: the delayed value is read first and answered, `filterStore` is updated,
the NEW `filterStore` is fed back into the stored value, the cursor advances; its two refusals. -/
def Obligations.CombProcessFollowsItsSteps : Prop :=
  ∀ (x : Word) (s : State), LineInv s.cfg.maxCap s.comb.dl →
    (s.comb.dl.cap = 0 → exec (.combProcess x) s = .refused .notConfigured) ∧
    (s.comb.dl.cap ≠ 0 → s.comb.dl.n = none → exec (.combProcess x) s = .refused .delayUnset) ∧
    (∀ n, s.comb.dl.n = some n →
      let D := s.comb.dl
      let delayed := D.buf.read 0#32 ((D.w + D.cap - n) % D.cap)
      let store := F32.add (F32.mul delayed (F32.sub 0x3F800000#32 s.comb.damp)) (F32.mul s.comb.filterStore s.comb.damp)
      ∃ t, exec (.combProcess x) s = .next t ∧
        t.responses = s.responses ++ [(.comb, .word delayed)] ∧
        t.comb.filterStore = store ∧
        t.comb.dl.buf.read 0#32 D.w = F32.add x (F32.mul store s.comb.fb) ∧
        (∀ j, j ≠ D.w → t.comb.dl.buf.read 0#32 j = D.buf.read 0#32 j) ∧
        t.comb.dl.w = (if D.w = D.cap - 1 then 0 else D.w + 1) ∧
        t = { s with
          comb := { s.comb with dl := { D with buf := t.comb.dl.buf, w := t.comb.dl.w }, filterStore := t.comb.filterStore }
          responses := t.responses })

/-- R148(b), (c): with `damp` = +0 the new `filterStore` is exactly the delayed value (for a finite old one and a delayed value
that is finite and not zero); with `damp` = 1 a finite delayed value leaves a nonzero finite `filterStore` as it was. -/
def Obligations.CombDampingEndPoints : Prop :=
  ∀ (c : Comb Word) (delayed : Word), F32.isFinite delayed = true → F32.isFinite c.filterStore = true →
    (c.damp = 0#32 → F32.isZero delayed = false → c.nextStore Num.b32 delayed = delayed) ∧
    (c.damp = 0x3F800000#32 → F32.isZero c.filterStore = false → c.nextStore Num.b32 delayed = c.filterStore)

/-- R149: under `NUM_IDEAL` a comb with loop gain below one is bounded: inputs within `X` give outputs within `X / (1 − fb)`,
from cleared memory. -/
def Obligations.IdealCombIsBounded : Prop :=
  ∀ (c : Comb Rat) (n : Nat) (X : Rat) (xs : List Rat),
    2 ≤ c.dl.cap → c.dl.w < c.dl.cap → c.dl.n = some n → 1 ≤ n → n ≤ c.dl.cap - 1 → c.dl.buf = [] → c.filterStore = 0 →
    0 ≤ c.fb → c.fb < 1 → 0 ≤ c.damp → c.damp ≤ 1 → (∀ x ∈ xs, |x| ≤ X) →
      ∀ y ∈ (runUnit (Comb.process Num.ideal) c xs).2, |y| ≤ X / (1 - c.fb)

/-! ## The All-Pass Filter -/

/-- R161, R162, R163: `AP.CONFIGURE`, `AP.SETDELAY` and `AP.CLEAR` are the Delay Line's commands on the embedded line and
nothing else. -/
def Obligations.AllPassForwardsToItsLine : Prop :=
  ∀ s : State,
    (∀ sr ms, ConfiguresLine s.cfg.maxCap sr ms (exec (.apConfigure sr ms) s)
      fun D => { s with ap := { s.ap with dl := D } }) ∧
    (∀ n, SetsLength s.ap.dl n (exec (.apSetDelay n) s) fun D => { s with ap := { s.ap with dl := D } }) ∧
    ClearsLine s.ap.dl (exec .apClear s) fun D => { s with ap := { s.ap with dl := D } }

/-- R164: `AP.SETCOEF` clamps into [0, 0.9], refuses only a NaN, and changes nothing else. -/
def Obligations.AllPassSetCoefClamps : Prop :=
  ∀ (c : Word) (s : State),
    (F32.isNaN c = true → exec (.apSetCoef c) s = .refused .nanOperand) ∧
    (F32.isNaN c = false → ∃ v, exec (.apSetCoef c) s = .next { s with ap := { s.ap with g := v } } ∧
      (F32.lt c 0#32 = true → F32.isZero v = true) ∧
      (F32.lt 0x3F666666#32 c = true → v = 0x3F666666#32) ∧
      (F32.le 0#32 c = true → F32.le c 0x3F666666#32 = true → v = c ∨ (F32.isZero c = true ∧ F32.isZero v = true)))

/-- R165: the four steps of `AP.PROCESS`, in order: `delayed` is read before being overwritten and feeds both the output and
the stored value; its two refusals. -/
def Obligations.AllPassProcessFollowsItsSteps : Prop :=
  ∀ (x : Word) (s : State), LineInv s.cfg.maxCap s.ap.dl →
    (s.ap.dl.cap = 0 → exec (.apProcess x) s = .refused .notConfigured) ∧
    (s.ap.dl.cap ≠ 0 → s.ap.dl.n = none → exec (.apProcess x) s = .refused .delayUnset) ∧
    (∀ n, s.ap.dl.n = some n →
      let D := s.ap.dl
      let delayed := D.buf.read 0#32 ((D.w + D.cap - n) % D.cap)
      ∃ t, exec (.apProcess x) s = .next t ∧
        t.responses = s.responses ++ [(.ap, .word (F32.add (F32.neg (F32.mul s.ap.g x)) delayed))] ∧
        t.ap.dl.buf.read 0#32 D.w = F32.add x (F32.mul s.ap.g delayed) ∧
        (∀ j, j ≠ D.w → t.ap.dl.buf.read 0#32 j = D.buf.read 0#32 j) ∧
        t.ap.dl.w = (if D.w = D.cap - 1 then 0 else D.w + 1) ∧
        t = { s with
          ap := { s.ap with dl := { D with buf := t.ap.dl.buf, w := t.ap.dl.w } }
          responses := t.responses })

/-- R170: the impulse response of the all-pass steps under `NUM_IDEAL`: `−g`, then `g^(k−1)` at lag `k·n`, 0 elsewhere (so not
the unity-gain response C1 warns of). -/
def Obligations.IdealAllPassImpulseResponse : Prop :=
  ∀ (a : AllPass Rat) (n m : Nat), 2 ≤ a.dl.cap → a.dl.w < a.dl.cap → a.dl.n = some n → 1 ≤ n → n ≤ a.dl.cap - 1 →
    a.dl.buf = [] →
      ∀ t, t ≤ m → (runUnit (AllPass.process Num.ideal) a (1 :: List.replicate m 0)).2.getD t 0 =
        if t = 0 then -a.g else if t % n = 0 then a.g ^ (t / n - 1) else 0

/-! ## The engine: configuration, clearing, parameters -/

/-- R181, R39: what a successful `ENG.CONFIGURE` leaves: rate and flag set, every line sized and zeroed with its length set,
every filter memory zero, the seven equaliser bands of both channels at the rows of R256 (the gain of R258 kept in decibels,
log 11) and the tone filters at those of R257, the derived registers recomputed, the four parameter registers and every `g`
kept; nothing outside the engine touched. -/
def Obligations.EngConfigureBuildsTheEngine : Prop :=
  ∀ (s : State) (sr : DWord) (hint : Int), F64.isPositiveFinite sr = true → 1 ≤ hint →
    (∀ m ∈ lineMaxima s.cfg, 2 ≤ (m * F64.toRat sr / 1000).floor ∧ (m * F64.toRat sr / 1000).floor ≤ s.cfg.maxCap) →
      ∃ e, exec (.engConfigure sr hint) s = .next { s with eng := e } ∧
        e.sampleRate = some sr ∧ e.configured = true ∧
        e.domeAmount = s.eng.domeAmount ∧ e.preset = s.eng.preset ∧ e.stereoWidth = s.eng.stereoWidth ∧
        e.bassBoost = s.eng.bassBoost ∧
        e.wetGain = (mapDerive Num.b32 s.eng.domeAmount).wetGain ∧
        e.dryGain = (mapDerive Num.b32 s.eng.domeAmount).dryGain ∧
        e.lpCutoff = (mapDerive Num.b32 s.eng.domeAmount).lpCutoff ∧
        (∀ c, ChannelConfigured s.cfg sr e c) ∧
        (∀ c, (e.eq c 0).coef = some ⟨sr, .lowshelf, .exact 50, .exact s.cfg.eqQ.b0, .dbToLin 1⟩ ∧
          (e.eq c 1).coef = some ⟨sr, .peaking, .exact 100, .exact s.cfg.eqQ.b1, .dbToLin (-1)⟩ ∧
          (e.eq c 2).coef = some ⟨sr, .peaking, .exact 200, .exact s.cfg.eqQ.b2, .dbToLin (-3)⟩ ∧
          (e.eq c 3).coef = some ⟨sr, .peaking, .exact 400, .exact s.cfg.eqQ.b3, .dbToLin (-4)⟩ ∧
          (e.eq c 4).coef = some ⟨sr, .peaking, .exact 1000, .exact s.cfg.eqQ.b4, .dbToLin 2⟩ ∧
          (e.eq c 5).coef = some ⟨sr, .peaking, .exact 4000, .exact s.cfg.eqQ.b5, .dbToLin 6⟩ ∧
          (e.eq c 6).coef = some ⟨sr, .lowpass, .exact 10000, .exact s.cfg.eqQ.b6, .exact 1⟩ ∧
          (e.ch.get c).toneLP.coef = some ⟨sr, .lowpass, .sample e.lpCutoff, .exact s.cfg.toneLpQ, .exact 1⟩ ∧
          (e.ch.get c).toneLS.coef =
            some ⟨sr, .lowshelf, .exact s.cfg.bassShelfHz, .exact s.cfg.bassShelfQ, .sample e.bassBoost⟩) ∧
        (∀ c, e.preDelaySamples.get c = (e.pre c).n) ∧
        (∀ D ∈ e.lines, D.w = 0 ∧ ∀ j, D.buf.read 0#32 j = 0#32) ∧
        (∀ c k, (e.comb c k).filterStore = 0#32) ∧
        (∀ c, ∀ b ∈ (e.ch.get c).biquads, b.mem = []) ∧
        (∀ c j, (e.ap c j).g = (s.eng.ap c j).g) ∧
        (∀ c k, (e.comb c k).fb = clampFb Num.b32 (mapDerive Num.b32 s.eng.domeAmount).combFeedback ∧
          (e.comb c k).damp = clampDamp Num.b32 (mapDerive Num.b32 s.eng.domeAmount).combDamping)

/-- R181, R275, R280: `ENG.CONFIGURE` refuses a bad rate first, then a bad hint, then the first line (in R275's order) whose
capacity is out of range, with that line's reason; a refusal changes nothing. -/
def Obligations.EngConfigureRefusesInOrder : Prop :=
  ∀ (s : State) (sr : DWord) (hint : Int),
    (F64.isPositiveFinite sr = false → exec (.engConfigure sr hint) s = .refused .badSampleRate) ∧
    (F64.isPositiveFinite sr = true → hint < 1 → exec (.engConfigure sr hint) s = .refused .badBlockSize) ∧
    (F64.isPositiveFinite sr = true → 1 ≤ hint →
      ∀ (before : List Rat) (m : Rat) (after : List Rat), lineMaxima s.cfg = before ++ m :: after →
        (∀ q ∈ before, 2 ≤ (q * F64.toRat sr / 1000).floor ∧ (q * F64.toRat sr / 1000).floor ≤ s.cfg.maxCap) →
        ((m * F64.toRat sr / 1000).floor < 2 → exec (.engConfigure sr hint) s = .refused .capacityTooSmall) ∧
        (2 ≤ (m * F64.toRat sr / 1000).floor → (s.cfg.maxCap : Int) < (m * F64.toRat sr / 1000).floor →
          exec (.engConfigure sr hint) s = .refused .capacityTooLarge))

/-- R205: `ENG.CONFIGURE` issued twice leaves the state the first left. For the 18 biquads this rests on BQ-SETCOEF-PURE and
BQ-RESET of R254, which the machine `State` describes has built in (the model's choice, log 8: unsafe for a library that lacks
them). -/
def Obligations.EngConfigureIsIdempotent : Prop :=
  ∀ (s t : State) (sr : DWord) (h h' : Int), 1 ≤ h' →
    exec (.engConfigure sr h) s = .next t → exec (.engConfigure sr h') t = .next t

/-- R182, R40: `ENG.CLEAR` zeroes every delay buffer, every `filterStore` and every biquad memory; capacities, lengths,
cursors, coefficients and registers are unchanged; never refused. -/
def Obligations.EngClearZeroesMemoriesOnly : Prop :=
  ∀ s : State, ∃ e, exec .engClear s = .next { s with eng := e } ∧
    e.settings = s.eng.settings ∧
    (∀ D ∈ e.lines, ∀ j, D.buf.read 0#32 j = 0#32) ∧
    e.lines.map (·.w) = s.eng.lines.map (·.w) ∧
    (∀ c k, (e.comb c k).filterStore = 0#32) ∧
    (∀ c, ∀ b ∈ (e.ch.get c).biquads, b.mem = [])

/-- R232, R238, R73: `ENG.SETDOME` clamps and stores the amount and re-derives everything that depends on it, at once; preset,
width, bass, every memory, every capacity and every `g` are unchanged; refused only on a NaN. -/
def Obligations.EngSetDomeRederives : Prop :=
  ∀ (a : Word) (s : State),
    (F32.isNaN a = true → exec (.engSetDome a) s = .refused .nanOperand) ∧
    (F32.isNaN a = false → ∃ e, exec (.engSetDome a) s = .next { s with eng := e } ∧
      (F32.lt a 0#32 = true → F32.isZero e.domeAmount = true) ∧
      (F32.lt 0x3F800000#32 a = true → e.domeAmount = 0x3F800000#32) ∧
      (F32.le 0#32 a = true → F32.le a 0x3F800000#32 = true →
        e.domeAmount = a ∨ (F32.isZero a = true ∧ F32.isZero e.domeAmount = true)) ∧
      e.wetGain = F32.mul e.domeAmount 0x3F19999A#32 ∧
      e.dryGain = F32.sub 0x3F800000#32 (F32.mul e.domeAmount 0x3E99999A#32) ∧
      e.lpCutoff = F32.sub 0x461C4000#32 (F32.mul e.domeAmount 0x459C4000#32) ∧
      (∀ c k, (e.comb c k).fb = clampFb Num.b32 (F32.add 0x3F400000#32 (F32.mul e.domeAmount 0x3DF5C28F#32))) ∧
      (∀ c k, (e.comb c k).damp = clampDamp Num.b32 (F32.add 0x3E19999A#32 (F32.mul e.domeAmount 0x3EB33333#32))) ∧
      (∀ c, (e.ch.get c).memory = (s.eng.ch.get c).memory) ∧
      e.preset = s.eng.preset ∧ e.stereoWidth = s.eng.stereoWidth ∧ e.bassBoost = s.eng.bassBoost ∧
      e.sampleRate = s.eng.sampleRate ∧ e.configured = s.eng.configured)

/-- R225, R226, R238: while configured at rate `sr`, both parameter commands set each pre-delay length to the exact product of
the stored `domeAmount`, 25 or 30 milliseconds and the rate, floored and clamped into [1, cap − 1], in register and line alike,
and hand the new cutoff and bass gain to the tone filters; while not configured they leave the lengths and the tone filters
alone. -/
def Obligations.ParameterCommandsSetPreDelays : Prop :=
  ∀ (s t : State) (i : Instr), ((∃ a, i = .engSetDome a) ∨ ∃ id, i = .engSetPreset id) → exec i s = .next t →
    (∀ sr, s.eng.configured = true → s.eng.sampleRate = some sr → ∀ c,
      (t.eng.pre c).n = some (max 1 (min
        (F32.toRat t.eng.domeAmount * (if c = 0 then 25 else 30) * F64.toRat sr / 1000).floor
        (((s.eng.pre c).cap : Int) - 1))).toNat ∧
      t.eng.preDelaySamples.get c = (t.eng.pre c).n ∧
      (t.eng.ch.get c).toneLP.coef =
        some ⟨sr, .lowpass, .sample t.eng.lpCutoff, .exact s.cfg.toneLpQ, .exact 1⟩ ∧
      (t.eng.ch.get c).toneLS.coef =
        some ⟨sr, .lowshelf, .exact s.cfg.bassShelfHz, .exact s.cfg.bassShelfQ, .sample t.eng.bassBoost⟩) ∧
    (s.eng.configured = false → t.eng.preDelaySamples = s.eng.preDelaySamples ∧ ∀ c,
      (t.eng.pre c).n = (s.eng.pre c).n ∧ (t.eng.ch.get c).toneLP = (s.eng.ch.get c).toneLP ∧
      (t.eng.ch.get c).toneLS = (s.eng.ch.get c).toneLS)

/-- R230, R233: `ENG.SETPRESET` stores the identity and the three table values at once and re-derives as `ENG.SETDOME` does;
no memory is reset; never refused. -/
def Obligations.EngSetPresetLoadsItsRow : Prop :=
  ∀ (id : Preset) (s : State), ∃ e, exec (.engSetPreset id) s = .next { s with eng := e } ∧
    e.preset = id ∧
    (e.domeAmount, e.stereoWidth, e.bassBoost) =
      (match id with
        | .arena => (0x3F19999A#32, 0x3F4CCCCD#32, 0x3FC00000#32)
        | .stadium => (0x3F4CCCCD#32, 0x3F800000#32, 0x3FE66666#32)
        | .hall => (0x3ECCCCCD#32, 0x3F19999A#32, 0x3F99999A#32)
        | .club => (0x3E800000#32, 0x3F000000#32, 0x40000000#32)) ∧
    (e.wetGain, e.dryGain, e.lpCutoff) =
      (match id with
        | .arena => (0x3EB851EC#32, 0x3F51EB85#32, 0x45DAC000#32)
        | .stadium => (0x3EF5C290#32, 0x3F428F5C#32, 0x45BB8000#32)
        | .hall => (0x3E75C290#32, 0x3F6147AE#32, 0x45FA0000#32)
        | .club => (0x3E19999A#32, 0x3F6CCCCD#32, 0x4608B800#32)) ∧
    (∀ c k, ((e.comb c k).fb, (e.comb c k).damp) =
      (match id with
        | .arena => (0x3F526E98#32, 0x3EB851EC#32)
        | .stadium => (0x3F589375#32, 0x3EDC28F6#32)
        | .hall => (0x3F4C49BA#32, 0x3E947AE2#32)
        | .club => (0x3F47AE14#32, 0x3E733334#32))) ∧
    (∀ c, (e.ch.get c).memory = (s.eng.ch.get c).memory) ∧
    e.sampleRate = s.eng.sampleRate ∧ e.configured = s.eng.configured

/-- R234, R36, R29: for every legal `domeAmount` the derived feedback lies in [0.75, 0.87], damping in [0.15, 0.50], wet gain in
[0, 0.6], dry gain in [0.7, 1] and cutoff in [5000, 10000], as binary32 rounds these bounds. -/
def Obligations.DerivedCoefficientsAreBounded : Prop :=
  ∀ a : Word, inRange 0#32 a 0x3F800000#32 = true →
    inRange 0x3F400000#32 (mapDerive Num.b32 a).combFeedback 0x3F5EB852#32 = true ∧
    inRange 0x3E19999A#32 (mapDerive Num.b32 a).combDamping 0x3F000000#32 = true ∧
    inRange 0#32 (mapDerive Num.b32 a).wetGain 0x3F19999A#32 = true ∧
    inRange 0x3F333333#32 (mapDerive Num.b32 a).dryGain 0x3F800000#32 = true ∧
    inRange 0x459C4000#32 (mapDerive Num.b32 a).lpCutoff 0x461C4000#32 = true

/-- R184, R30: the read-back: each register's word, `ReadUnset` while unset, `BadRegister` from 14 on; no state of the engine
changes. Under `NUM_IDEAL`, with any biquad, a sample register answers the rational itself. -/
def Obligations.EngGetParamReadsItsRegister : Prop :=
  ∀ s : State,
    let e := s.eng
    let answers := fun (r : Nat) (w : Word) =>
      exec (.engGetParam r) s = .next { s with responses := s.responses ++ [(.eng, .word w)] }
    answers 0 e.domeAmount ∧ answers 1 (BitVec.ofNat 32 e.preset.index) ∧ answers 2 e.stereoWidth ∧
    answers 3 e.bassBoost ∧ answers 4 e.wetGain ∧ answers 5 e.dryGain ∧
    (∀ n, e.preDelaySamples.get 0 = some n → answers 6 (BitVec.ofNat 32 n)) ∧
    (∀ n, e.preDelaySamples.get 1 = some n → answers 7 (BitVec.ofNat 32 n)) ∧
    answers 8 (e.comb 0 0).fb ∧ answers 9 (e.comb 0 0).damp ∧ answers 10 e.lpCutoff ∧
    (∀ d, e.sampleRate = some d → answers 11 (d.setWidth 32) ∧ answers 12 ((d >>> 32).setWidth 32)) ∧
    answers 13 (if e.configured then 1#32 else 0#32) ∧
    (e.preDelaySamples.get 0 = none → exec (.engGetParam 6) s = .refused .readUnset) ∧
    (e.preDelaySamples.get 1 = none → exec (.engGetParam 7) s = .refused .readUnset) ∧
    (e.sampleRate = none → exec (.engGetParam 11) s = .refused .readUnset ∧ exec (.engGetParam 12) s = .refused .readUnset) ∧
    (∀ r, 14 ≤ r → exec (.engGetParam r) s = .refused .badRegister) ∧
    ∀ (Q : Type) (B : BQ Rat Q) (u : Session Rat Q), ∀ q ∈ [(0, u.eng.domeAmount), (2, u.eng.stereoWidth),
        (3, u.eng.bassBoost), (4, u.eng.wetGain), (5, u.eng.dryGain), (8, (u.eng.comb 0 0).fb), (9, (u.eng.comb 0 0).damp),
        (10, u.eng.lpCutoff)],
      u.exec ⟨Num.ideal, B⟩ (.engGetParam q.1) = .next { u with responses := u.responses ++ [(.eng, .number q.2)] }

/-! ## The engine: processing -/

/-- R183, R64, R66, R73, R280: on a configured engine and one or two channels `ENG.PROCESS` completes whatever the samples; it
changes only memories, cursors and the host cells of its block, channel 1's (from flat index `numSamples`) only for two
channels; its refusals. -/
def Obligations.EngProcessCompletesInPlace : Prop :=
  ∀ (ch ns : Nat) (s : State),
    (ch ≠ 1 → ch ≠ 2 → exec (.engProcess ch ns) s = .refused .badChannelCount) ∧
    (ch = 1 ∨ ch = 2 → s.eng.configured = false → exec (.engProcess ch ns) s = .refused .notConfigured) ∧
    (ch = 1 ∨ ch = 2 → s.eng.configured = true → s.hb.wf 0#32 → ∃ e hb,
      exec (.engProcess ch ns) s = .next { s with eng := e, hb := hb } ∧
      e.settings = s.eng.settings ∧
      (∀ a, ch * ns ≤ a → hb.read 0#32 a = s.hb.read 0#32 a))

/-- R190 to R199: one sample through the eight steps written out biquad by biquad, comb by comb and operator by operator, channel
1's input being channel 0's when there is one channel; the outputs land in the host cells the inputs came from. -/
def Obligations.EngProcessRunsTheEightSteps : Prop :=
  ∀ (ch : Nat) (s : State), (ch = 1 ∨ ch = 2) → s.eng.configured = true → s.hb.wf 0#32 →
    let B := biquadOf s.biquad
    let N := Num.b32
    let inL := s.hb.read 0#32 0
    let inR := if ch = 2 then s.hb.read 0#32 1 else inL
    let L := s.eng.ch.get 0
    let R := s.eng.ch.get 1
    let lq0 := B.processSample L.eq.b0 inL
    let lq1 := B.processSample L.eq.b1 lq0.2
    let lq2 := B.processSample L.eq.b2 lq1.2
    let lq3 := B.processSample L.eq.b3 lq2.2
    let lq4 := B.processSample L.eq.b4 lq3.2
    let lq5 := B.processSample L.eq.b5 lq4.2
    let lq6 := B.processSample L.eq.b6 lq5.2
    let lp := L.pre.tick N lq6.2
    let lc0 := L.comb.c0.process N lp.2
    let lc1 := L.comb.c1.process N lp.2
    let lc2 := L.comb.c2.process N lp.2
    let lc3 := L.comb.c3.process N lp.2
    let lc4 := L.comb.c4.process N lp.2
    let lc5 := L.comb.c5.process N lp.2
    let lc6 := L.comb.c6.process N lp.2
    let lc7 := L.comb.c7.process N lp.2
    let ls := F32.mul (F32.add (F32.add (F32.add (F32.add (F32.add (F32.add (F32.add lc0.2 lc1.2) lc2.2) lc3.2)
      lc4.2) lc5.2) lc6.2) lc7.2) 0x3E000000#32
    let rq0 := B.processSample R.eq.b0 inR
    let rq1 := B.processSample R.eq.b1 rq0.2
    let rq2 := B.processSample R.eq.b2 rq1.2
    let rq3 := B.processSample R.eq.b3 rq2.2
    let rq4 := B.processSample R.eq.b4 rq3.2
    let rq5 := B.processSample R.eq.b5 rq4.2
    let rq6 := B.processSample R.eq.b6 rq5.2
    let rp := R.pre.tick N rq6.2
    let rc0 := R.comb.c0.process N rp.2
    let rc1 := R.comb.c1.process N rp.2
    let rc2 := R.comb.c2.process N rp.2
    let rc3 := R.comb.c3.process N rp.2
    let rc4 := R.comb.c4.process N rp.2
    let rc5 := R.comb.c5.process N rp.2
    let rc6 := R.comb.c6.process N rp.2
    let rc7 := R.comb.c7.process N rp.2
    let rs := F32.mul (F32.add (F32.add (F32.add (F32.add (F32.add (F32.add (F32.add rc0.2 rc1.2) rc2.2) rc3.2)
      rc4.2) rc5.2) rc6.2) rc7.2) 0x3E000000#32
    let la0 := L.ap.a0.process N (F32.add ls (F32.mul rs 0x3E19999A#32))
    let la1 := L.ap.a1.process N la0.2
    let la2 := L.ap.a2.process N la1.2
    let la3 := L.ap.a3.process N la2.2
    let lt := B.processSample L.toneLP la3.2
    let lu := B.processSample L.toneLS lt.2
    let ra0 := R.ap.a0.process N (F32.add rs (F32.mul ls 0x3E19999A#32))
    let ra1 := R.ap.a1.process N ra0.2
    let ra2 := R.ap.a2.process N ra1.2
    let ra3 := R.ap.a3.process N ra2.2
    let rt := B.processSample R.toneLP ra3.2
    let ru := B.processSample R.toneLS rt.2
    let mid := F32.mul (F32.add lu.2 ru.2) 0x3F000000#32
    let side := F32.mul (F32.mul (F32.sub lu.2 ru.2) 0x3F000000#32) s.eng.stereoWidth
    let outL := F32.add (F32.mul s.eng.dryGain inL) (F32.mul s.eng.wetGain (F32.add mid side))
    let outR := F32.add (F32.mul s.eng.dryGain inR) (F32.mul s.eng.wetGain (F32.sub mid side))
    ∃ t, exec (.engProcess ch 1) s = .next t ∧ t.hb.read 0#32 0 = outL ∧
      t.hb.read 0#32 1 = (if ch = 2 then outR else s.hb.read 0#32 1) ∧
      t.eng = { s.eng with ch := ⟨
        ⟨⟨lc0.1, lc1.1, lc2.1, lc3.1, lc4.1, lc5.1, lc6.1, lc7.1⟩, ⟨la0.1, la1.1, la2.1, la3.1⟩, lp.1,
          ⟨lq0.1, lq1.1, lq2.1, lq3.1, lq4.1, lq5.1, lq6.1⟩, lt.1, lu.1⟩,
        ⟨⟨rc0.1, rc1.1, rc2.1, rc3.1, rc4.1, rc5.1, rc6.1, rc7.1⟩, ⟨ra0.1, ra1.1, ra2.1, ra3.1⟩, rp.1,
          ⟨rq0.1, rq1.1, rq2.1, rq3.1, rq4.1, rq5.1, rq6.1⟩, rt.1, ru.1⟩⟩ }

/-- R183: a block of `a + b` samples gives the outputs and the engine of a block of `a` followed by a block of `b`. The host
presents the two parts in buffers `hb1` and `hb2` of their own, channel-major as ever. -/
def Obligations.BlocksSplitAnywhere : Prop :=
  ∀ (s : State) (ch a b : Nat) (hb1 hb2 : Memory Word), (ch = 1 ∨ ch = 2) → s.eng.configured = true →
    s.hb.wf 0#32 → hb1.wf 0#32 → hb2.wf 0#32 →
    (∀ c i, c < ch → i < a → hb1.read 0#32 (c * a + i) = s.hb.read 0#32 (c * (a + b) + i)) →
    (∀ c i, c < ch → i < b → hb2.read 0#32 (c * b + i) = s.hb.read 0#32 (c * (a + b) + (a + i))) →
      ∃ t u v, exec (.engProcess ch (a + b)) s = .next t ∧ exec (.engProcess ch a) { s with hb := hb1 } = .next u ∧
        exec (.engProcess ch b) { u with hb := hb2 } = .next v ∧ t.eng = v.eng ∧
        (∀ c i, c < ch → i < a → t.hb.read 0#32 (c * (a + b) + i) = u.hb.read 0#32 (c * a + i)) ∧
        (∀ c i, c < ch → i < b → t.hb.read 0#32 (c * (a + b) + (a + i)) = v.hb.read 0#32 (c * b + i))

/-- R67: the output of index `i` depends on no host cell of a larger index: two buffers that agree up to index `i` on the
channels processed give the same outputs up to `i`. -/
def Obligations.OutputsDependOnEarlierInputsOnly : Prop :=
  ∀ (ch ns i : Nat) (s t u : State) (hb : Memory Word), s.hb.wf 0#32 → hb.wf 0#32 → i < ns →
    (∀ j, j ≤ i → s.hb.read 0#32 j = hb.read 0#32 j ∧ (ch = 2 → s.hb.read 0#32 (ns + j) = hb.read 0#32 (ns + j))) →
    exec (.engProcess ch ns) s = .next t → exec (.engProcess ch ns) (s.withHb hb) = .next u →
      ∀ j, j ≤ i → t.hb.read 0#32 j = u.hb.read 0#32 j ∧
        (ch = 2 → t.hb.read 0#32 (ns + j) = u.hb.read 0#32 (ns + j))

/-- R201, R199: mono input gives the left output and the engine state of stereo input with both channels equal. -/
def Obligations.MonoEqualsDuplicatedStereo : Prop :=
  ∀ (s : State) (ns : Nat) (hb : Memory Word), s.eng.configured = true → s.hb.wf 0#32 → hb.wf 0#32 →
    (∀ i, i < ns → hb.read 0#32 i = s.hb.read 0#32 i ∧ hb.read 0#32 (ns + i) = s.hb.read 0#32 i) →
      ∃ t u, exec (.engProcess 1 ns) s = .next t ∧ exec (.engProcess 2 ns) (s.withHb hb) = .next u ∧
        t.eng = u.eng ∧ ∀ i, i < ns → t.hb.read 0#32 i = u.hb.read 0#32 i

/-- R200: with every memory zero and a biquad that has BQ-ZERO (for +0 and −0), an all-zero block gives an all-zero block and
leaves every memory zero. The invariant supplies that derived gains and coefficients are numbers in their ranges; that
`stereoWidth` is finite holds of every preset and is a premise because `RESET_PARAMS` may be anything (log 2). -/
def Obligations.ZeroInZeroOut : Prop :=
  ∀ (s : State) (ch ns : Nat), s.Inv → (ch = 1 ∨ ch = 2) → s.eng.configured = true → EngineZero s.eng →
    F32.isFinite s.eng.stereoWidth = true → (biquadOf s.biquad).Zero Biquad.view (fun v => F32.isZero v = true) →
    (∀ a, a < ch * ns → F32.isZero (s.hb.read 0#32 a) = true) →
      ∃ t, exec (.engProcess ch ns) s = .next t ∧ EngineZero t.eng ∧
        ∀ a, a < ch * ns → F32.isZero (t.hb.read 0#32 a) = true

/-- R202: `ENG.CLEAR` and a fresh `ENG.CONFIGURE` at the same rate are followed by the same outputs, whatever blocks are
processed. R202 says so "provided the biquad has properties BQ-RESET and BQ-DET" of R254; here these and BQ-SETCOEF-PURE are
built into the biquads of `State` (the model's choice, log 8: unsafe for a library that lacks them). -/
def Obligations.ClearEqualsFreshConfigure : Prop :=
  ∀ (s : State) (sr : DWord) (hint : Int), s.Inv → s.eng.sampleRate = some sr → 1 ≤ hint →
    ∃ a b, exec .engClear s = .next a ∧ exec (.engConfigure sr hint) s = .next b ∧
      ∀ blocks : List (Nat × Nat × Memory Word), blockOutputs blocks a = blockOutputs blocks b

/-- R203 under `NUM_IDEAL`: width 0 makes both sides equal, width 1 leaves them unchanged. -/
def Obligations.IdealWidthEndPoints : Prop :=
  ∀ l r : Rat, (width Num.ideal 0 l r).1 = (width Num.ideal 0 l r).2 ∧ width Num.ideal 1 l r = (l, r)

/-- R66: the host buffer is channel-major: sample `i` of channel `c` is read at flat index `c * numSamples + i`. -/
def Obligations.HostBufferIsChannelMajor : Prop :=
  ∀ (s : State) (ch0 ch1 : List Word), ch1.length = ch0.length →
    (s.presentBuffer ch0 ch1).hb.wf 0#32 ∧
    ∀ i, i < ch0.length →
      (s.presentBuffer ch0 ch1).bufferSample ch0.length 0 i = ch0.getD i 0#32 ∧
      (s.presentBuffer ch0 ch1).bufferSample ch0.length 1 i = ch1.getD i 0#32

/-! ## The whole machine -/

/-- R35, R36, R37, R24, R28, R29: every step keeps the invariant of the machine. -/
def Obligations.StepKeepsTheInvariant : Prop :=
  ∀ s t : State, s.Inv → step s = .next t → t.Inv

/-- R38, R36: the invariant holds after reset, for every legal choice of the open parameters and for the instance
`State.reset`, whose parameters are the model's free choice (log 2). -/
def Obligations.ResetSatisfiesTheInvariant : Prop :=
  (∀ (cfg : Params Word) (b : BiquadChoice), paramsLegal Num.b32 cfg = true → (State.resetWith cfg b).Inv) ∧ State.reset.Inv

/-- R38: the reset values, for any choice of the open parameters. -/
def Obligations.ResetValues : Prop :=
  ∀ (cfg : Params Word) (biquad : BiquadChoice),
    let s := State.resetWith cfg biquad
    (∀ D ∈ s.dl :: s.comb.dl :: s.ap.dl :: s.eng.lines, D.cap = 0 ∧ D.w = 0 ∧ D.buf = [] ∧ D.n = none) ∧
    (∀ c k, (s.eng.comb c k).filterStore = 0#32 ∧
      (s.eng.comb c k).fb = clampFb Num.b32 (mapDerive Num.b32 cfg.resetParams.domeAmount).combFeedback ∧
      (s.eng.comb c k).damp = clampDamp Num.b32 (mapDerive Num.b32 cfg.resetParams.domeAmount).combDamping) ∧
    (∀ c j, (s.eng.ap c j).g = clampCoef Num.b32 ((cfg.apCoeff.get c).get j)) ∧
    (∀ c, ∀ b ∈ (s.eng.ch.get c).biquads, b.coef = none ∧ b.mem = []) ∧
    (s.eng.preset, s.eng.domeAmount, s.eng.stereoWidth, s.eng.bassBoost) =
      (cfg.resetParams.preset, cfg.resetParams.domeAmount, cfg.resetParams.stereoWidth, cfg.resetParams.bassBoost) ∧
    s.eng.wetGain = (mapDerive Num.b32 cfg.resetParams.domeAmount).wetGain ∧
    s.eng.dryGain = (mapDerive Num.b32 cfg.resetParams.domeAmount).dryGain ∧
    s.eng.lpCutoff = (mapDerive Num.b32 cfg.resetParams.domeAmount).lpCutoff ∧
    s.eng.preDelaySamples = ⟨none, none⟩ ∧ s.eng.sampleRate = none ∧ s.eng.configured = false ∧
    (s.comb.filterStore, s.comb.fb, s.comb.damp, s.ap.g) = (0#32, 0#32, 0#32, 0#32)

/-- R130: no command but a `CONFIGURE` changes a capacity, standalone or in the engine. -/
def Obligations.OnlyConfigureChangesCapacities : Prop :=
  ∀ (i : Instr) (s t : State), isConfigure i = false → exec i s = .next t →
    t.dl.cap = s.dl.cap ∧ t.comb.dl.cap = s.comb.dl.cap ∧ t.ap.dl.cap = s.ap.dl.cap ∧
      t.eng.lines.map (·.cap) = s.eng.lines.map (·.cap)

/-- R237, R231: preset, width and bass change only by `ENG.SETPRESET`; `domeAmount` only by the two parameter commands; the
engine's all-pass coefficients never change. -/
def Obligations.ParameterRegistersHaveTheirWriters : Prop :=
  ∀ (i : Instr) (s t : State), exec i s = .next t →
    (∀ c j, (t.eng.ap c j).g = (s.eng.ap c j).g) ∧
    ((∀ id, i ≠ .engSetPreset id) →
      t.eng.preset = s.eng.preset ∧ t.eng.stereoWidth = s.eng.stereoWidth ∧ t.eng.bassBoost = s.eng.bassBoost) ∧
    ((∀ id, i ≠ .engSetPreset id) → (∀ a, i ≠ .engSetDome a) → t.eng.domeAmount = s.eng.domeAmount)

/-- R28: the flag is set by every successful `ENG.CONFIGURE`, changed by no other command, and never cleared. -/
def Obligations.ConfiguredFlagIsNeverCleared : Prop :=
  ∀ (i : Instr) (s t : State), exec i s = .next t →
    (s.eng.configured = true → t.eng.configured = true) ∧
    ((∃ sr h, i = .engConfigure sr h) → t.eng.configured = true) ∧
    ((∀ sr h, i ≠ .engConfigure sr h) → t.eng.configured = s.eng.configured)

/-- R27, R123, R124, R126, R181, R183: the write cursor of every Delay Line, standalone or in the engine, moves one place a
sample, modulo the capacity, goes to 0 by a `CONFIGURE`, and is left by every other command. -/
def Obligations.CursorsMoveOnlyBySamples : Prop :=
  ∀ (i : Instr) (s t : State), exec i s = .next t →
    t.dl.w = (match i with | .dlTick _ => (s.dl.w + 1) % s.dl.cap | .dlConfigure _ _ => 0 | _ => s.dl.w) ∧
    t.comb.dl.w =
      (match i with | .combProcess _ => (s.comb.dl.w + 1) % s.comb.dl.cap | .combConfigure _ _ => 0 | _ => s.comb.dl.w) ∧
    t.ap.dl.w = (match i with | .apProcess _ => (s.ap.dl.w + 1) % s.ap.dl.cap | .apConfigure _ _ => 0 | _ => s.ap.dl.w) ∧
    t.eng.lines.map (·.w) = s.eng.lines.map fun D =>
      (match i with
        | .engProcess _ ns => if ns = 0 then D.w else (D.w + ns) % D.cap
        | .engConfigure _ _ => 0
        | _ => D.w)

/-- R101, R68, R285: a command reaches only the unit of its port class: every other unit, the configuration and the words waiting
on the ports are unchanged, and only `ENG.PROCESS` touches the host buffer. That the configuration and the ports stand in
`State` is the model's choice (logs 1 and 3). -/
def Obligations.CommandsReachOnlyTheirUnit : Prop :=
  ∀ (i : Instr) (s t : State), exec i s = .next t →
    t.cfg = s.cfg ∧ t.biquad = s.biquad ∧ t.inbox = s.inbox ∧ (i.port ≠ .dl → t.dl = s.dl) ∧ (i.port ≠ .comb → t.comb = s.comb) ∧
    (i.port ≠ .ap → t.ap = s.ap) ∧ (i.port ≠ .eng → t.eng = s.eng) ∧
    ((∀ ch ns, i ≠ .engProcess ch ns) → t.hb = s.hb)

/-- R93: `DL.TICK`, `COMB.PROCESS`, `AP.PROCESS` and `ENG.GETPARAM` answer exactly one word on their port; every other command
answers nothing. -/
def Obligations.ResponsesAreThoseOfTheSpec : Prop :=
  ∀ (i : Instr) (s t : State), exec i s = .next t →
    let answering := (∃ x, i = .dlTick x) ∨ (∃ x, i = .combProcess x) ∨ (∃ x, i = .apProcess x) ∨ ∃ r, i = .engGetParam r
    (answering → ∃ w, t.responses = s.responses ++ [(i.port, .word w)]) ∧ (¬ answering → t.responses = s.responses)

/-- R68, R101: what a Delay Line command does to the line and answers is a function of the line, the operands and `MAX_CAP`
alone: no other unit's state, no host buffer and no waiting word can be learnt through it. -/
def Obligations.DlCommandsDependOnTheirLineOnly : Prop :=
  ∀ (i : Instr) (s s' t : State), i.port = .dl → s'.dl = s.dl → s'.cfg.maxCap = s.cfg.maxCap → exec i s = .next t →
    ∃ t', exec i s' = .next t' ∧ t'.dl = t.dl ∧
      ∀ answer, t.responses = s.responses ++ answer → t'.responses = s'.responses ++ answer

/-- R272: the list of reasons is closed, and each command can be refused only with the reasons its row of the table names. -/
def Obligations.RefusalReasonsAreThoseOfTheTable : Prop :=
  ∀ (i : Instr) (s : State) (r : Refusal), exec i s = .refused r → mayRefuse i r

/-- R273: the commands that can never be refused once decoded. -/
def Obligations.CommandsThatAreNeverRefused : Prop :=
  ∀ s : State,
    (∃ t, exec .dlClear s = .next t) ∧ (∃ t, exec .combClear s = .next t) ∧ (∃ t, exec .apClear s = .next t) ∧
    (∃ t, exec .engClear s = .next t) ∧ (∀ id, ∃ t, exec (.engSetPreset id) s = .next t) ∧
    (∀ v, F32.isNaN v = false →
      (∃ t, exec (.combSetFb v) s = .next t) ∧ (∃ t, exec (.combSetDamp v) s = .next t) ∧
      (∃ t, exec (.apSetCoef v) s = .next t) ∧ (∃ t, exec (.engSetDome v) s = .next t)) ∧
    (∀ ch ns, (ch = 1 ∨ ch = 2) → s.eng.configured = true → ∃ t, exec (.engProcess ch ns) s = .next t)

/-! ## Arithmetic -/

/-- R12: binary32 addition rounds once, to nearest, ties to even: a finite sum is at least as near the exact one as any finite
number, and of two equally near ones it is the even encoding. -/
def Obligations.AdditionIsCorrectlyRounded : Prop :=
  ∀ a b : Word, F32.isFinite a = true → F32.isFinite b = true → F32.isFinite (F32.add a b) = true →
    ∀ z : Word, F32.isFinite z = true →
      let exact := F32.toRat a + F32.toRat b
      |F32.toRat (F32.add a b) - exact| ≤ |F32.toRat z - exact| ∧
      (|F32.toRat (F32.add a b) - exact| = |F32.toRat z - exact| → F32.toRat z ≠ F32.toRat (F32.add a b) →
        (F32.add a b).toNat % 2 = 0)

/-- R12: the same of multiplication. -/
def Obligations.MultiplicationIsCorrectlyRounded : Prop :=
  ∀ a b : Word, F32.isFinite a = true → F32.isFinite b = true → F32.isFinite (F32.mul a b) = true →
    ∀ z : Word, F32.isFinite z = true →
      let exact := F32.toRat a * F32.toRat b
      |F32.toRat (F32.mul a b) - exact| ≤ |F32.toRat z - exact| ∧
      (|F32.toRat (F32.mul a b) - exact| = |F32.toRat z - exact| → F32.toRat z ≠ F32.toRat (F32.mul a b) →
        (F32.mul a b).toNat % 2 = 0)

/-- R12: the order `clamp` uses is the order of the numbers the encodings stand for. -/
def Obligations.OrderIsTheNumericOrder : Prop :=
  ∀ a b : Word, F32.isFinite a = true → F32.isFinite b = true →
    (F32.le a b = true ↔ F32.toRat a ≤ F32.toRat b) ∧ (F32.lt a b = true ↔ F32.toRat a < F32.toRat b)
end

