-- ==== Sys2Proof/Laws/Bank.lean ====
section
/-! SUPPORT. The fixed-arity groups of Word.lean: reading an element of a map or of a tabulation, and extensionality. -/

namespace Sys2Proof

variable {α β : Type}

@[simp] theorem Stereo.get_zero (p : Stereo α) : p.get 0 = p.l := rfl
@[simp] theorem Stereo.get_one (p : Stereo α) : p.get 1 = p.r := rfl

@[simp] theorem Stereo.get_map (f : α → β) (p : Stereo α) (c : Fin 2) : (p.map f).get c = f (p.get c) := by
  fin_cases c <;> rfl

@[simp] theorem Stereo.get_ofFn (f : Fin 2 → α) (c : Fin 2) : (Stereo.ofFn f).get c = f c := by
  fin_cases c <;> rfl

theorem Stereo.ext_get {p q : Stereo α} (h : ∀ c, p.get c = q.get c) : p = q := by
  cases p; cases q; simpa using And.intro (h 0) (h 1)

@[simp] theorem Bank4.get_map (f : α → β) (p : Bank4 α) (j : Fin 4) : (p.map f).get j = f (p.get j) := by
  fin_cases j <;> rfl

@[simp] theorem Bank4.get_ofFn (f : Fin 4 → α) (j : Fin 4) : (Bank4.ofFn f).get j = f j := by
  fin_cases j <;> rfl

theorem Bank4.ext_get {p q : Bank4 α} (h : ∀ j, p.get j = q.get j) : p = q := by
  have h0 := h 0; have h1 := h 1; have h2 := h 2; have h3 := h 3
  cases p; cases q; simp_all [Bank4.get]

theorem Bank4.mem_toList {p : Bank4 α} {x : α} : x ∈ p.toList ↔ ∃ j, p.get j = x := by
  simp [Bank4.toList, Fin.exists_fin_succ, Bank4.get, eq_comm]

@[simp] theorem Bank7.get_map (f : α → β) (p : Bank7 α) (b : Fin 7) : (p.map f).get b = f (p.get b) := by
  fin_cases b <;> rfl

@[simp] theorem Bank7.get_ofFn (f : Fin 7 → α) (b : Fin 7) : (Bank7.ofFn f).get b = f b := by
  fin_cases b <;> rfl

theorem Bank7.ext_get {p q : Bank7 α} (h : ∀ b, p.get b = q.get b) : p = q := by
  have h0 := h 0; have h1 := h 1; have h2 := h 2; have h3 := h 3; have h4 := h 4; have h5 := h 5; have h6 := h 6
  cases p; cases q; simp_all [Bank7.get]

@[simp] theorem Bank8.get_map (f : α → β) (p : Bank8 α) (k : Fin 8) : (p.map f).get k = f (p.get k) := by
  fin_cases k <;> rfl

@[simp] theorem Bank8.get_ofFn (f : Fin 8 → α) (k : Fin 8) : (Bank8.ofFn f).get k = f k := by
  fin_cases k <;> rfl

theorem Bank8.ext_get {p q : Bank8 α} (h : ∀ k, p.get k = q.get k) : p = q := by
  have h0 := h 0; have h1 := h 1; have h2 := h 2; have h3 := h 3
  have h4 := h 4; have h5 := h 5; have h6 := h 6; have h7 := h 7
  cases p; cases q; simp_all [Bank8.get]

theorem Bank8.mem_toList {p : Bank8 α} {x : α} : x ∈ p.toList ↔ ∃ k, p.get k = x := by
  simp [Bank8.toList, Fin.exists_fin_succ, Bank8.get, eq_comm]

namespace Machine

variable {S Q : Type}

@[simp] theorem Engine.comb_eq (e : Engine S Q) (c : Fin 2) (k : Fin 8) : e.comb c k = (e.ch.get c).comb.get k := rfl
@[simp] theorem Engine.ap_eq (e : Engine S Q) (c : Fin 2) (j : Fin 4) : e.ap c j = (e.ch.get c).ap.get j := rfl
@[simp] theorem Engine.pre_eq (e : Engine S Q) (c : Fin 2) : e.pre c = (e.ch.get c).pre := rfl
@[simp] theorem Engine.eq_eq (e : Engine S Q) (c : Fin 2) (b : Fin 7) : e.eq c b = (e.ch.get c).eq.get b := rfl

/-- A channel's lines are its combs', its all-passes' and its pre-delay's. -/
theorem Channel.mem_lines {h : Channel S Q} {D : DelayLine S} :
    D ∈ h.lines ↔ (∃ k, (h.comb.get k).dl = D) ∨ (∃ j, (h.ap.get j).dl = D) ∨ h.pre = D := by
  simp only [Channel.lines, List.mem_append, List.mem_map, List.mem_singleton, Bank8.mem_toList, Bank4.mem_toList]
  aesop

/-- A channel's biquads are its seven bands and its two tone filters. -/
theorem Channel.mem_biquads {h : Channel S Q} {q : Q} :
    q ∈ h.biquads ↔ (∃ b, h.eq.get b = q) ∨ h.toneLP = q ∨ h.toneLS = q := by
  simp [Channel.biquads, Fin.exists_fin_succ, Bank7.get, eq_comm, or_assoc]

/-- The engine's lines are its channels'. -/
theorem Engine.mem_lines {e : Engine S Q} {D : DelayLine S} : D ∈ e.lines ↔ ∃ c, D ∈ (e.ch.get c).lines := by
  simp [Engine.lines, Fin.exists_fin_succ]

end Machine

end Sys2Proof
end

