-- ==== Sys2Proof/Laws/State.lean ====
section
/-! SUPPORT. One lemma per field per named update, of `State` and of the parametric `Session`. -/

namespace Sys2Proof.Machine

section Hardware

variable (s : State)

@[simp] theorem State.withDl_cfg (d : DelayLine Word) : (s.withDl d).cfg = s.cfg := rfl
@[simp] theorem State.withDl_dl (d : DelayLine Word) : (s.withDl d).dl = d := rfl
@[simp] theorem State.withDl_comb (d : DelayLine Word) : (s.withDl d).comb = s.comb := rfl
@[simp] theorem State.withDl_ap (d : DelayLine Word) : (s.withDl d).ap = s.ap := rfl
@[simp] theorem State.withDl_eng (d : DelayLine Word) : (s.withDl d).eng = s.eng := rfl
@[simp] theorem State.withDl_hb (d : DelayLine Word) : (s.withDl d).hb = s.hb := rfl
@[simp] theorem State.withDl_inbox (d : DelayLine Word) : (s.withDl d).inbox = s.inbox := rfl
@[simp] theorem State.withDl_responses (d : DelayLine Word) : (s.withDl d).responses = s.responses := rfl
@[simp] theorem State.withDl_biquad (d : DelayLine Word) : (s.withDl d).biquad = s.biquad := rfl

@[simp] theorem State.withComb_cfg (c : Comb Word) : (s.withComb c).cfg = s.cfg := rfl
@[simp] theorem State.withComb_dl (c : Comb Word) : (s.withComb c).dl = s.dl := rfl
@[simp] theorem State.withComb_comb (c : Comb Word) : (s.withComb c).comb = c := rfl
@[simp] theorem State.withComb_ap (c : Comb Word) : (s.withComb c).ap = s.ap := rfl
@[simp] theorem State.withComb_eng (c : Comb Word) : (s.withComb c).eng = s.eng := rfl
@[simp] theorem State.withComb_hb (c : Comb Word) : (s.withComb c).hb = s.hb := rfl
@[simp] theorem State.withComb_inbox (c : Comb Word) : (s.withComb c).inbox = s.inbox := rfl
@[simp] theorem State.withComb_responses (c : Comb Word) : (s.withComb c).responses = s.responses := rfl
@[simp] theorem State.withComb_biquad (c : Comb Word) : (s.withComb c).biquad = s.biquad := rfl

@[simp] theorem State.withAp_cfg (a : AllPass Word) : (s.withAp a).cfg = s.cfg := rfl
@[simp] theorem State.withAp_dl (a : AllPass Word) : (s.withAp a).dl = s.dl := rfl
@[simp] theorem State.withAp_comb (a : AllPass Word) : (s.withAp a).comb = s.comb := rfl
@[simp] theorem State.withAp_ap (a : AllPass Word) : (s.withAp a).ap = a := rfl
@[simp] theorem State.withAp_eng (a : AllPass Word) : (s.withAp a).eng = s.eng := rfl
@[simp] theorem State.withAp_hb (a : AllPass Word) : (s.withAp a).hb = s.hb := rfl
@[simp] theorem State.withAp_inbox (a : AllPass Word) : (s.withAp a).inbox = s.inbox := rfl
@[simp] theorem State.withAp_responses (a : AllPass Word) : (s.withAp a).responses = s.responses := rfl
@[simp] theorem State.withAp_biquad (a : AllPass Word) : (s.withAp a).biquad = s.biquad := rfl

@[simp] theorem State.withEng_cfg (e : Engine32) : (s.withEng e).cfg = s.cfg := rfl
@[simp] theorem State.withEng_dl (e : Engine32) : (s.withEng e).dl = s.dl := rfl
@[simp] theorem State.withEng_comb (e : Engine32) : (s.withEng e).comb = s.comb := rfl
@[simp] theorem State.withEng_ap (e : Engine32) : (s.withEng e).ap = s.ap := rfl
@[simp] theorem State.withEng_eng (e : Engine32) : (s.withEng e).eng = e := rfl
@[simp] theorem State.withEng_hb (e : Engine32) : (s.withEng e).hb = s.hb := rfl
@[simp] theorem State.withEng_inbox (e : Engine32) : (s.withEng e).inbox = s.inbox := rfl
@[simp] theorem State.withEng_responses (e : Engine32) : (s.withEng e).responses = s.responses := rfl
@[simp] theorem State.withEng_biquad (e : Engine32) : (s.withEng e).biquad = s.biquad := rfl

@[simp] theorem State.withHb_cfg (m : Memory Word) : (s.withHb m).cfg = s.cfg := rfl
@[simp] theorem State.withHb_dl (m : Memory Word) : (s.withHb m).dl = s.dl := rfl
@[simp] theorem State.withHb_comb (m : Memory Word) : (s.withHb m).comb = s.comb := rfl
@[simp] theorem State.withHb_ap (m : Memory Word) : (s.withHb m).ap = s.ap := rfl
@[simp] theorem State.withHb_eng (m : Memory Word) : (s.withHb m).eng = s.eng := rfl
@[simp] theorem State.withHb_hb (m : Memory Word) : (s.withHb m).hb = m := rfl
@[simp] theorem State.withHb_inbox (m : Memory Word) : (s.withHb m).inbox = s.inbox := rfl
@[simp] theorem State.withHb_responses (m : Memory Word) : (s.withHb m).responses = s.responses := rfl
@[simp] theorem State.withHb_biquad (m : Memory Word) : (s.withHb m).biquad = s.biquad := rfl

@[simp] theorem State.withInbox_cfg (q : List (Port × Word)) : (s.withInbox q).cfg = s.cfg := rfl
@[simp] theorem State.withInbox_dl (q : List (Port × Word)) : (s.withInbox q).dl = s.dl := rfl
@[simp] theorem State.withInbox_comb (q : List (Port × Word)) : (s.withInbox q).comb = s.comb := rfl
@[simp] theorem State.withInbox_ap (q : List (Port × Word)) : (s.withInbox q).ap = s.ap := rfl
@[simp] theorem State.withInbox_eng (q : List (Port × Word)) : (s.withInbox q).eng = s.eng := rfl
@[simp] theorem State.withInbox_hb (q : List (Port × Word)) : (s.withInbox q).hb = s.hb := rfl
@[simp] theorem State.withInbox_inbox (q : List (Port × Word)) : (s.withInbox q).inbox = q := rfl
@[simp] theorem State.withInbox_responses (q : List (Port × Word)) : (s.withInbox q).responses = s.responses := rfl
@[simp] theorem State.withInbox_biquad (q : List (Port × Word)) : (s.withInbox q).biquad = s.biquad := rfl

@[simp] theorem State.answer_cfg (p : Port) (w : Word) : (s.answer p w).cfg = s.cfg := rfl
@[simp] theorem State.answer_dl (p : Port) (w : Word) : (s.answer p w).dl = s.dl := rfl
@[simp] theorem State.answer_comb (p : Port) (w : Word) : (s.answer p w).comb = s.comb := rfl
@[simp] theorem State.answer_ap (p : Port) (w : Word) : (s.answer p w).ap = s.ap := rfl
@[simp] theorem State.answer_eng (p : Port) (w : Word) : (s.answer p w).eng = s.eng := rfl
@[simp] theorem State.answer_hb (p : Port) (w : Word) : (s.answer p w).hb = s.hb := rfl
@[simp] theorem State.answer_inbox (p : Port) (w : Word) : (s.answer p w).inbox = s.inbox := rfl
@[simp] theorem State.answer_responses (p : Port) (w : Word) :
    (s.answer p w).responses = s.responses ++ [(p, .word w)] := rfl
@[simp] theorem State.answer_biquad (p : Port) (w : Word) : (s.answer p w).biquad = s.biquad := rfl

/-- States with equal fields are equal. -/
theorem State.ext_fields {s t : State} (h1 : s.cfg = t.cfg) (h2 : s.dl = t.dl) (h3 : s.comb = t.comb) (h4 : s.ap = t.ap)
    (h5 : s.eng = t.eng) (h6 : s.hb = t.hb) (h7 : s.inbox = t.inbox) (h8 : s.responses = t.responses)
    (h9 : s.biquad = t.biquad) : s = t := by
  obtain ⟨⟨⟩, _⟩ := s; obtain ⟨⟨⟩, _⟩ := t; simp_all

end Hardware

section Parametric

variable {S Q : Type} (s : Session S Q)

@[simp] theorem Session.withDl_cfg (d : DelayLine S) : (s.withDl d).cfg = s.cfg := rfl
@[simp] theorem Session.withDl_dl (d : DelayLine S) : (s.withDl d).dl = d := rfl
@[simp] theorem Session.withDl_comb (d : DelayLine S) : (s.withDl d).comb = s.comb := rfl
@[simp] theorem Session.withDl_ap (d : DelayLine S) : (s.withDl d).ap = s.ap := rfl
@[simp] theorem Session.withDl_eng (d : DelayLine S) : (s.withDl d).eng = s.eng := rfl
@[simp] theorem Session.withDl_hb (d : DelayLine S) : (s.withDl d).hb = s.hb := rfl
@[simp] theorem Session.withDl_inbox (d : DelayLine S) : (s.withDl d).inbox = s.inbox := rfl
@[simp] theorem Session.withDl_responses (d : DelayLine S) : (s.withDl d).responses = s.responses := rfl

@[simp] theorem Session.withComb_cfg (c : Comb S) : (s.withComb c).cfg = s.cfg := rfl
@[simp] theorem Session.withComb_dl (c : Comb S) : (s.withComb c).dl = s.dl := rfl
@[simp] theorem Session.withComb_comb (c : Comb S) : (s.withComb c).comb = c := rfl
@[simp] theorem Session.withComb_ap (c : Comb S) : (s.withComb c).ap = s.ap := rfl
@[simp] theorem Session.withComb_eng (c : Comb S) : (s.withComb c).eng = s.eng := rfl
@[simp] theorem Session.withComb_hb (c : Comb S) : (s.withComb c).hb = s.hb := rfl
@[simp] theorem Session.withComb_inbox (c : Comb S) : (s.withComb c).inbox = s.inbox := rfl
@[simp] theorem Session.withComb_responses (c : Comb S) : (s.withComb c).responses = s.responses := rfl

@[simp] theorem Session.withAp_cfg (a : AllPass S) : (s.withAp a).cfg = s.cfg := rfl
@[simp] theorem Session.withAp_dl (a : AllPass S) : (s.withAp a).dl = s.dl := rfl
@[simp] theorem Session.withAp_comb (a : AllPass S) : (s.withAp a).comb = s.comb := rfl
@[simp] theorem Session.withAp_ap (a : AllPass S) : (s.withAp a).ap = a := rfl
@[simp] theorem Session.withAp_eng (a : AllPass S) : (s.withAp a).eng = s.eng := rfl
@[simp] theorem Session.withAp_hb (a : AllPass S) : (s.withAp a).hb = s.hb := rfl
@[simp] theorem Session.withAp_inbox (a : AllPass S) : (s.withAp a).inbox = s.inbox := rfl
@[simp] theorem Session.withAp_responses (a : AllPass S) : (s.withAp a).responses = s.responses := rfl

@[simp] theorem Session.withEng_cfg (e : Engine S Q) : (s.withEng e).cfg = s.cfg := rfl
@[simp] theorem Session.withEng_dl (e : Engine S Q) : (s.withEng e).dl = s.dl := rfl
@[simp] theorem Session.withEng_comb (e : Engine S Q) : (s.withEng e).comb = s.comb := rfl
@[simp] theorem Session.withEng_ap (e : Engine S Q) : (s.withEng e).ap = s.ap := rfl
@[simp] theorem Session.withEng_eng (e : Engine S Q) : (s.withEng e).eng = e := rfl
@[simp] theorem Session.withEng_hb (e : Engine S Q) : (s.withEng e).hb = s.hb := rfl
@[simp] theorem Session.withEng_inbox (e : Engine S Q) : (s.withEng e).inbox = s.inbox := rfl
@[simp] theorem Session.withEng_responses (e : Engine S Q) : (s.withEng e).responses = s.responses := rfl

@[simp] theorem Session.withHb_cfg (m : Memory S) : (s.withHb m).cfg = s.cfg := rfl
@[simp] theorem Session.withHb_dl (m : Memory S) : (s.withHb m).dl = s.dl := rfl
@[simp] theorem Session.withHb_comb (m : Memory S) : (s.withHb m).comb = s.comb := rfl
@[simp] theorem Session.withHb_ap (m : Memory S) : (s.withHb m).ap = s.ap := rfl
@[simp] theorem Session.withHb_eng (m : Memory S) : (s.withHb m).eng = s.eng := rfl
@[simp] theorem Session.withHb_hb (m : Memory S) : (s.withHb m).hb = m := rfl
@[simp] theorem Session.withHb_inbox (m : Memory S) : (s.withHb m).inbox = s.inbox := rfl
@[simp] theorem Session.withHb_responses (m : Memory S) : (s.withHb m).responses = s.responses := rfl

@[simp] theorem Session.withInbox_cfg (q : List (Port × Word)) : (s.withInbox q).cfg = s.cfg := rfl
@[simp] theorem Session.withInbox_dl (q : List (Port × Word)) : (s.withInbox q).dl = s.dl := rfl
@[simp] theorem Session.withInbox_comb (q : List (Port × Word)) : (s.withInbox q).comb = s.comb := rfl
@[simp] theorem Session.withInbox_ap (q : List (Port × Word)) : (s.withInbox q).ap = s.ap := rfl
@[simp] theorem Session.withInbox_eng (q : List (Port × Word)) : (s.withInbox q).eng = s.eng := rfl
@[simp] theorem Session.withInbox_hb (q : List (Port × Word)) : (s.withInbox q).hb = s.hb := rfl
@[simp] theorem Session.withInbox_inbox (q : List (Port × Word)) : (s.withInbox q).inbox = q := rfl
@[simp] theorem Session.withInbox_responses (q : List (Port × Word)) : (s.withInbox q).responses = s.responses := rfl

@[simp] theorem Session.answer_cfg (p : Port) (r : Response S) : (s.answer p r).cfg = s.cfg := rfl
@[simp] theorem Session.answer_dl (p : Port) (r : Response S) : (s.answer p r).dl = s.dl := rfl
@[simp] theorem Session.answer_comb (p : Port) (r : Response S) : (s.answer p r).comb = s.comb := rfl
@[simp] theorem Session.answer_ap (p : Port) (r : Response S) : (s.answer p r).ap = s.ap := rfl
@[simp] theorem Session.answer_eng (p : Port) (r : Response S) : (s.answer p r).eng = s.eng := rfl
@[simp] theorem Session.answer_hb (p : Port) (r : Response S) : (s.answer p r).hb = s.hb := rfl
@[simp] theorem Session.answer_inbox (p : Port) (r : Response S) : (s.answer p r).inbox = s.inbox := rfl
@[simp] theorem Session.answer_responses (p : Port) (r : Response S) :
    (s.answer p r).responses = s.responses ++ [(p, r)] := rfl

end Parametric

end Sys2Proof.Machine
end

