-- ==== Sys2Proof/Laws/Parametric.lean ====
section
/-! SUPPORT. The hardware's machine is the parametric machine at `NUM_B32` and the attached biquad (spec/00_scope.md rules R7,
R12), and what each of its commands answers, written with the fields of `State`; the premises of R254 of its biquads. -/

namespace Sys2Proof.Machine

/-! ## The two machines agree -/

/-- A checked effect, run. -/
theorem State.run_unlessRefused (s : State) (c : Option Refusal) (f : Hardware Word (Biquad Word) → Session Word (Biquad Word) →
    Session Word (Biquad Word)) :
    (s.run fun H σ => unlessRefused c (f H σ)) = unlessRefused c { s with toSession := f s.hardware s.toSession } := by
  cases c <;> rfl

/-- `exec` is the parametric meaning at this hardware's records. -/
theorem exec_eq_run (i : Instr) (s : State) : exec i s = s.run fun H σ => σ.exec H i := by cases i <;> rfl

/-- A run of this hardware's records never changes which biquad is attached. -/
theorem State.run_biquad {s t : State} {f : Hardware Word (Biquad Word) → Session Word (Biquad Word) → Outcome Word (Biquad Word)}
    (h : s.run f = .next t) : t.biquad = s.biquad := by
  unfold State.run at h
  split at h <;> cases h
  rfl

/-- `step` is the parametric step at this hardware's records. -/
theorem step_eq_run (s : State) : step s = s.run fun H σ => σ.step H := by
  simp only [step, State.run, Session.step, stepBy]
  rcases nextCommand s.inbox with _ | ⟨p, ws⟩
  · rfl
  · dsimp only
    cases decode p ws with
    | error e => rfl
    | ok i => dsimp only; rw [exec_eq_run]; rfl

/-! ## What a step does -/

section Steps

variable {s : State} {p : Port} {ws : List Word}

theorem step_idle (h : nextCommand s.inbox = none) : step s = .next s := by simp [step, stepBy, h]

theorem step_ok {i : Instr} (h : nextCommand s.inbox = some (p, ws)) (hd : decode p ws = .ok i) :
    step s = exec i (s.withInbox (consume p ws s.inbox)) := by simp [step, stepBy, h, hd]

theorem step_error {e : DecodeError} (h : nextCommand s.inbox = some (p, ws)) (hd : decode p ws = .error e) :
    step s = .refused (refusalOf e) := by simp [step, stepBy, h, hd]

/-- A step is idle, refuses words that are no command, or runs a command. -/
theorem step_cases (s : State) :
    (nextCommand s.inbox = none ∧ step s = .next s) ∨
      ∃ p ws, nextCommand s.inbox = some (p, ws) ∧
        ((∃ e, decode p ws = .error e ∧ step s = .refused (refusalOf e)) ∨
          ∃ i, decode p ws = .ok i ∧ step s = exec i (s.withInbox (consume p ws s.inbox))) := by
  rcases hn : nextCommand s.inbox with _ | ⟨p, ws⟩
  · exact .inl ⟨rfl, step_idle hn⟩
  · refine .inr ⟨p, ws, rfl, ?_⟩
    cases hd : decode p ws with
    | error e => exact .inl ⟨e, rfl, step_error hn hd⟩
    | ok i => exact .inr ⟨i, rfl, step_ok hn hd⟩

/-- What a refused command leaves. -/
theorem State.discard_eq (h : nextCommand s.inbox = some (p, ws)) :
    s.discard = s.withInbox (consume p ws s.inbox) := by simp [State.discard, discardNext, h]

end Steps

/-! ## What each command answers -/

section Commands

variable (s : State)

theorem execDlConfigure_eq (sr : DWord) (ms : Word) :
    execDlConfigure sr ms s = unlessRefused (checkConfigure s.cfg.maxCap sr ms) (s.withDl (configureLine sr ms)) :=
  s.run_unlessRefused _ fun _ σ => σ.withDl (configureLine sr ms)

theorem execDlSetDelay_eq (n : Int) :
    execDlSetDelay n s = unlessRefused (checkBuffer s.dl) (s.withDl (s.dl.setLength n)) :=
  s.run_unlessRefused _ fun _ σ => σ.withDl (s.dl.setLength n)

theorem execDlClear_eq : execDlClear s = .next (s.withDl s.dl.clear) := rfl

theorem execDlTick_eq (x : Word) :
    execDlTick x s =
      unlessRefused (checkReady s.dl) ((s.withDl (s.dl.tick Num.b32 x).1).answer .dl (s.dl.tick Num.b32 x).2) :=
  s.run_unlessRefused _ fun _ σ => (σ.withDl (s.dl.tick Num.b32 x).1).answer .dl (.word (s.dl.tick Num.b32 x).2)

theorem execCombConfigure_eq (sr : DWord) (ms : Word) :
    execCombConfigure sr ms s = unlessRefused (checkConfigure s.cfg.maxCap sr ms)
      (s.withComb { s.comb with dl := configureLine sr ms, filterStore := Num.b32.zero }) :=
  s.run_unlessRefused _ fun _ σ => σ.withComb { s.comb with dl := configureLine sr ms, filterStore := Num.b32.zero }

theorem execCombSetDelay_eq (n : Int) :
    execCombSetDelay n s =
      unlessRefused (checkBuffer s.comb.dl) (s.withComb { s.comb with dl := s.comb.dl.setLength n }) :=
  s.run_unlessRefused _ fun _ σ => σ.withComb { s.comb with dl := s.comb.dl.setLength n }

theorem execCombClear_eq : execCombClear s = .next (s.withComb (s.comb.clear Num.b32)) := rfl

theorem execCombProcess_eq (x : Word) :
    execCombProcess x s = unlessRefused (checkReady s.comb.dl)
      ((s.withComb (s.comb.process Num.b32 x).1).answer .comb (s.comb.process Num.b32 x).2) :=
  s.run_unlessRefused _ fun _ σ =>
    (σ.withComb (s.comb.process Num.b32 x).1).answer .comb (.word (s.comb.process Num.b32 x).2)

theorem execCombSetFb_eq (f : Word) :
    execCombSetFb f s = unlessRefused (checkNotNaN f) (s.withComb { s.comb with fb := clampFb Num.b32 f }) :=
  s.run_unlessRefused _ fun _ σ => σ.withComb { s.comb with fb := clampFb Num.b32 f }

theorem execCombSetDamp_eq (d : Word) :
    execCombSetDamp d s = unlessRefused (checkNotNaN d) (s.withComb { s.comb with damp := clampDamp Num.b32 d }) :=
  s.run_unlessRefused _ fun _ σ => σ.withComb { s.comb with damp := clampDamp Num.b32 d }

theorem execApConfigure_eq (sr : DWord) (ms : Word) :
    execApConfigure sr ms s =
      unlessRefused (checkConfigure s.cfg.maxCap sr ms) (s.withAp { s.ap with dl := configureLine sr ms }) :=
  s.run_unlessRefused _ fun _ σ => σ.withAp { s.ap with dl := configureLine sr ms }

theorem execApSetDelay_eq (n : Int) :
    execApSetDelay n s = unlessRefused (checkBuffer s.ap.dl) (s.withAp { s.ap with dl := s.ap.dl.setLength n }) :=
  s.run_unlessRefused _ fun _ σ => σ.withAp { s.ap with dl := s.ap.dl.setLength n }

theorem execApClear_eq : execApClear s = .next (s.withAp s.ap.clear) := rfl

theorem execApProcess_eq (x : Word) :
    execApProcess x s = unlessRefused (checkReady s.ap.dl)
      ((s.withAp (s.ap.process Num.b32 x).1).answer .ap (s.ap.process Num.b32 x).2) :=
  s.run_unlessRefused _ fun _ σ => (σ.withAp (s.ap.process Num.b32 x).1).answer .ap (.word (s.ap.process Num.b32 x).2)

theorem execApSetCoef_eq (c : Word) :
    execApSetCoef c s = unlessRefused (checkNotNaN c) (s.withAp { s.ap with g := clampCoef Num.b32 c }) :=
  s.run_unlessRefused _ fun _ σ => σ.withAp { s.ap with g := clampCoef Num.b32 c }

theorem execEngConfigure_eq (sr : DWord) (hint : Int) :
    execEngConfigure sr hint s = unlessRefused (checkEngConfigure s.cfg sr hint)
      (s.withEng (s.eng.configure Num.b32 (biquadOf s.biquad) s.cfg sr)) :=
  s.run_unlessRefused _ fun H σ => σ.withEng (s.eng.configure H.num H.bq s.cfg sr)

theorem execEngSetDome_eq (a : Word) :
    execEngSetDome a s = unlessRefused (checkNotNaN a)
      (s.withEng (s.eng.setDome Num.b32 (biquadOf s.biquad) s.cfg a)) :=
  s.run_unlessRefused _ fun _ σ => σ.withEng (s.eng.setDome Num.b32 (biquadOf s.biquad) s.cfg a)

theorem execEngSetPreset_eq (id : Preset) :
    execEngSetPreset id s = .next (s.withEng (s.eng.setPreset Num.b32 (biquadOf s.biquad) s.cfg id)) := rfl

theorem execEngProcess_eq (ch ns : Nat) :
    execEngProcess ch ns s = unlessRefused (firstRefusal [checkChannels ch, checkEngConfigured s.eng])
      ((s.withEng (s.eng.process Num.b32 (biquadOf s.biquad) ch ns s.hb).1).withHb
        (s.eng.process Num.b32 (biquadOf s.biquad) ch ns s.hb).2) :=
  s.run_unlessRefused _ fun H σ =>
    (σ.withEng (s.eng.process H.num H.bq ch ns s.hb).1).withHb (s.eng.process H.num H.bq ch ns s.hb).2

theorem execEngClear_eq : execEngClear s = .next (s.withEng (s.eng.clear Num.b32 (biquadOf s.biquad))) := rfl

theorem execEngGetParam_eq (r : Nat) :
    execEngGetParam r s = match readParam Num.b32 s.eng r with
      | .ok w => .next { s with responses := s.responses ++ [(.eng, w)] }
      | .error reason => .refused reason := by
  have hN : s.hardware.num = Num.b32 := rfl
  simp only [execEngGetParam, State.run, Session.engGetParam, hN]
  cases readParam Num.b32 s.eng r <;> rfl

end Commands

/-! ## The biquads of this hardware -/

section Biquads

variable {S : Type} (p : BqProcess S)

/-- R253. -/
theorem BQ.ofProcess_resets : (BQ.ofProcess p).Resets Biquad.view := fun _ => ⟨rfl, rfl⟩

/-- BQ-RESET of R254. -/
theorem BQ.ofProcess_resetPure : (BQ.ofProcess p).ResetPure Biquad.view := by
  rintro ⟨c, m⟩ ⟨c', m'⟩ h
  cases (h : c = c')
  rfl

/-- BQ-SETCOEF-PURE of R254. -/
theorem BQ.ofProcess_setCoefPure : (BQ.ofProcess p).SetCoefPure Biquad.view := fun _ _ => ⟨rfl, fun _ => rfl⟩

/-- BQ-ZERO of R254 is a property of what the biquad computes. -/
theorem BQ.ofProcess_zero {Z : S → Prop} :
    (BQ.ofProcess p).Zero Biquad.view Z ↔ ∀ coef x, Z x → (p coef [] x).1 = [] ∧ Z (p coef [] x).2 := by
  constructor
  · exact fun h coef x hx => h ⟨coef, []⟩ x rfl hx
  · rintro h ⟨coef, m⟩ x hm hx
    cases (hm : m = [])
    exact h coef x hx

end Biquads

end Sys2Proof.Machine
end

