-- ==== Sys2Proof/Laws/Checks.lean ====
section
/-! SUPPORT. What a command's checks can do (spec/60_exceptions.md rules R272, R275, R280), each said once. -/

namespace Sys2Proof.Machine

/-- A checked effect answers a next state exactly when its check passes, and then that effect. -/
theorem unlessRefused_next {σ : Type} {c : Option Refusal} {e t : σ} :
    unlessRefused c e = .next t ↔ c = none ∧ t = e := by
  cases c <;> simp [unlessRefused, eq_comm]

/-- It is refused exactly when its check fails, with the check's reason. -/
theorem unlessRefused_refused {σ : Type} {c : Option Refusal} {e : σ} {r : Refusal} :
    unlessRefused c e = .refused r ↔ c = some r := by
  cases c <;> simp [unlessRefused]

@[simp] theorem unlessRefused_none {σ : Type} (e : σ) : unlessRefused none e = .next e := rfl
@[simp] theorem unlessRefused_some {σ : Type} (r : Refusal) (e : σ) : unlessRefused (some r) e = .refused r := rfl

@[simp] theorem firstRefusal_nil : firstRefusal [] = none := rfl
@[simp] theorem firstRefusal_some (r : Refusal) (l : List (Option Refusal)) : firstRefusal (some r :: l) = some r := rfl
@[simp] theorem firstRefusal_none (l : List (Option Refusal)) : firstRefusal (none :: l) = firstRefusal l := rfl

/-- Several checks pass exactly when each does. -/
theorem firstRefusal_eq_none {l : List (Option Refusal)} : firstRefusal l = none ↔ ∀ c ∈ l, c = none := by
  induction l with
  | nil => simp
  | cons c l ih => cases c <;> simp [ih]

theorem checkRate_eq_none {sr : DWord} : checkRate sr = none ↔ F64.isPositiveFinite sr = true := by
  simp [checkRate]

theorem checkMaxDelay_eq_none {ms : Word} :
    checkMaxDelay ms = none ↔ F32.isFinite ms = true ∧ F32.negative ms = false ∧ F32.isZero ms = false := by
  simp [checkMaxDelay, and_assoc]

theorem checkBlockSize_eq_none {hint : Int} : checkBlockSize hint = none ↔ 1 ≤ hint := by
  simp [checkBlockSize]

theorem checkChannels_eq_none {ch : Nat} : checkChannels ch = none ↔ ch = 1 ∨ ch = 2 := by
  simp [checkChannels]; omega

theorem checkNotNaN_eq_none {v : Word} : checkNotNaN v = none ↔ F32.isNaN v = false := by
  simp [checkNotNaN]

theorem checkBuffer_eq_none {D : DelayLine Word} : checkBuffer D = none ↔ D.cap ≠ 0 := by
  simp [checkBuffer]

theorem checkReady_eq_none {D : DelayLine Word} : checkReady D = none ↔ D.cap ≠ 0 ∧ D.n ≠ none := by
  unfold checkReady; split <;> simp [*]

theorem checkCapacity_eq_none {maxCap : Nat} {c : Int} : checkCapacity maxCap c = none ↔ 2 ≤ c ∧ c ≤ maxCap := by
  unfold checkCapacity
  split
  · simp; omega
  · split
    · simp; omega
    · simp; omega

theorem checkCapacities_eq_none {maxCap : Nat} {l : List Int} :
    checkCapacities maxCap l = none ↔ ∀ c ∈ l, 2 ≤ c ∧ c ≤ (maxCap : Int) := by
  induction l with
  | nil => simp [checkCapacities]
  | cons c l ih =>
    rw [List.forall_mem_cons, ← ih, ← checkCapacity_eq_none, checkCapacities]
    cases checkCapacity maxCap c <;> simp

theorem checkEngConfigured_eq_none {e : Engine32} : checkEngConfigured e = none ↔ e.configured = true := by
  simp [checkEngConfigured]

/-- When a unit's `CONFIGURE` goes ahead (R125). -/
theorem checkConfigure_eq_none {maxCap : Nat} {sr : DWord} {ms : Word} :
    checkConfigure maxCap sr ms = none ↔
      F64.isPositiveFinite sr = true ∧ (F32.isFinite ms = true ∧ F32.negative ms = false ∧ F32.isZero ms = false) ∧
        2 ≤ unitCapacity sr ms ∧ unitCapacity sr ms ≤ maxCap := by
  simp [checkConfigure, firstRefusal_eq_none, checkRate_eq_none, checkMaxDelay_eq_none, checkCapacity_eq_none]

/-- When `ENG.CONFIGURE` goes ahead (R181). -/
theorem checkEngConfigure_eq_none {cfg : Params Word} {sr : DWord} {hint : Int} :
    checkEngConfigure cfg sr hint = none ↔
      F64.isPositiveFinite sr = true ∧ 1 ≤ hint ∧
        ∀ m ∈ lineMaxima cfg, 2 ≤ capacityOf m sr ∧ capacityOf m sr ≤ cfg.maxCap := by
  simp [checkEngConfigure, firstRefusal_eq_none, checkRate_eq_none, checkBlockSize_eq_none, checkCapacities_eq_none]

/-- Under `NUM_B32` every register is answered as a word (R93). -/
theorem readParam_word {e : Engine32} {r : Nat} {w : Response Word} (h : readParam Num.b32 e r = .ok w) : ∃ v, w = .word v := by
  cases w with
  | word v => exact ⟨v, rfl⟩
  | number v =>
    unfold readParam at h
    split at h <;> first | cases h | (unfold readOrUnset at h; split at h <;> cases h)

/-- No command faults: there is nothing to fault with (R270). -/
theorem no_fault (f : Fault) : False := nomatch f

end Sys2Proof.Machine
end

