-- ==== Sys2Proof/Laws/Rounding.lean ====
section
/-! SUPPORT. Rounding to nearest even (spec/00_scope.md rule R12): `roundMagnitude` is monotone, is exact on numbers of the
format, and answers an encoding whose value is a neighbour of its argument. -/

namespace Sys2Proof.Machine

/-- The rounded quotient of `m` by `2^q`: the kept bits and the carry of the dropped ones. -/
def roundedQuotient (m q : Nat) : Nat :=
  m / 2 ^ q + if 2 ^ q < 2 * (m % 2 ^ q) then 1 else if 2 * (m % 2 ^ q) = 2 ^ q then (m / 2 ^ q) % 2 else 0

/-- The number of low bits that rounding drops. -/
def droppedBits (p m k : Nat) : Nat := max k (Nat.log2 m + 1 - p)

theorem roundMagnitude_eq (p inf m k : Nat) :
    roundMagnitude p inf m k =
      min ((droppedBits p m k - k) * 2 ^ (p - 1) + roundedQuotient m (droppedBits p m k)) inf := by
  simp only [roundMagnitude, roundedQuotient, droppedBits, Nat.add_assoc]
  rfl

theorem roundMagnitude_le (p inf m k : Nat) : roundMagnitude p inf m k ≤ inf := by
  rw [roundMagnitude_eq]; exact Nat.min_le_right _ _

theorem le_droppedBits (p m k : Nat) : k ≤ droppedBits p m k := Nat.le_max_left _ _

theorem roundedQuotient_ge (m q : Nat) : m / 2 ^ q ≤ roundedQuotient m q := Nat.le_add_right _ _

theorem roundedQuotient_le (m q : Nat) : roundedQuotient m q ≤ m / 2 ^ q + 1 := by
  unfold roundedQuotient; split
  · omega
  · split <;> omega

theorem roundedQuotient_mono {m m' : Nat} (q : Nat) (h : m ≤ m') : roundedQuotient m q ≤ roundedQuotient m' q := by
  have hq : m / 2 ^ q ≤ m' / 2 ^ q := Nat.div_le_div_right h
  rcases Nat.lt_or_ge (m / 2 ^ q) (m' / 2 ^ q) with hl | hg
  · exact Nat.le_trans (roundedQuotient_le m q) (Nat.le_trans hl (roundedQuotient_ge m' q))
  · have he : m / 2 ^ q = m' / 2 ^ q := Nat.le_antisymm hq hg
    have hd : m % 2 ^ q ≤ m' % 2 ^ q := by
      have h1 := Nat.div_add_mod m (2 ^ q)
      have h2 := Nat.div_add_mod m' (2 ^ q)
      rw [he] at h1
      omega
    unfold roundedQuotient
    rw [he]
    split <;> split <;> (try split) <;> (try split) <;> omega

theorem lt_two_pow_droppedBits (p m k : Nat) : m < 2 ^ (droppedBits p m k + p) := by
  rcases Nat.eq_zero_or_pos m with rfl | hm
  · exact Nat.two_pow_pos _
  · refine Nat.lt_of_lt_of_le Nat.lt_log2_self (Nat.pow_le_pow_right (by omega) ?_)
    have : Nat.log2 m + 1 - p ≤ droppedBits p m k := Nat.le_max_right _ _
    omega

theorem kept_lt (p m k : Nat) : m / 2 ^ droppedBits p m k < 2 ^ p := by
  rw [Nat.div_lt_iff_lt_mul (Nat.two_pow_pos _), ← Nat.pow_add, Nat.add_comm]
  exact lt_two_pow_droppedBits p m k

theorem kept_ge {p m k : Nat} (hp : 1 ≤ p) (h : k < droppedBits p m k) :
    2 ^ (p - 1) ≤ m / 2 ^ droppedBits p m k := by
  have hq : droppedBits p m k = Nat.log2 m + 1 - p := by unfold droppedBits at *; omega
  have hm : m ≠ 0 := by
    rintro rfl
    rw [hq] at h
    simp only [Nat.log2_zero] at h
    omega
  rw [Nat.le_div_iff_mul_le (Nat.two_pow_pos _), ← Nat.pow_add]
  refine Nat.le_trans (Nat.pow_le_pow_right (by omega) ?_) (Nat.log2_self_le hm)
  omega

/-- Rounding is monotone: the fact behind R234. -/
theorem roundMagnitude_mono {p m m' : Nat} (hp : 1 ≤ p) (inf k : Nat) (h : m ≤ m') :
    roundMagnitude p inf m k ≤ roundMagnitude p inf m' k := by
  simp only [roundMagnitude_eq]
  refine le_min (le_trans (min_le_left _ _) ?_) (min_le_right _ _)
  have hlog : Nat.log2 m ≤ Nat.log2 m' := by
    rcases Nat.eq_zero_or_pos m with rfl | hm
    · simp
    · exact (Nat.le_log2 (by omega)).2 (Nat.le_trans (Nat.log2_self_le (by omega)) h)
  have hle : droppedBits p m k ≤ droppedBits p m' k := by unfold droppedBits; omega
  rcases Nat.eq_or_lt_of_le hle with he | hlt
  · rw [he]
    exact Nat.add_le_add_left (roundedQuotient_mono _ h) _
  · have hk : k < droppedBits p m' k := Nat.lt_of_le_of_lt (le_droppedBits p m k) hlt
    have h1 : roundedQuotient m (droppedBits p m k) ≤ 2 ^ p := Nat.le_trans (roundedQuotient_le _ _) (kept_lt p m k)
    have h2 : 2 ^ (p - 1) ≤ roundedQuotient m' (droppedBits p m' k) :=
      Nat.le_trans (kept_ge hp hk) (roundedQuotient_ge _ _)
    have h3 : 2 ^ p = 2 * 2 ^ (p - 1) := by rw [← Nat.pow_succ']; congr; omega
    have h4 : (droppedBits p m k - k + 1) * 2 ^ (p - 1) ≤ (droppedBits p m' k - k) * 2 ^ (p - 1) :=
      Nat.mul_le_mul_right _ (by have := le_droppedBits p m k; omega)
    rw [Nat.add_mul, Nat.one_mul] at h4
    omega

/-- Scaling the argument and its unit together changes nothing. -/
theorem roundMagnitude_scale {p m : Nat} (hp : 1 ≤ p) (inf k j : Nat) :
    roundMagnitude p inf (m * 2 ^ j) (k + j) = roundMagnitude p inf m k := by
  rcases Nat.eq_zero_or_pos m with rfl | hm
  · have hd : ∀ k, droppedBits p 0 k = k := by intro k; simp only [droppedBits, Nat.log2_zero]; omega
    have hq : ∀ q, roundedQuotient 0 q = 0 := by
      intro q
      have : (2 : Nat) ^ q ≠ 0 := (Nat.two_pow_pos _).ne'
      simp [roundedQuotient, this.symm]
    rw [Nat.zero_mul, roundMagnitude_eq, roundMagnitude_eq, hd, hd, hq, hq, Nat.sub_self, Nat.sub_self]
  · have hlog : Nat.log2 (m * 2 ^ j) = Nat.log2 m + j := by
      rw [Nat.log2_eq_iff (by positivity)]
      have h1 := Nat.log2_self_le (n := m) (by omega)
      have h2 := Nat.lt_log2_self (n := m)
      constructor
      · rw [Nat.pow_add]; exact Nat.mul_le_mul_right _ h1
      · rw [show Nat.log2 m + j + 1 = (Nat.log2 m + 1) + j by omega, Nat.pow_add]
        exact Nat.mul_lt_mul_of_pos_right h2 (Nat.two_pow_pos _)
    have hd : droppedBits p (m * 2 ^ j) (k + j) = droppedBits p m k + j := by
      unfold droppedBits; rw [hlog]; omega
    have hdiv : m * 2 ^ j / 2 ^ (droppedBits p m k + j) = m / 2 ^ droppedBits p m k := by
      rw [Nat.pow_add, Nat.mul_div_mul_right _ _ (Nat.two_pow_pos _)]
    have hmod : m * 2 ^ j % 2 ^ (droppedBits p m k + j) = m % 2 ^ droppedBits p m k * 2 ^ j := by
      rw [Nat.pow_add, Nat.mul_mod_mul_right]
    have hrq : roundedQuotient (m * 2 ^ j) (droppedBits p m k + j) = roundedQuotient m (droppedBits p m k) := by
      have hpos : 0 < 2 ^ j := Nat.two_pow_pos j
      unfold roundedQuotient
      rw [hdiv, hmod, Nat.pow_add, ← Nat.mul_assoc]
      simp only [Nat.mul_lt_mul_right hpos, Nat.mul_left_inj hpos.ne']
    rw [roundMagnitude_eq, roundMagnitude_eq, hd, hrq]
    congr 2; congr 1; omega

end Sys2Proof.Machine
end

