-- ==== Sys2Proof/Laws/Float.lean ====
section
/-! SUPPORT. binary32 (spec/00_scope.md rule R12): the parts of an encoding, which results are numbers, the order, the clamps
(spec/60_exceptions.md rule R278), and exactness on representable results. -/

namespace Sys2Proof.Machine

namespace F32

/-! ## Parts of an encoding -/

theorem magnitude_lt (w : Word) : magnitude w < 2 ^ 31 := Nat.mod_lt _ (by decide)

theorem pack_toNat {neg : Bool} {bits : Nat} (h : bits < 2 ^ 31) :
    (pack neg bits).toNat = bits + if neg then 2 ^ 31 else 0 := by
  unfold pack
  rw [BitVec.toNat_ofNat, Nat.mod_eq_of_lt]
  split <;> omega

@[simp] theorem magnitude_pack {neg : Bool} {bits : Nat} (h : bits < 2 ^ 31) : magnitude (pack neg bits) = bits := by
  unfold magnitude
  rw [pack_toNat h]
  split <;> omega

@[simp] theorem negative_pack {neg : Bool} {bits : Nat} (h : bits < 2 ^ 31) : negative (pack neg bits) = neg := by
  unfold negative
  rw [BitVec.msb_eq_decide, pack_toNat h]
  cases neg <;> simp
  omega

/-- An encoding is its sign and its magnitude. -/
theorem pack_self (w : Word) : pack (negative w) (magnitude w) = w := by
  apply BitVec.eq_of_toNat_eq
  rw [pack_toNat (magnitude_lt w)]
  unfold magnitude negative
  rw [BitVec.msb_eq_decide]
  have := w.isLt
  simp only [decide_eq_true_eq]
  split <;> omega

/-- Two encodings with the same sign and magnitude are the same. -/
theorem ext {a b : Word} (hs : negative a = negative b) (hm : magnitude a = magnitude b) : a = b := by
  rw [← pack_self a, ← pack_self b, hs, hm]

theorem isNaN_iff {w : Word} : isNaN w = true ↔ infBits < magnitude w := by simp [isNaN]
theorem not_isNaN_iff {w : Word} : isNaN w = false ↔ magnitude w ≤ infBits := by simp [isNaN]
theorem isInf_iff {w : Word} : isInf w = true ↔ magnitude w = infBits := by simp [isInf]
theorem isFinite_iff {w : Word} : isFinite w = true ↔ magnitude w < infBits := by simp [isFinite]
theorem isZero_iff {w : Word} : isZero w = true ↔ magnitude w = 0 := by simp [isZero]

theorem not_isNaN_of_isFinite {w : Word} (h : isFinite w = true) : isNaN w = false :=
  not_isNaN_iff.2 (Nat.le_of_lt (isFinite_iff.1 h))

theorem not_isInf_of_isFinite {w : Word} (h : isFinite w = true) : isInf w = false := by
  simpa [isInf] using (Nat.ne_of_lt (isFinite_iff.1 h))

theorem isFinite_of_isZero {w : Word} (h : isZero w = true) : isFinite w = true :=
  isFinite_iff.2 (by rw [isZero_iff.1 h]; decide)

/-- A number that is neither NaN nor infinite is finite. -/
theorem isFinite_of_not {w : Word} (hn : isNaN w = false) (hi : isInf w = false) : isFinite w = true := by
  rw [isFinite_iff]
  rw [not_isNaN_iff] at hn
  have : ¬ magnitude w = infBits := by simpa [isInf] using hi
  omega

@[simp] theorem isNaN_pack {neg : Bool} {bits : Nat} (h : bits ≤ infBits) : isNaN (pack neg bits) = false := by
  rw [not_isNaN_iff, magnitude_pack (Nat.lt_of_le_of_lt h (by decide))]; exact h

theorem round_magnitude (neg : Bool) (mag k : Nat) :
    magnitude (round neg mag k) = roundMagnitude 24 infBits mag k :=
  magnitude_pack (Nat.lt_of_le_of_lt (roundMagnitude_le _ _ _ _) (by decide))

theorem round_negative (neg : Bool) (mag k : Nat) : negative (round neg mag k) = neg :=
  negative_pack (Nat.lt_of_le_of_lt (roundMagnitude_le _ _ _ _) (by decide))

/-- Rounding an exact result never makes a NaN. -/
@[simp] theorem isNaN_round (neg : Bool) (mag k : Nat) : isNaN (round neg mag k) = false :=
  isNaN_pack (roundMagnitude_le _ _ _ _)

/-! ## Values -/

/-- `scaledOf` on an encoding written as exponent and significand. -/
theorem scaledOf_parts {e n : Nat} (h1 : n ≤ 2 ^ 24) (h2 : e = 0 ∨ 2 ^ 23 ≤ n) :
    scaledOf (e * 2 ^ 23 + n) = n * 2 ^ e := by
  unfold scaledOf
  rcases Nat.lt_or_ge n (2 ^ 23) with hn | hn
  · obtain rfl : e = 0 := by omega
    have : (0 * 2 ^ 23 + n) / 2 ^ 23 = 0 := by omega
    rw [if_pos this]; omega
  · rcases Nat.lt_or_ge n (2 ^ 24) with hn' | hn'
    · have hd : (e * 2 ^ 23 + n) / 2 ^ 23 = e + 1 := by omega
      have hm : (e * 2 ^ 23 + n) % 2 ^ 23 = n - 2 ^ 23 := by omega
      rw [hd, hm, if_neg (by omega), Nat.sub_add_cancel hn, Nat.add_sub_cancel]
    · obtain rfl : n = 2 ^ 24 := by omega
      have hd : (e * 2 ^ 23 + 2 ^ 24) / 2 ^ 23 = e + 2 := by omega
      have hm : (e * 2 ^ 23 + 2 ^ 24) % 2 ^ 23 = 0 := by omega
      rw [hd, hm, if_neg (by omega), show e + 2 - 1 = e + 1 by omega, Nat.pow_succ]
      ring

/-- Every sign-less encoding is of that form. -/
theorem exists_parts (m : Nat) : ∃ e n, m = e * 2 ^ 23 + n ∧ n < 2 ^ 24 ∧ (e = 0 ∨ 2 ^ 23 ≤ n) := by
  rcases Nat.lt_or_ge m (2 ^ 23) with h | h
  · exact ⟨0, m, by omega, by omega, .inl rfl⟩
  · exact ⟨m / 2 ^ 23 - 1, m % 2 ^ 23 + 2 ^ 23, by omega, by omega, .inr (by omega)⟩

/-- A larger encoding stands for a larger number. -/
theorem scaledOf_lt {m m' : Nat} (h : m < m') : scaledOf m < scaledOf m' := by
  obtain ⟨e, n, rfl, hn, he⟩ := exists_parts m
  obtain ⟨e', n', rfl, hn', he'⟩ := exists_parts m'
  rw [scaledOf_parts (Nat.le_of_lt hn) he, scaledOf_parts (Nat.le_of_lt hn') he']
  rcases Nat.lt_trichotomy e e' with hl | rfl | hg
  · have hn2 : 2 ^ 23 ≤ n' := by omega
    calc n * 2 ^ e < 2 ^ 24 * 2 ^ e := Nat.mul_lt_mul_of_pos_right hn (Nat.two_pow_pos _)
      _ = 2 ^ 23 * 2 ^ (e + 1) := by rw [Nat.pow_succ]; ring
      _ ≤ n' * 2 ^ e' := Nat.mul_le_mul hn2 (Nat.pow_le_pow_right (by decide) hl)
  · exact Nat.mul_lt_mul_of_pos_right (by omega) (Nat.two_pow_pos _)
  · exfalso
    have : 2 ^ 23 ≤ n := by omega
    omega

theorem scaledOf_le_iff {m m' : Nat} : scaledOf m ≤ scaledOf m' ↔ m ≤ m' := by
  constructor
  · intro h
    by_contra hc
    exact absurd (scaledOf_lt (Nat.lt_of_not_le hc)) (Nat.not_lt_of_le h)
  · intro h
    rcases Nat.eq_or_lt_of_le h with rfl | hl
    · exact Nat.le_refl _
    · exact Nat.le_of_lt (scaledOf_lt hl)

@[simp] theorem scaledOf_zero : scaledOf 0 = 0 := by decide

theorem scaledOf_eq_zero {m : Nat} : scaledOf m = 0 ↔ m = 0 := by
  constructor
  · intro h
    by_contra hm
    have := scaledOf_lt (Nat.pos_of_ne_zero hm)
    omega
  · rintro rfl; rfl

/-- Rounding a number of the format gives it back. -/
theorem roundMagnitude_scaledOf {m : Nat} (h : m ≤ infBits) : roundMagnitude 24 infBits (scaledOf m) 0 = m := by
  obtain ⟨e, n, rfl, hn, he⟩ := exists_parts m
  rw [scaledOf_parts (Nat.le_of_lt hn) he]
  have hd : droppedBits 24 (n * 2 ^ e) 0 = e := by
    unfold droppedBits
    rcases Nat.eq_zero_or_pos n with rfl | hpos
    · have : e = 0 := by omega
      subst this; decide
    · have hlog : Nat.log2 (n * 2 ^ e) = Nat.log2 n + e := by
        rw [Nat.log2_eq_iff (by positivity)]
        have h1 := Nat.log2_self_le (n := n) (by omega)
        have h2 := Nat.lt_log2_self (n := n)
        constructor
        · rw [Nat.pow_add]; exact Nat.mul_le_mul_right _ h1
        · rw [show Nat.log2 n + e + 1 = (Nat.log2 n + 1) + e by omega, Nat.pow_add]
          exact Nat.mul_lt_mul_of_pos_right h2 (Nat.two_pow_pos _)
      have hl : Nat.log2 n < 24 := (Nat.log2_lt (by omega)).2 hn
      rw [hlog]
      rcases he with rfl | hn2
      · omega
      · have : 23 ≤ Nat.log2 n := (Nat.le_log2 (by omega)).2 hn2
        omega
  have hpos : 2 ^ e ≠ 0 := (Nat.two_pow_pos e).ne'
  have hr : roundedQuotient (n * 2 ^ e) e = n := by
    unfold roundedQuotient
    rw [Nat.mul_mod_left, Nat.mul_div_cancel _ (Nat.two_pow_pos e)]
    simp [hpos.symm]
  rw [roundMagnitude_eq, hd, hr, Nat.sub_zero]
  exact Nat.min_eq_left h

/-- What a rounded result that is not infinite stands for: the rounded quotient in units of what was dropped. -/
theorem scaledOf_roundMagnitude {mag k : Nat} (h : roundMagnitude 24 infBits mag k < infBits) :
    scaledOf (roundMagnitude 24 infBits mag k) =
      roundedQuotient mag (droppedBits 24 mag k) * 2 ^ (droppedBits 24 mag k - k) := by
  rw [roundMagnitude_eq] at *
  have hlt : (droppedBits 24 mag k - k) * 2 ^ (24 - 1) + roundedQuotient mag (droppedBits 24 mag k) < infBits := by omega
  rw [Nat.min_eq_left (Nat.le_of_lt hlt)]
  refine scaledOf_parts ?_ ?_
  · exact Nat.le_trans (roundedQuotient_le _ _) (kept_lt 24 mag k)
  · rcases Nat.eq_or_lt_of_le (le_droppedBits 24 mag k) with he | hl
    · left; omega
    · right; exact Nat.le_trans (kept_ge (by decide) hl) (roundedQuotient_ge _ _)

/-! ## Which results are numbers -/

theorem isNaN_addFinite (a b : Word) : isNaN (addFinite a b) = false := by
  simp only [addFinite]
  split
  · exact isNaN_pack (by decide)
  · exact isNaN_round _ _ _

/-- A finite number plus any number is a number. -/
theorem isNaN_add {a b : Word} (ha : isFinite a = true) (hb : isNaN b = false) : isNaN (add a b) = false := by
  simp only [add, addOrdered, not_isNaN_of_isFinite ha, hb, not_isInf_of_isFinite ha, Bool.or_self, Bool.false_eq_true,
    if_false]
  split
  · exact hb
  · exact isNaN_addFinite a b

@[simp] theorem magnitude_neg (a : Word) : magnitude (neg a) = magnitude a := by
  have h : ∀ w : Word, magnitude w = (w.setWidth 31).toNat := by
    intro w; simp [magnitude, BitVec.toNat_setWidth]
  rw [h, h, neg, BitVec.setWidth_xor]
  simp

@[simp] theorem negative_neg (a : Word) : negative (neg a) = !negative a := by
  have h : (0x80000000#32 : Word).msb = true := by decide
  rw [negative, neg, BitVec.msb_xor, h, Bool.xor_true]; rfl

/-- A finite number less any number is a number. -/
theorem isNaN_sub {a b : Word} (ha : isFinite a = true) (hb : isNaN b = false) : isNaN (sub a b) = false := by
  have hb' : isNaN (neg b) = false := by rw [not_isNaN_iff] at *; simpa using hb
  simp only [sub, addOrdered, not_isNaN_of_isFinite ha, hb, not_isInf_of_isFinite ha, Bool.or_self, Bool.false_eq_true,
    if_false]
  split
  · exact hb'
  · exact isNaN_addFinite a _

theorem mul_of_finite {a b : Word} (ha : isFinite a = true) (hb : isFinite b = true) :
    mul a b = round (negative a != negative b) (scaledMagnitude a * scaledMagnitude b) 149 := by
  simp [mul, not_isNaN_of_isFinite ha, not_isNaN_of_isFinite hb, not_isInf_of_isFinite ha, not_isInf_of_isFinite hb]

theorem add_of_finite {a b : Word} (ha : isFinite a = true) (hb : isFinite b = true) : add a b = addFinite a b := by
  simp [add, addOrdered, not_isNaN_of_isFinite ha, not_isNaN_of_isFinite hb, not_isInf_of_isFinite ha,
    not_isInf_of_isFinite hb]

theorem isFinite_neg {b : Word} (hb : isFinite b = true) : isFinite (neg b) = true := by
  rw [isFinite_iff] at *; simpa using hb

theorem sub_of_finite {a b : Word} (ha : isFinite a = true) (hb : isFinite b = true) :
    sub a b = addFinite a (neg b) := by
  simp [sub, addOrdered, not_isNaN_of_isFinite ha, not_isNaN_of_isFinite hb, not_isInf_of_isFinite ha,
    not_isInf_of_isFinite (isFinite_neg hb)]

/-- The product of finite numbers is a number. -/
theorem isNaN_mul {a b : Word} (ha : isFinite a = true) (hb : isFinite b = true) : isNaN (mul a b) = false := by
  rw [mul_of_finite ha hb]; exact isNaN_round _ _ _

/-! ## The order -/

theorem le_iff {a b : Word} :
    le a b = true ↔ isNaN a = false ∧ isNaN b = false ∧ orderKey a ≤ orderKey b := by
  simp [le, and_assoc]

theorem lt_iff {a b : Word} :
    lt a b = true ↔ isNaN a = false ∧ isNaN b = false ∧ orderKey a < orderKey b := by
  simp [lt, and_assoc]

theorem le_refl {a : Word} (h : isNaN a = false) : le a a = true := le_iff.2 ⟨h, h, Int.le_refl _⟩

theorem le_trans {a b c : Word} (h1 : le a b = true) (h2 : le b c = true) : le a c = true := by
  rw [le_iff] at *
  exact ⟨h1.1, h2.2.1, Int.le_trans h1.2.2 h2.2.2⟩

theorem orderKey_of_isZero {w : Word} (h : isZero w = true) : orderKey w = 0 := by
  simp [orderKey, isZero_iff.1 h]

theorem isZero_pack_zero (neg : Bool) : isZero (pack neg 0) = true := by
  rw [isZero_iff, magnitude_pack (by decide)]

/-- A non-negative encoding's place in the order. -/
theorem orderKey_nonneg_iff {w : Word} : 0 ≤ orderKey w ↔ negative w = false ∨ isZero w = true := by
  rw [isZero_iff]
  unfold orderKey
  cases hn : negative w <;> simp

/-- The clamps of R278: whatever the operand but a NaN, the result lies between the bounds. -/
theorem clamp_inRange {v lo hi : Word} (hv : isNaN v = false) (hlh : le lo hi = true) :
    le lo (clamp v lo hi) = true ∧ le (clamp v lo hi) hi = true := by
  obtain ⟨hlo, hhi, hk⟩ := le_iff.1 hlh
  unfold clamp
  rw [if_neg (by simp [hv])]
  split
  · next hlt =>
    split
    · next hz =>
      have hz2 := isZero_pack_zero (Config.clampZeroSign v lo hi)
      have hn : isNaN (pack (Config.clampZeroSign v lo hi) 0) = false := isNaN_pack (by decide)
      rw [le_iff, le_iff, orderKey_of_isZero hz2]
      rw [orderKey_of_isZero hz] at *
      exact ⟨⟨hlo, hn, Int.le_refl _⟩, hn, hhi, hk⟩
    · exact ⟨le_refl hlo, hlh⟩
  · next hnl =>
    have hge : orderKey lo ≤ orderKey v := by
      by_contra hc
      exact hnl (lt_iff.2 ⟨hv, hlo, by omega⟩)
    split
    · exact ⟨hlh, le_refl hhi⟩
    · next hnh =>
      have hle : orderKey v ≤ orderKey hi := by
        by_contra hc
        exact hnh (lt_iff.2 ⟨hhi, hv, by omega⟩)
      split
      · next hz =>
        have hzv : isZero v = true := (Bool.and_eq_true_iff.1 hz).1
        have hz2 := isZero_pack_zero (Config.clampZeroSign v lo hi)
        have hn : isNaN (pack (Config.clampZeroSign v lo hi) 0) = false := isNaN_pack (by decide)
        rw [le_iff, le_iff, orderKey_of_isZero hz2]
        rw [orderKey_of_isZero hzv] at *
        exact ⟨⟨hlo, hn, hge⟩, hn, hhi, hle⟩
      · exact ⟨le_iff.2 ⟨hlo, hv, hge⟩, le_iff.2 ⟨hv, hhi, hle⟩⟩

/-- A clamp leaves a value in range alone, but for the sign of a zero. -/
theorem clamp_of_inRange {v lo hi : Word} (hl : le lo v = true) (hh : le v hi = true) :
    clamp v lo hi = v ∨ isZero v = true ∧ isZero (clamp v lo hi) = true := by
  obtain ⟨hlo, hv, hk⟩ := le_iff.1 hl
  obtain ⟨-, hhi, hk'⟩ := le_iff.1 hh
  have h1 : lt v lo = false := by rw [Bool.eq_false_iff]; intro h; have := (lt_iff.1 h).2.2; omega
  have h2 : lt hi v = false := by rw [Bool.eq_false_iff]; intro h; have := (lt_iff.1 h).2.2; omega
  unfold clamp
  simp only [hv, h1, h2, Bool.false_eq_true, if_false]
  split
  · next hz => exact .inr ⟨(Bool.and_eq_true_iff.1 hz).1, isZero_pack_zero _⟩
  · exact .inl rfl

/-! ## The order is that of the numbers -/

/-- A place in the order, as a number in units of `2^-149`. -/
def scaledKey (k : Int) : Int := if k < 0 then -(scaledOf k.natAbs : Int) else (scaledOf k.natAbs : Int)

theorem scaled_eq_scaledKey (w : Word) : scaled w = scaledKey (orderKey w) := by
  unfold scaled orderKey scaledKey scaledMagnitude
  cases negative w
  · simp
  · rcases Nat.eq_zero_or_pos (magnitude w) with h | h
    · simp [h]
    · simp [h]

theorem scaledKey_lt {k l : Int} (h : k < l) : scaledKey k < scaledKey l := by
  have h0 := scaledOf_zero
  unfold scaledKey
  split
  · have hk : scaledOf 0 < scaledOf k.natAbs := scaledOf_lt (by omega)
    split
    · have := scaledOf_lt (m := l.natAbs) (m' := k.natAbs) (by omega)
      omega
    · omega
  · rw [if_neg (by omega)]
    have := scaledOf_lt (m := k.natAbs) (m' := l.natAbs) (by omega)
    omega

/-- The order of encodings is the order of the numbers they stand for. -/
theorem scaled_le_iff {a b : Word} : scaled a ≤ scaled b ↔ orderKey a ≤ orderKey b := by
  rw [scaled_eq_scaledKey, scaled_eq_scaledKey]
  constructor
  · intro h
    by_contra hc
    exact absurd (scaledKey_lt (Int.not_le.1 hc)) (Int.not_lt.2 h)
  · intro h
    rcases Int.lt_or_eq_of_le h with h | h
    · exact Int.le_of_lt (scaledKey_lt h)
    · rw [h]

theorem toRat_of_finite {w : Word} (h : isFinite w = true) : toRat w = (scaled w : ℚ) / 2 ^ 149 := by
  unfold toRat; rw [if_pos h, Rat.mkRat_eq_div]; norm_num

/-! ## Exact results -/

theorem scaled_of_isZero {z : Word} (hz : isZero z = true) : scaled z = 0 := by
  simp [scaled, scaledMagnitude, isZero_iff.1 hz]

theorem scaled_ne_zero {a : Word} (hz : isZero a = false) : scaled a ≠ 0 := by
  have h : magnitude a ≠ 0 := by intro h; rw [isZero_iff.2 h] at hz; cases hz
  have : scaledMagnitude a ≠ 0 := fun h2 => h (scaledOf_eq_zero.1 h2)
  unfold scaled; split <;> omega

theorem natAbs_scaled (a : Word) : (scaled a).natAbs = scaledMagnitude a := by
  unfold scaled; split <;> simp

/-- A number of the format is what its exact value rounds to. -/
theorem round_scaled {a : Word} (ha : isFinite a = true) (hz : isZero a = false) :
    round (decide (scaled a < 0)) (scaled a).natAbs 0 = a := by
  have hn := scaled_ne_zero hz
  apply ext
  · rw [round_negative]
    unfold scaled at *
    cases h : negative a <;> simp_all
    omega
  · rw [round_magnitude, natAbs_scaled]
    exact roundMagnitude_scaledOf (Nat.le_of_lt (isFinite_iff.1 ha))

/-- `y * 1 = y` (R148(b)). -/
theorem mul_unit {a : Word} (ha : isFinite a = true) : mul a 0x3F800000#32 = a := by
  rw [mul_of_finite ha (by decide)]
  have h1 : scaledMagnitude 0x3F800000#32 = 1 * 2 ^ 149 := by decide
  have h2 := roundMagnitude_scale (p := 24) (m := scaledMagnitude a) (by decide) infBits 0 149
  rw [Nat.zero_add] at h2
  rw [h1, Nat.one_mul]
  apply ext
  · rw [round_negative, show negative 0x3F800000#32 = false by decide]; simp
  · rw [round_magnitude, h2]
    exact roundMagnitude_scaledOf (Nat.le_of_lt (isFinite_iff.1 ha))

/-- `s * 0 = ±0` for a finite `s` (R148(b)). -/
theorem isZero_mul {a z : Word} (ha : isFinite a = true) (hz : isZero z = true) : isZero (mul a z) = true := by
  rw [mul_of_finite ha (isFinite_of_isZero hz)]
  have h1 : scaledMagnitude z = 0 := by simp [scaledMagnitude, isZero_iff.1 hz]
  rw [h1, Nat.mul_zero, isZero_iff, round_magnitude]
  decide +kernel

theorem isZero_mul_left {a z : Word} (ha : isFinite a = true) (hz : isZero z = true) : isZero (mul z a) = true := by
  rw [mul_of_finite (isFinite_of_isZero hz) ha]
  have h1 : scaledMagnitude z = 0 := by simp [scaledMagnitude, isZero_iff.1 hz]
  rw [h1, Nat.zero_mul, isZero_iff, round_magnitude]
  decide +kernel

/-- `y + (±0) = y` for a finite `y` that is not zero (R148(b)). -/
theorem add_isZero {a z : Word} (ha : isFinite a = true) (hz : isZero z = true) (hn : isZero a = false) :
    add a z = a := by
  rw [add_of_finite ha (isFinite_of_isZero hz)]
  simp only [addFinite, scaled_of_isZero hz, Int.add_zero, if_neg (scaled_ne_zero hn)]
  exact round_scaled ha hn

theorem isZero_add_left {a z : Word} (ha : isFinite a = true) (hz : isZero z = true) (hn : isZero a = false) :
    add z a = a := by
  rw [add_of_finite (isFinite_of_isZero hz) ha]
  simp only [addFinite, scaled_of_isZero hz, Int.zero_add, if_neg (scaled_ne_zero hn)]
  exact round_scaled ha hn

/-- Zeros add up to a zero (R148(b), (d)). -/
theorem isZero_add {y z : Word} (hy : isZero y = true) (hz : isZero z = true) : isZero (add y z) = true := by
  rw [add_of_finite (isFinite_of_isZero hy) (isFinite_of_isZero hz)]
  simp only [addFinite, scaled_of_isZero hy, scaled_of_isZero hz, Int.add_zero, if_true]
  exact isZero_pack_zero _

theorem isZero_neg {z : Word} (hz : isZero z = true) : isZero (neg z) = true := by
  rw [isZero_iff] at *; simpa using hz

theorem isZero_sub {y z : Word} (hy : isZero y = true) (hz : isZero z = true) : isZero (sub y z) = true := by
  rw [sub_of_finite (isFinite_of_isZero hy) (isFinite_of_isZero hz), ← add_of_finite (isFinite_of_isZero hy)
    (isFinite_neg (isFinite_of_isZero hz))]
  exact isZero_add hy (isZero_neg hz)

/-- Which finite encodings stand for numbers above zero (R125). -/
theorem toRat_pos_iff {w : Word} (h : isFinite w = true) : 0 < toRat w ↔ negative w = false ∧ isZero w = false := by
  unfold toRat
  rw [if_pos h, Rat.mkRat_eq_div]
  have hp : (0 : ℚ) < ((2 ^ 149 : ℕ) : ℚ) := by positivity
  rw [div_pos_iff_of_pos_right hp, Int.cast_pos]
  have hz : isZero w = false ↔ scaledOf (magnitude w) ≠ 0 := by
    rw [Ne, scaledOf_eq_zero, ← isZero_iff]; simp
  rw [hz]
  unfold scaled scaledMagnitude
  cases negative w
  · simp
    omega
  · simp

/-! ## `NUM_B32` is these operations -/

end F32

@[simp] theorem b32_zero : Num.b32.zero = 0#32 := rfl
@[simp] theorem b32_ofDecimal (q : Rat) : Num.b32.ofDecimal q = F32.ofRat q := rfl
@[simp] theorem b32_toRat (w : Word) : Num.b32.toRat w = F32.toRat w := rfl
@[simp] theorem b32_add (a b : Word) : Num.b32.add a b = F32.add a b := rfl
@[simp] theorem b32_sub (a b : Word) : Num.b32.sub a b = F32.sub a b := rfl
@[simp] theorem b32_mul (a b : Word) : Num.b32.mul a b = F32.mul a b := rfl
@[simp] theorem b32_neg (a : Word) : Num.b32.neg a = F32.neg a := rfl
@[simp] theorem b32_le (a b : Word) : Num.b32.le a b = F32.le a b := rfl
@[simp] theorem b32_clamp (v lo hi : Word) : Num.b32.clamp v lo hi = F32.clamp v lo hi := rfl

@[simp] theorem ideal_zero : Num.ideal.zero = 0 := rfl
@[simp] theorem ideal_ofDecimal (q : Rat) : Num.ideal.ofDecimal q = q := rfl
@[simp] theorem ideal_toRat (q : Rat) : Num.ideal.toRat q = q := rfl
@[simp] theorem ideal_add (a b : Rat) : Num.ideal.add a b = a + b := rfl
@[simp] theorem ideal_sub (a b : Rat) : Num.ideal.sub a b = a - b := rfl
@[simp] theorem ideal_mul (a b : Rat) : Num.ideal.mul a b = a * b := rfl
@[simp] theorem ideal_neg (a : Rat) : Num.ideal.neg a = -a := rfl
@[simp] theorem ideal_clamp (v lo hi : Rat) : Num.ideal.clamp v lo hi = max lo (min v hi) := rfl

end Sys2Proof.Machine
end

