-- ==== Sys2Proof/Laws/Memory.lean ====
section
/-! SUPPORT. Sample memory: reading after writing, the canonical form, and equality of canonical memories
(spec/20_memory.md rules R60 to R63). -/

namespace Sys2Proof.Machine

variable {S : Type} {zero : S}

@[simp] theorem Memory.read_nil (i : Nat) : Memory.read zero ([] : Memory S) i = zero := rfl

@[simp] theorem Memory.wf_nil : Memory.wf zero ([] : Memory S) := by simp [Memory.wf]

@[simp] theorem Memory.within_nil (n : Nat) : Memory.within ([] : Memory S) n := by simp [Memory.within]

theorem Memory.wf_cons {j : Nat} {v : S} {m : Memory S} :
    Memory.wf zero ((j, v) :: m) ↔ (∀ p ∈ m, j < p.1) ∧ v ≠ zero ∧ Memory.wf zero m := by
  simp only [Memory.wf, List.map_cons, List.pairwise_cons, List.mem_map, List.mem_cons, forall_eq_or_imp]
  constructor
  · rintro ⟨⟨h1, h2⟩, h3, h4⟩
    exact ⟨fun p hp => h1 p.1 ⟨p, hp, rfl⟩, h3, h2, h4⟩
  · rintro ⟨h1, h3, h2, h4⟩
    refine ⟨⟨?_, h2⟩, h3, h4⟩
    rintro _ ⟨p, hp, rfl⟩
    exact h1 p hp

/-- An index below every listed one holds zero. -/
theorem Memory.read_of_lt {m : Memory S} {i : Nat} (h : ∀ p ∈ m, i < p.1) : m.read zero i = zero := by
  induction m with
  | nil => rfl
  | cons c m ih =>
    obtain ⟨j, v⟩ := c
    have hj : i < j := h (j, v) (by simp)
    simp only [Memory.read, if_neg (Nat.ne_of_gt hj)]
    exact ih fun p hp => h p (by simp [hp])

/-- An unlisted index holds zero. -/
theorem Memory.read_of_not_mem {m : Memory S} {i : Nat} (h : ∀ p ∈ m, p.1 ≠ i) : m.read zero i = zero := by
  induction m with
  | nil => rfl
  | cons c m ih =>
    obtain ⟨j, v⟩ := c
    simp only [Memory.read, if_neg (h (j, v) (by simp))]
    exact ih fun p hp => h p (by simp [hp])

/-- Canonical memories that read alike are equal. -/
theorem Memory.ext_read {m m' : Memory S} (h : m.wf zero) (h' : m'.wf zero)
    (hr : ∀ i, m.read zero i = m'.read zero i) : m = m' := by
  induction m generalizing m' with
  | nil =>
    cases m' with
    | nil => rfl
    | cons c m' =>
      obtain ⟨j, u⟩ := c
      have := hr j
      simp only [Memory.read, if_true] at this
      exact absurd this.symm (Memory.wf_cons.1 h').2.1
  | cons c m ih =>
    obtain ⟨j, u⟩ := c
    obtain ⟨hlt, hu, hm⟩ := Memory.wf_cons.1 h
    cases m' with
    | nil =>
      have := hr j
      simp only [Memory.read, if_true] at this
      exact absurd this hu
    | cons c' m' =>
      obtain ⟨j', u'⟩ := c'
      obtain ⟨hlt', hu', hm'⟩ := Memory.wf_cons.1 h'
      have hj : j = j' := by
        rcases Nat.lt_trichotomy j j' with hl | he | hl
        · have := hr j
          rw [Memory.read_of_lt (m := (j', u') :: m')] at this
          · simp only [Memory.read, if_true] at this; exact absurd this hu
          · intro p hp
            rcases List.mem_cons.1 hp with rfl | hp
            · exact hl
            · exact Nat.lt_trans hl (hlt' p hp)
        · exact he
        · have := hr j'
          rw [Memory.read_of_lt (m := (j, u) :: m)] at this
          · simp only [Memory.read, if_true] at this; exact absurd this.symm hu'
          · intro p hp
            rcases List.mem_cons.1 hp with rfl | hp
            · exact hl
            · exact Nat.lt_trans hl (hlt p hp)
      subst hj
      have hu2 : u = u' := by simpa [Memory.read] using hr j
      subst hu2
      congr 1
      refine ih hm hm' fun i => ?_
      by_cases hi : j = i
      · subst hi; rw [Memory.read_of_lt hlt, Memory.read_of_lt hlt']
      · simpa [Memory.read, hi] using hr i

/-- A canonical memory that reads zero everywhere is the empty one: `CLEAR`'s loop of R126 leaves `[]`. -/
theorem Memory.eq_nil_of_read_zero {m : Memory S} (h : m.wf zero) (hr : ∀ i, m.read zero i = zero) : m = [] :=
  Memory.ext_read h Memory.wf_nil fun i => by simp [hr]

variable [DecidableEq S]

/-- A written cell reads back (R69: "Every read returns the value of the most recent write to that cell"). -/
theorem Memory.read_write_same {m : Memory S} (h : m.wf zero) (i : Nat) (v : S) :
    (m.write zero i v).read zero i = v := by
  induction m with
  | nil => by_cases hv : v = zero <;> simp [Memory.write, Memory.read, hv]
  | cons c m ih =>
    obtain ⟨j, u⟩ := c
    obtain ⟨hlt, hu, hm⟩ := Memory.wf_cons.1 h
    simp only [Memory.write]
    split
    · next hij =>
      split
      · next hv =>
        rw [hv]
        refine Memory.read_of_lt fun p hp => ?_
        rcases List.mem_cons.1 hp with rfl | hp
        · exact hij
        · exact Nat.lt_trans hij (hlt p hp)
      · simp [Memory.read]
    · split
      · next hij =>
        subst hij
        split
        · next hv => rw [hv]; exact Memory.read_of_lt hlt
        · simp [Memory.read]
      · next hij => simp only [Memory.read, if_neg (Ne.symm hij)]; exact ih hm

/-- A write leaves every other cell alone. -/
theorem Memory.read_write_other {m : Memory S} (h : m.wf zero) {i k : Nat} (v : S) (hik : k ≠ i) :
    (m.write zero i v).read zero k = m.read zero k := by
  induction m with
  | nil => by_cases hv : v = zero <;> simp [Memory.write, Memory.read, hv, hik.symm]
  | cons c m ih =>
    obtain ⟨j, u⟩ := c
    obtain ⟨hlt, hu, hm⟩ := Memory.wf_cons.1 h
    simp only [Memory.write]
    split
    · split
      · rfl
      · simp [Memory.read, hik.symm]
    · split
      · next hij =>
        subst hij
        split
        · simp [Memory.read, hik.symm]
        · simp [Memory.read, hik.symm]
      · simp only [Memory.read]
        split
        · rfl
        · exact ih hm

/-- What a write can list: the written index and what was listed. -/
theorem Memory.mem_write {m : Memory S} {i : Nat} {v : S} {p : Nat × S} (hp : p ∈ m.write zero i v) :
    p = (i, v) ∧ v ≠ zero ∨ p ∈ m := by
  induction m with
  | nil => by_cases hv : v = zero <;> simp_all [Memory.write]
  | cons c m ih =>
    obtain ⟨j, u⟩ := c
    simp only [Memory.write] at hp
    split at hp
    · split at hp
      · exact .inr hp
      · rcases List.mem_cons.1 hp with rfl | hp
        · exact .inl ⟨rfl, ‹_›⟩
        · exact .inr hp
    · split at hp
      · split at hp
        · exact .inr (List.mem_cons_of_mem _ hp)
        · rcases List.mem_cons.1 hp with rfl | hp
          · exact .inl ⟨rfl, ‹_›⟩
          · exact .inr (List.mem_cons_of_mem _ hp)
      · rcases List.mem_cons.1 hp with rfl | hp
        · exact .inr (by simp)
        · rcases ih hp with h | h
          · exact .inl h
          · exact .inr (List.mem_cons_of_mem _ h)

/-- A write keeps the canonical form. -/
theorem Memory.wf_write {m : Memory S} (h : m.wf zero) (i : Nat) (v : S) : (m.write zero i v).wf zero := by
  induction m with
  | nil => by_cases hv : v = zero <;> simp [Memory.write, Memory.wf, hv]
  | cons c m ih =>
    obtain ⟨j, u⟩ := c
    obtain ⟨hlt, hu, hm⟩ := Memory.wf_cons.1 h
    simp only [Memory.write]
    split
    · next hij =>
      split
      · exact h
      · next hv =>
        refine Memory.wf_cons.2 ⟨fun p hp => ?_, hv, h⟩
        rcases List.mem_cons.1 hp with rfl | hp
        · exact hij
        · exact Nat.lt_trans hij (hlt p hp)
    · split
      · next hij =>
        subst hij
        split
        · exact hm
        · next hv => exact Memory.wf_cons.2 ⟨hlt, hv, hm⟩
      · next h1 h2 =>
        refine Memory.wf_cons.2 ⟨fun p hp => ?_, hu, ih hm⟩
        rcases Memory.mem_write hp with ⟨rfl, -⟩ | hp
        · omega
        · exact hlt p hp

/-- A write below the memory's size stays within it. -/
theorem Memory.within_write {m : Memory S} {n : Nat} (h : m.within n) {i : Nat} (hi : i < n) (v : S) :
    (m.write zero i v).within n := by
  intro p hp
  rcases Memory.mem_write hp with ⟨rfl, -⟩ | hp
  · exact hi
  · exact h p hp

end Sys2Proof.Machine
end

