-- ==== Sys2Proof/Laws/Line.lean ====
section
/-! SUPPORT. Delay Lines: the fields each micro-operation touches (spec/40_delay_line.md rules R121 to R127), the read index,
and the operations that keep `LineInv` (spec/10_state.md rule R35). -/

namespace Sys2Proof.Machine

section Fields

variable {S : Type} (N : Num S) (D : DelayLine S)

@[simp] theorem DelayLine.advance_cap : D.advance.cap = D.cap := rfl
@[simp] theorem DelayLine.advance_buf : D.advance.buf = D.buf := rfl
@[simp] theorem DelayLine.advance_w : D.advance.w = (D.w + 1) % D.cap := rfl
@[simp] theorem DelayLine.advance_n : D.advance.n = D.n := rfl
@[simp] theorem DelayLine.clear_cap : D.clear.cap = D.cap := rfl
@[simp] theorem DelayLine.clear_buf : D.clear.buf = [] := rfl
@[simp] theorem DelayLine.clear_w : D.clear.w = D.w := rfl
@[simp] theorem DelayLine.clear_n : D.clear.n = D.n := rfl
@[simp] theorem DelayLine.setLength_cap (n : Int) : (D.setLength n).cap = D.cap := rfl
@[simp] theorem DelayLine.setLength_buf (n : Int) : (D.setLength n).buf = D.buf := rfl
@[simp] theorem DelayLine.setLength_w (n : Int) : (D.setLength n).w = D.w := rfl
@[simp] theorem DelayLine.setLength_n (n : Int) : (D.setLength n).n = some (clampLength n D.cap) := rfl
@[simp] theorem DelayLine.fresh_cap (c : Nat) : (DelayLine.fresh c : DelayLine S).cap = c := rfl
@[simp] theorem DelayLine.fresh_buf (c : Nat) : (DelayLine.fresh c : DelayLine S).buf = [] := rfl
@[simp] theorem DelayLine.fresh_w (c : Nat) : (DelayLine.fresh c : DelayLine S).w = 0 := rfl
@[simp] theorem DelayLine.fresh_n (c : Nat) : (DelayLine.fresh c : DelayLine S).n = none := rfl

variable [DecidableEq S]

@[simp] theorem DelayLine.write_cap (v : S) : (D.write N v).cap = D.cap := rfl
@[simp] theorem DelayLine.write_buf (v : S) : (D.write N v).buf = D.buf.write N.zero D.w v := rfl
@[simp] theorem DelayLine.write_w (v : S) : (D.write N v).w = D.w := rfl
@[simp] theorem DelayLine.write_n (v : S) : (D.write N v).n = D.n := rfl

end Fields

/-- A clamped length lies in [1, cap − 1] of any line with a buffer (R35(a), R124). -/
theorem clampLength_bounds {cap : Nat} (h : 2 ≤ cap) (n : Int) :
    1 ≤ clampLength n cap ∧ clampLength n cap ≤ cap - 1 := by
  unfold clampLength clampInt; omega

/-- The read index is the Euclidean remainder of R121, as natural numbers write it. -/
theorem DelayLine.readIndex_eq {S : Type} {D : DelayLine S} {n : Nat} (hn : D.n = some n) (h : n ≤ D.cap) :
    D.readIndex = (D.w + D.cap - n) % D.cap := by
  have h1 : D.length = n := by simp [DelayLine.length, hn]
  have h2 : ((D.w : Int) - (n : Int)) % (D.cap : Int) = (((D.w + D.cap - n) % D.cap : Nat) : Int) := by
    have : ((D.w + D.cap - n : Nat) : Int) = (D.w : Int) - n + D.cap := by omega
    rw [Int.natCast_mod, this, Int.add_emod_right]
  unfold DelayLine.readIndex
  rw [h1, h2]
  rfl

/-- A read and the write of one sample touch different cells (R62). -/
theorem DelayLine.readIndex_ne {S : Type} {D : DelayLine S} {n : Nat} (hn : D.n = some n) (h1 : 1 ≤ n)
    (h2 : n ≤ D.cap - 1) (hw : D.w < D.cap) : D.readIndex ≠ D.w := by
  rw [DelayLine.readIndex_eq hn (by omega)]
  intro h
  rcases Nat.lt_or_ge D.w n with hl | hg
  · rw [Nat.mod_eq_of_lt (by omega)] at h; omega
  · rw [show D.w + D.cap - n = (D.w - n) + D.cap by omega, Nat.add_mod_right, Nat.mod_eq_of_lt (by omega)] at h
    omega

section Keeps

variable {maxCap : Nat} {D : DelayLine Word}

theorem LineInv.unconfigured_line : LineInv maxCap (.unconfigured : DelayLine Word) where
  capacity := .inl rfl
  unconfigured _ := ⟨rfl, rfl⟩
  cursor h := absurd rfl h
  length k h := by simp [DelayLine.unconfigured] at h
  canonical := Memory.wf_nil
  within := Memory.within_nil _

/-- `CONFIGURE` with a checked capacity establishes the invariant (R125). -/
theorem LineInv.fresh_line {c : Nat} (h1 : 2 ≤ c) (h2 : c ≤ maxCap) : LineInv maxCap (.fresh c : DelayLine Word) where
  capacity := .inr ⟨h1, h2⟩
  unconfigured h := absurd h (by simp; omega)
  cursor _ := by simp; omega
  length k h := by simp at h
  canonical := Memory.wf_nil
  within := Memory.within_nil _

theorem LineInv.setLength (h : LineInv maxCap D) (hc : D.cap ≠ 0) (n : Int) : LineInv maxCap (D.setLength n) where
  capacity := h.capacity
  unconfigured hz := absurd hz hc
  cursor := h.cursor
  length k hk := by
    have h2 : 2 ≤ D.cap := by rcases h.capacity with h0 | h0; exact absurd h0 hc; exact h0.1
    simp only [DelayLine.setLength_n, Option.some.injEq] at hk
    subst hk
    exact clampLength_bounds h2 n
  canonical := h.canonical
  within := h.within

theorem LineInv.clear (h : LineInv maxCap D) : LineInv maxCap D.clear where
  capacity := h.capacity
  unconfigured := h.unconfigured
  cursor := h.cursor
  length := h.length
  canonical := Memory.wf_nil
  within := Memory.within_nil _

/-- One sample's write and advance keep the invariant on a configured line. -/
theorem LineInv.write_advance (h : LineInv maxCap D) (hc : D.cap ≠ 0) (v : Word) :
    LineInv maxCap (D.write Num.b32 v).advance where
  capacity := h.capacity
  unconfigured hz := absurd hz hc
  cursor _ := Nat.mod_lt _ (Nat.pos_of_ne_zero hc)
  length := h.length
  canonical := Memory.wf_write h.canonical _ _
  within := Memory.within_write h.within (h.cursor hc) _

end Keeps

end Sys2Proof.Machine
end

