-- ==== Sys2Proof/Laws/Datapath.lean ====
section
/-! SUPPORT. The datapath of one sample (spec/43_reverb_engine.md rules R190 to R199): which settings survive it, and that
it keeps the lines' invariants. Each function has one lemma; the engine's lemma is assembled from them. -/

namespace Sys2Proof.Machine

/-! ## Settings -/

@[simp] theorem DelayLine.settings_cap {S : Type} (D : DelayLine S) : D.settings.cap = D.cap := rfl
@[simp] theorem DelayLine.settings_n {S : Type} (D : DelayLine S) : D.settings.n = D.n := rfl
@[simp] theorem Comb.settings_dl (c : Comb Word) : c.settings.dl = c.dl.settings := rfl
@[simp] theorem Comb.settings_fb (c : Comb Word) : c.settings.fb = c.fb := rfl
@[simp] theorem Comb.settings_damp (c : Comb Word) : c.settings.damp = c.damp := rfl
@[simp] theorem AllPass.settings_dl {S : Type} (a : AllPass S) : a.settings.dl = a.dl.settings := rfl
@[simp] theorem AllPass.settings_g {S : Type} (a : AllPass S) : a.settings.g = a.g := rfl
@[simp] theorem Biquad.reset_coef {S : Type} (b : Biquad S) : b.reset.coef = b.coef := rfl
@[simp] theorem Biquad.reset_mem {S : Type} (b : Biquad S) : b.reset.mem = [] := rfl
@[simp] theorem Biquad.reset_reset {S : Type} (b : Biquad S) : b.reset.reset = b.reset := rfl
@[simp] theorem Biquad.setCoefficients_coef {S : Type} (b : Biquad S) (c : BqCoef S) :
    (b.setCoefficients c).coef = some c := rfl
@[simp] theorem Biquad.setCoefficients_mem {S : Type} (b : Biquad S) (c : BqCoef S) :
    (b.setCoefficients c).mem = b.mem := rfl

@[simp] theorem BQ.ofProcess_init {S : Type} (p : BqProcess S) : (BQ.ofProcess p).init = Biquad.init := rfl
@[simp] theorem BQ.ofProcess_setCoefficients {S : Type} (p : BqProcess S) (b : Biquad S) (c : BqCoef S) :
    (BQ.ofProcess p).setCoefficients b c = b.setCoefficients c := rfl
@[simp] theorem BQ.ofProcess_processSample {S : Type} (p : BqProcess S) (b : Biquad S) (x : S) :
    (BQ.ofProcess p).processSample b x = b.processSample p x := rfl
@[simp] theorem BQ.ofProcess_reset {S : Type} (p : BqProcess S) (b : Biquad S) : (BQ.ofProcess p).reset b = b.reset := rfl

/-- `processSample` keeps the coefficients (R31: "persistent coefficients"). -/
@[simp] theorem Biquad.processSample_reset {S : Type} (p : BqProcess S) (b : Biquad S) (x : S) :
    (b.processSample p x).1.reset = b.reset := rfl

@[simp] theorem Biquad.processSample_coef {S : Type} (p : BqProcess S) (b : Biquad S) (x : S) :
    (b.processSample p x).1.coef = b.coef := rfl

@[simp] theorem DelayLine.settings_advance {S : Type} (D : DelayLine S) : D.advance.settings = D.settings := rfl

@[simp] theorem DelayLine.settings_write {S : Type} [DecidableEq S] (N : Num S) (D : DelayLine S) (v : S) :
    (D.write N v).settings = D.settings := rfl

@[simp] theorem DelayLine.settings_clear {S : Type} (D : DelayLine S) : D.clear.settings = D.settings := rfl

@[simp] theorem Comb.settings_process (c : Comb Word) (x : Word) : (c.process Num.b32 x).1.settings = c.settings := rfl

@[simp] theorem Comb.settings_clear (c : Comb Word) : (c.clear Num.b32).settings = c.settings := rfl

@[simp] theorem AllPass.settings_process (a : AllPass Word) (x : Word) :
    (a.process Num.b32 x).1.settings = a.settings := rfl

@[simp] theorem AllPass.settings_clear {S : Type} (a : AllPass S) : a.clear.settings = a.settings := rfl

theorem Bank7.map_congr {α β : Type} {f : α → β} {p q : Bank7 α} (h : ∀ b, f (p.get b) = f (q.get b)) :
    p.map f = q.map f := Bank7.ext_get fun b => by simpa using h b

theorem Bank8.map_congr {α β : Type} {f : α → β} {p q : Bank8 α} (h : ∀ k, f (p.get k) = f (q.get k)) :
    p.map f = q.map f := Bank8.ext_get fun k => by simpa using h k

theorem Bank4.map_congr {α β : Type} {f : α → β} {p q : Bank4 α} (h : ∀ j, f (p.get j) = f (q.get j)) :
    p.map f = q.map f := Bank4.ext_get fun j => by simpa using h j

/-- The pre-equaliser keeps every coefficient. -/
theorem preEq_reset {S : Type} (p : BqProcess S) (q : Bank7 (Biquad S)) (v : S) :
    (preEq (.ofProcess p) q v).1.map (·.reset) = q.map (·.reset) := rfl

/-- The comb bank keeps every comb's settings. -/
theorem combBank_settings (b : Bank8 (Comb Word)) (v : Word) :
    (combBank Num.b32 b v).1.map (·.settings) = b.map (·.settings) := rfl

/-- The cascade keeps every all-pass's settings. -/
theorem apCascade_settings (b : Bank4 (AllPass Word)) (v : Word) :
    (apCascade Num.b32 b v).1.map (·.settings) = b.map (·.settings) := rfl

theorem Channel.front_settings (p : BqProcess Word) (h : Channel32) (x : Word) :
    (h.front Num.b32 (.ofProcess p) x).1.settings = h.settings := rfl

theorem Channel.back_settings (p : BqProcess Word) (h : Channel32) (x : Word) :
    (h.back Num.b32 (.ofProcess p) x).1.settings = h.settings := rfl

theorem Channel.clear_settings (p : BqProcess Word) (h : Channel32) : (h.clear Num.b32 (.ofProcess p)).settings = h.settings := rfl

/-- One sample keeps every setting of the engine (R73, R183). -/
theorem Engine.sample_settings (p : BqProcess Word) (e : Engine32) (l r : Word) :
    (e.sample Num.b32 (.ofProcess p) l r).1.settings = e.settings := by
  simp only [Engine.settings, Engine.sample, Stereo.map, Channel.back_settings, Channel.front_settings]

/-- A block keeps every setting of the engine. -/
theorem Engine.processFrom_settings (p : BqProcess Word) (ch ns k i : Nat) (e : Engine32) (hb : Memory Word) :
    (Engine.processFrom Num.b32 (.ofProcess p) ch ns k i e hb).1.settings = e.settings := by
  induction k generalizing i e hb with
  | zero => rfl
  | succ k ih => simp only [Engine.processFrom]; rw [ih, Engine.sample_settings]

theorem Engine.clear_settings (p : BqProcess Word) (e : Engine32) : (e.clear Num.b32 (.ofProcess p)).settings = e.settings := by
  simp only [Engine.settings, Engine.clear, Stereo.map, Channel.clear_settings]

/-- Engines with equal settings have equal registers. -/
theorem Engine.registers_of_settings {e e' : Engine32} (h : e'.settings = e.settings) :
    e'.preset = e.preset ∧ e'.domeAmount = e.domeAmount ∧ e'.stereoWidth = e.stereoWidth ∧ e'.bassBoost = e.bassBoost ∧
      e'.wetGain = e.wetGain ∧ e'.dryGain = e.dryGain ∧ e'.lpCutoff = e.lpCutoff ∧
      e'.preDelaySamples = e.preDelaySamples ∧ e'.sampleRate = e.sampleRate ∧ e'.configured = e.configured :=
  ⟨Eq.trans (b := e'.settings.preset) rfl (h ▸ rfl), Eq.trans (b := e'.settings.domeAmount) rfl (h ▸ rfl),
    Eq.trans (b := e'.settings.stereoWidth) rfl (h ▸ rfl), Eq.trans (b := e'.settings.bassBoost) rfl (h ▸ rfl),
    Eq.trans (b := e'.settings.wetGain) rfl (h ▸ rfl), Eq.trans (b := e'.settings.dryGain) rfl (h ▸ rfl),
    Eq.trans (b := e'.settings.lpCutoff) rfl (h ▸ rfl), Eq.trans (b := e'.settings.preDelaySamples) rfl (h ▸ rfl),
    Eq.trans (b := e'.settings.sampleRate) rfl (h ▸ rfl), Eq.trans (b := e'.settings.configured) rfl (h ▸ rfl)⟩

/-- Channels with equal settings have units with equal settings. -/
theorem Channel.units_of_settings {h h' : Channel32} (hs : h'.settings = h.settings) :
    (∀ k, (h'.comb.get k).settings = (h.comb.get k).settings) ∧ (∀ j, (h'.ap.get j).settings = (h.ap.get j).settings) ∧
      h'.pre.settings = h.pre.settings ∧ (∀ b, (h'.eq.get b).coef = (h.eq.get b).coef) ∧
      h'.toneLP.coef = h.toneLP.coef ∧ h'.toneLS.coef = h.toneLS.coef := by
  refine ⟨fun k => ?_, fun j => ?_, congrArg Channel.pre hs, fun b => ?_, congrArg (fun x => x.toneLP.coef) hs,
    congrArg (fun x => x.toneLS.coef) hs⟩
  · simpa [Channel.settings] using congrArg (fun x => x.comb.get k) hs
  · simpa [Channel.settings] using congrArg (fun x => x.ap.get j) hs
  · simpa [Channel.settings] using congrArg (fun x => (x.eq.get b).coef) hs

/-- Engines with equal settings have channels with equal settings. -/
theorem Engine.channels_of_settings {e e' : Engine32} (h : e'.settings = e.settings) (c : Fin 2) :
    (e'.ch.get c).settings = (e.ch.get c).settings := by
  simpa [Engine.settings] using congrArg (fun x => x.ch.get c) h

/-- Engines with equal settings have lines of equal capacities (R130). -/
theorem Engine.capacities_of_settings {e e' : Engine32} (h : e'.settings = e.settings) :
    e'.lines.map (·.cap) = e.lines.map (·.cap) := by
  have hc : ∀ c, (e'.ch.get c).lines.map (·.cap) = (e.ch.get c).lines.map (·.cap) := by
    intro c
    have := congrArg (fun x => (Channel.lines x).map (·.cap)) (Engine.channels_of_settings h c)
    simpa [Channel.settings, Channel.lines, Bank8.map, Bank4.map, Bank8.toList, Bank4.toList] using this
  simpa [Engine.lines] using congrArg₂ (· ++ ·) (hc 0) (hc 1)

/-! ## Line invariants -/

/-- Every line of a channel has its invariant and a buffer. -/
structure Channel.LinesOk (maxCap : Nat) (h : Channel32) : Prop where
  combs : ∀ k, LineInv maxCap (h.comb.get k).dl ∧ (h.comb.get k).dl.cap ≠ 0
  allPasses : ∀ j, LineInv maxCap (h.ap.get j).dl ∧ (h.ap.get j).dl.cap ≠ 0
  pre : LineInv maxCap h.pre ∧ h.pre.cap ≠ 0

theorem AllPass.process_line {maxCap : Nat} {a : AllPass Word} (h : LineInv maxCap a.dl ∧ a.dl.cap ≠ 0) (x : Word) :
    LineInv maxCap (a.process Num.b32 x).1.dl ∧ (a.process Num.b32 x).1.dl.cap ≠ 0 :=
  ⟨h.1.write_advance h.2 _, h.2⟩

theorem Comb.process_line {maxCap : Nat} {c : Comb Word} (h : LineInv maxCap c.dl ∧ c.dl.cap ≠ 0) (x : Word) :
    LineInv maxCap (c.process Num.b32 x).1.dl ∧ (c.process Num.b32 x).1.dl.cap ≠ 0 :=
  ⟨h.1.write_advance h.2 _, h.2⟩

theorem Channel.LinesOk.front {maxCap : Nat} {h : Channel32} (ok : h.LinesOk maxCap) (p : BqProcess Word) (x : Word) :
    (h.front Num.b32 (.ofProcess p) x).1.LinesOk maxCap where
  combs k := by
    simp only [Channel.front, combBank, Bank8.get_map]
    exact Comb.process_line (ok.combs k) _
  allPasses := ok.allPasses
  pre := ⟨ok.pre.1.write_advance ok.pre.2 _, ok.pre.2⟩

theorem Channel.LinesOk.back {maxCap : Nat} {h : Channel32} (ok : h.LinesOk maxCap) (p : BqProcess Word) (x : Word) :
    (h.back Num.b32 (.ofProcess p) x).1.LinesOk maxCap where
  combs := ok.combs
  allPasses j := by
    fin_cases j
    · exact AllPass.process_line (ok.allPasses 0) _
    · exact AllPass.process_line (ok.allPasses 1) _
    · exact AllPass.process_line (ok.allPasses 2) _
    · exact AllPass.process_line (ok.allPasses 3) _
  pre := ok.pre

/-- One sample keeps the invariants of all 26 lines. -/
theorem Engine.sample_lines {maxCap : Nat} {e : Engine32} (ok : ∀ c, (e.ch.get c).LinesOk maxCap) (p : BqProcess Word)
    (l r : Word) (c : Fin 2) : ((e.sample Num.b32 (.ofProcess p) l r).1.ch.get c).LinesOk maxCap := by
  fin_cases c
  · exact ((ok 0).front p l).back p _
  · exact ((ok 1).front p r).back p _

/-- A block keeps the invariants of all 26 lines. -/
theorem Engine.processFrom_lines {maxCap : Nat} (p : BqProcess Word) (ch ns k i : Nat) {e : Engine32} (hb : Memory Word)
    (ok : ∀ c, (e.ch.get c).LinesOk maxCap) (c : Fin 2) :
    ((Engine.processFrom Num.b32 (.ofProcess p) ch ns k i e hb).1.ch.get c).LinesOk maxCap := by
  induction k generalizing i e hb with
  | zero => exact ok c
  | succ k ih => exact ih _ _ (Engine.sample_lines ok p _ _)

/-- A block keeps the host buffer's canonical form. -/
theorem Engine.processFrom_hb_wf (p : BqProcess Word) (ch ns k i : Nat) (e : Engine32) {hb : Memory Word}
    (h : hb.wf 0#32) : (Engine.processFrom Num.b32 (.ofProcess p) ch ns k i e hb).2.wf 0#32 := by
  induction k generalizing i e hb with
  | zero => exact h
  | succ k ih =>
    refine ih _ _ ?_
    split
    · exact Memory.wf_write (Memory.wf_write h _ _) _ _
    · exact Memory.wf_write h _ _

end Sys2Proof.Machine
end

