-- ==== Sys2Proof/Laws/Decibels.lean ====
section
/-! SUPPORT. `dbToLin(d) = 10^(d/20)` (spec/45_biquad_contract.md rule R258): an argument of `setCoefficients` is exactly one
number, and `dbToLinDigits` is its decimal expansion. -/

namespace Sys2Proof.Machine

/-- Every argument is a number, and only one. -/
theorem denotes_unique {S : Type} (N : Num S) (b : BqNumber S) : ∃! x : ℝ, Denotes N b x := by
  cases b <;> exact ⟨_, rfl, fun _ h => h⟩

/-- `root20` answers the 20th root, cut off to a natural number. -/
theorem root20_spec {m bits r : Nat} (h1 : r ^ 20 ≤ m) (h2 : m < (r + 2 ^ bits) ^ 20) :
    root20 m bits r ^ 20 ≤ m ∧ m < (root20 m bits r + 1) ^ 20 := by
  induction bits generalizing r with
  | zero => exact ⟨h1, h2⟩
  | succ bits ih =>
    rw [root20]
    split
    · next h => exact ih h (by rwa [Nat.add_assoc, ← Nat.two_mul, Nat.mul_comm, ← Nat.pow_succ])
    · next h => exact ih h1 (Nat.lt_of_not_le h)

/-- A root of a number between `m` and `m + 1` lies between the whole roots of `m`. -/
theorem root_bounds {e r m : Nat} (he : e ≠ 0) {y : ℝ} (hy : 0 ≤ y) (lo : (m : ℝ) ≤ y ^ e) (hi : y ^ e < (m : ℝ) + 1)
    (h1 : r ^ e ≤ m) (h2 : m < (r + 1) ^ e) : (r : ℝ) ≤ y ∧ y < (r : ℝ) + 1 := by
  constructor
  · exact le_of_pow_le_pow_left₀ he hy (le_trans (by exact_mod_cast h1) lo)
  · have : (m : ℝ) + 1 ≤ ((r : ℝ) + 1) ^ e := by exact_mod_cast h2
    exact lt_of_pow_lt_pow_left₀ e (by positivity) (lt_of_lt_of_le hi this)

/-- The digits are those of `10^(d/20)`, cut off after the `k`-th decimal (R258). -/
theorem dbToLinDigits_spec {S : Type} (N : Num S) (k : Nat) (d : Int) {x : ℝ} (hx : Denotes N (.dbToLin d) x) :
    (dbToLinDigits k d : ℝ) ≤ x ∧ x < (dbToLinDigits k d : ℝ) + 1 / 10 ^ k := by
  have hx : x = (10 : ℝ) ^ ((d : ℝ) / 20) := hx
  have x0 : 0 < x := by rw [hx]; positivity
  have x20 : x ^ 20 = (10 : ℝ) ^ d := by
    rw [hx, ← Real.rpow_natCast, ← Real.rpow_mul (by norm_num), ← Real.rpow_intCast]
    congr 1
    push_cast
    ring
  set m := 10 ^ (20 * k + d.toNat) / 10 ^ (-d).toNat with hm
  obtain ⟨h1, h2⟩ := root20_spec (m := m) (bits := m.log2 + 1) (r := 0) (by simp)
    (by rw [Nat.zero_add]; exact Nat.lt_of_lt_of_le Nat.lt_log2_self (Nat.le_self_pow (by norm_num) _))
  have hq : (dbToLinDigits k d : ℝ) = (root20 m (m.log2 + 1) 0 : ℝ) / 10 ^ k := by
    rw [dbToLinDigits, ← hm]
    simp [Rat.mkRat_eq_div]
  set r := root20 m (m.log2 + 1) 0
  have p : (0 : ℝ) < 10 ^ (-d).toNat := by positivity
  have hd : (10 : ℝ) ^ (20 * k + d.toNat) = ((10 : ℝ) ^ k * x) ^ 20 * 10 ^ (-d).toNat := by
    rw [mul_pow, x20, pow_add, ← pow_mul, mul_comm k 20, mul_assoc]
    congr 1
    rw [← zpow_natCast, ← zpow_natCast, ← zpow_add₀ (by norm_num : (10 : ℝ) ≠ 0)]
    congr 1
    omega
  have lo : (m : ℝ) ≤ ((10 : ℝ) ^ k * x) ^ 20 := by
    have : m * 10 ^ (-d).toNat ≤ 10 ^ (20 * k + d.toNat) := Nat.div_mul_le_self _ _
    have : (m : ℝ) * 10 ^ (-d).toNat ≤ 10 ^ (20 * k + d.toNat) := by exact_mod_cast this
    rw [hd] at this
    exact le_of_mul_le_mul_right this p
  have hi : ((10 : ℝ) ^ k * x) ^ 20 < (m : ℝ) + 1 := by
    have : 10 ^ (20 * k + d.toNat) < (m + 1) * 10 ^ (-d).toNat :=
      Nat.lt_mul_of_div_lt (Nat.lt_succ_self _) (by positivity)
    have : (10 : ℝ) ^ (20 * k + d.toNat) < ((m : ℝ) + 1) * 10 ^ (-d).toNat := by exact_mod_cast this
    rw [hd] at this
    exact lt_of_mul_lt_mul_right this p.le
  have t : (0 : ℝ) < 10 ^ k := by positivity
  obtain ⟨l, u⟩ := root_bounds (by norm_num) (by positivity) lo hi h1 h2
  rw [hq, ← add_div]
  exact ⟨(div_le_iff₀ t).2 (by linarith), (lt_div_iff₀ t).2 (by linarith)⟩

end Sys2Proof.Machine
end

