-- ==== Sys2Proof/Laws/Decode.lean ====
section
/-! SUPPORT. Words and fields of a command (spec/30_encoding.md rules R91 to R106): what the header fields, the mask test, the
operand assembly and the framing do, each said once. -/

namespace Sys2Proof

/-! ## Operand words -/

/-- The two words of a binary64 operand put together again (R95). -/
@[simp] theorem dword_append (d : DWord) : dwordHigh d ++ dwordLow d = d := by
  apply BitVec.eq_of_toNat_eq
  rw [BitVec.toNat_append]
  simp only [dwordHigh, dwordLow, BitVec.extractLsb'_toNat, Nat.shiftRight_zero]
  have hd := d.isLt
  rw [← Nat.shiftLeft_add_eq_or_of_lt (Nat.mod_lt _ (Nat.two_pow_pos _))]
  simp only [Nat.shiftRight_eq_div_pow, Nat.shiftLeft_eq]
  omega

theorem dwordLow_append (w2 w1 : Word) : dwordLow (w2 ++ w1) = w1 := by
  apply BitVec.eq_of_toNat_eq
  simp only [dwordLow, BitVec.extractLsb'_toNat, BitVec.toNat_append, Nat.shiftRight_zero]
  have h1 := w1.isLt
  rw [← Nat.shiftLeft_add_eq_or_of_lt h1, Nat.shiftLeft_eq]
  omega

theorem dwordHigh_append (w2 w1 : Word) : dwordHigh (w2 ++ w1) = w2 := by
  apply BitVec.eq_of_toNat_eq
  simp only [dwordHigh, BitVec.extractLsb'_toNat, BitVec.toNat_append]
  have h1 := w1.isLt
  have h2 := w2.isLt
  rw [← Nat.shiftLeft_add_eq_or_of_lt h1, Nat.shiftLeft_eq, Nat.shiftRight_eq_div_pow]
  omega

/-- A signed operand that fits comes back (R96). -/
theorem toInt_ofInt_of_fits {n : Int} (h : fitsInt32 n = true) : (BitVec.ofInt 32 n).toInt = n := by
  simp only [fitsInt32, decide_eq_true_eq] at h
  rw [BitVec.toInt_ofInt, Int.bmod_eq_of_le] <;> omega

theorem fitsInt32_toInt (w : Word) : fitsInt32 w.toInt = true := by
  have h1 := BitVec.le_toInt w
  have h2 := BitVec.toInt_lt (x := w)
  simp only [fitsInt32, decide_eq_true_eq]
  omega

/-! ## Header fields -/

theorem opField_header {op imm : Nat} (h1 : op < 256) (h2 : imm < 65536) : opField (header op imm) = op := by
  simp only [opField, slice, header, BitVec.toNat_ofNat]; omega

theorem rsvField_header {op imm : Nat} (h2 : imm < 65536) : rsvField (header op imm) = 0 := by
  simp only [rsvField, slice, header, BitVec.toNat_ofNat]; omega

theorem immField_header {op imm : Nat} (h2 : imm < 65536) : immField (header op imm) = imm := by
  simp only [immField, slice, header, BitVec.toNat_ofNat]; omega

theorem opField_lt (h : Word) : opField h < 256 := Nat.mod_lt _ (by decide)

theorem immField_lt (h : Word) : immField h < 65536 := Nat.mod_lt _ (by decide)

/-- A header is its three fields. -/
theorem header_toNat (h : Word) : h.toNat = opField h * 2 ^ 24 + rsvField h * 2 ^ 16 + immField h := by
  have := h.isLt
  simp only [opField, rsvField, immField, slice]; omega

/-- A header whose reserved field is zero is the header of its other two fields. -/
theorem header_of_fields {h : Word} (hr : rsvField h = 0) : header (opField h) (immField h) = h := by
  apply BitVec.eq_of_toNat_eq
  have := header_toNat h
  have := h.isLt
  simp only [header, BitVec.toNat_ofNat]; omega

/-! ## The mask test of R100 -/

theorem and_mask_all (h : Word) : h &&& 0xFFFFFFFF#32 = h := by
  have : (0xFFFFFFFF#32) = BitVec.allOnes 32 := by decide
  rw [this, BitVec.and_allOnes]

/-- The mask that leaves the low `k` bits out. -/
theorem and_mask_low (h : Word) (k : Nat) :
    h &&& (BitVec.allOnes 32 <<< k) = BitVec.ofNat 32 (h.toNat / 2 ^ k * 2 ^ k) := by
  have : h &&& (BitVec.allOnes 32 <<< k) = (h >>> k) <<< k := by
    ext i hi
    simp only [BitVec.getElem_and, BitVec.getElem_shiftLeft, BitVec.getElem_ushiftRight, BitVec.getElem_allOnes]
    by_cases hk : i < k
    · simp [hk]
    · simp only [hk, decide_false, Bool.not_false, Bool.true_and, Bool.and_true]
      rw [show k + (i - k) = i by omega, BitVec.getLsbD_eq_getElem]
  rw [this]
  apply BitVec.eq_of_toNat_eq
  simp only [BitVec.toNat_shiftLeft, BitVec.toNat_ushiftRight, BitVec.toNat_ofNat, Nat.shiftRight_eq_div_pow,
    Nat.shiftLeft_eq]

/-- A row of full mask accepts exactly its own header. -/
theorem accepts_full (h m : Word) (s : String) (op : Nat) (f : Format) (p : Port) :
    Row.accepts ⟨s, op, f, m, 0xFFFFFFFF#32, p⟩ h = decide (h = m) := by
  simp only [Row.accepts, and_mask_all]

/-- A row whose mask leaves `imm16` out looks at `op` and `rsv`. -/
theorem accepts_imm (h : Word) (op : Nat) (hop : op < 256) (s : String) (f : Format) (p : Port) :
    Row.accepts ⟨s, op, f, header op 0, 0xFFFF0000#32, p⟩ h = decide (opField h = op ∧ rsvField h = 0) := by
  have hm : (0xFFFF0000#32) = BitVec.allOnes 32 <<< 16 := by decide
  simp only [Row.accepts]
  rw [hm, and_mask_low]
  congr 1
  rw [← BitVec.toNat_inj]
  have := h.isLt
  simp only [header, BitVec.toNat_ofNat, opField, rsvField, slice, eq_iff_iff]
  omega

/-- The row of `ENG.SETPRESET` looks at `op`, `rsv` and `imm16[15:2]` (R97). -/
theorem accepts_preset (h : Word) (op : Nat) (hop : op < 256) (s : String) (f : Format) (p : Port) :
    Row.accepts ⟨s, op, f, header op 0, 0xFFFFFFFC#32, p⟩ h =
      decide (opField h = op ∧ rsvField h = 0 ∧ immField h / 4 = 0) := by
  have hm : (0xFFFFFFFC#32) = BitVec.allOnes 32 <<< 2 := by decide
  simp only [Row.accepts]
  rw [hm, and_mask_low]
  congr 1
  rw [← BitVec.toNat_inj]
  have := h.isLt
  simp only [header, BitVec.toNat_ofNat, opField, rsvField, immField, slice, eq_iff_iff]
  omega

/-! ## Rows -/

/-- What a listed row says of the port and the opcode (R101). -/
theorem listedRow_some {p : Port} {h : Word} {r : Row} (hr : listedRow p h = some r) :
    r ∈ opcodeTable ∧ r.port = p ∧ r.op = opField h := by
  have h1 := List.find?_some hr
  simp only [Bool.and_eq_true, decide_eq_true_eq] at h1
  exact ⟨List.mem_of_find?_eq_some hr, h1⟩

/-- The rows of a port class. -/
def rowsOf : Port → List Row
  | .dl => dlRows
  | .comb => combRows
  | .ap => apRows
  | .eng => engRows

theorem listedRow_eq (p : Port) (h : Word) : listedRow p h = (rowsOf p).find? fun r => decide (r.op = opField h) := by
  cases p <;>
    simp [listedRow, opcodeTable, rowsOf, dlRows, combRows, apRows, engRows, List.find?_cons]

/-- A port lists a header exactly when one of its rows has the opcode. -/
theorem listedRow_isSome {p : Port} {h : Word} : (listedRow p h).isSome = true ↔ ∃ r ∈ rowsOf p, r.op = opField h := by
  rw [listedRow_eq]; simp

/-! ## Framing -/

namespace Machine

@[simp] theorem portWords_append (p : Port) (a b : List (Port × Word)) :
    portWords p (a ++ b) = portWords p a ++ portWords p b := by
  induction a with
  | nil => rfl
  | cons c a ih => obtain ⟨q, w⟩ := c; by_cases h : q = p <;> simp [portWords, h, ih]

@[simp] theorem portWords_own (p : Port) (ws : List Word) : portWords p (ws.map fun w => (p, w)) = ws := by
  induction ws with
  | nil => rfl
  | cons w ws ih => simp [portWords, ih]

theorem takeWords_own (p : Port) (ws : List Word) (rest : List (Port × Word)) :
    takeWords p ws.length (ws.map (fun w => (p, w)) ++ rest) = rest := by
  induction ws with
  | nil => simp [takeWords]
  | cons w ws ih => simp [takeWords, ih]

/-- Words of a whole command at the head of the queue are the next command, and taking it leaves the rest. -/
theorem nextCommand_head {p : Port} {h : Word} {ops : List Word} (rest : List (Port × Word))
    (hk : commandWords p h = ops.length + 1) :
    nextCommand ((h :: ops).map (fun w => (p, w)) ++ rest) = some (p, h :: ops) ∧
      consume p (h :: ops) ((h :: ops).map (fun w => (p, w)) ++ rest) = rest := by
  have hf : nextFrame p ((h :: ops).map (fun w => (p, w)) ++ rest) = some (h :: ops) := by
    rw [nextFrame, portWords_append, portWords_own]
    simp [frame, hk]
  have hp : nextPort ((h :: ops).map (fun w => (p, w)) ++ rest) = some p := by
    rw [nextPort]
    simp only [List.map_cons, List.cons_append, List.find?_cons] at hf ⊢
    simp [hf]
  refine ⟨?_, takeWords_own p (h :: ops) rest⟩
  simp only [nextCommand, hp, hf]

end Machine

end Sys2Proof
end

