-- ==== Sys2Proof/Laws/Mapper.lean ====
section
/-! SUPPORT. The Parameter Mapper (spec/44_parameter_mapper.md rules R221 to R238): the fields `map_apply` writes and leaves,
that its coefficients are numbers, and the clamps' ranges. -/

namespace Sys2Proof.Machine

/-! ## Fields of `map_apply` -/

section Fields

variable (p : BqProcess Word) (cfg : Params Word) (e : Engine32)

theorem Engine.mapApply_cases :
    (e.mapApply Num.b32 (.ofProcess p) cfg = e.pushScalars Num.b32 ∧ (e.configured = false ∨ e.sampleRate = none)) ∨
      ∃ sr, e.configured = true ∧ e.sampleRate = some sr ∧
        e.mapApply Num.b32 (.ofProcess p) cfg = (e.pushScalars Num.b32).pushRate Num.b32 (.ofProcess p) cfg sr := by
  have hc : (e.pushScalars Num.b32).configured = e.configured := rfl
  have hr : (e.pushScalars Num.b32).sampleRate = e.sampleRate := rfl
  unfold Engine.mapApply
  simp only [hc, hr]
  cases h1 : e.configured
  · exact .inl ⟨by simp, .inl rfl⟩
  · cases h2 : e.sampleRate with
    | none => exact .inl ⟨by simp, .inr rfl⟩
    | some sr => exact .inr ⟨sr, rfl, rfl, by simp⟩

theorem Engine.mapApply_of_configured {sr : DWord} (h : e.configured = true) (hr : e.sampleRate = some sr) :
    e.mapApply Num.b32 (.ofProcess p) cfg = (e.pushScalars Num.b32).pushRate Num.b32 (.ofProcess p) cfg sr := by
  rcases Engine.mapApply_cases p cfg e with ⟨-, h1 | h1⟩ | ⟨sr', -, h2, h3⟩
  · rw [h] at h1; cases h1
  · rw [hr] at h1; cases h1
  · rw [hr] at h2; cases h2; exact h3

theorem Engine.mapApply_of_unconfigured (h : e.configured = false) :
    e.mapApply Num.b32 (.ofProcess p) cfg = e.pushScalars Num.b32 := by
  rcases Engine.mapApply_cases p cfg e with ⟨h1, -⟩ | ⟨sr', h2, -⟩
  · exact h1
  · rw [h] at h2; cases h2

/-- Registers `map_apply` does not write. -/
theorem Engine.mapApply_kept :
    (e.mapApply Num.b32 (.ofProcess p) cfg).domeAmount = e.domeAmount ∧ (e.mapApply Num.b32 (.ofProcess p) cfg).preset = e.preset ∧
      (e.mapApply Num.b32 (.ofProcess p) cfg).stereoWidth = e.stereoWidth ∧ (e.mapApply Num.b32 (.ofProcess p) cfg).bassBoost = e.bassBoost ∧
      (e.mapApply Num.b32 (.ofProcess p) cfg).sampleRate = e.sampleRate ∧ (e.mapApply Num.b32 (.ofProcess p) cfg).configured = e.configured := by
  rcases Engine.mapApply_cases p cfg e with ⟨h, -⟩ | ⟨sr, -, -, h⟩ <;> rw [h] <;> exact ⟨rfl, rfl, rfl, rfl, rfl, rfl⟩

/-- Registers `map_apply` derives (R223, R224, R229). -/
theorem Engine.mapApply_derived :
    (e.mapApply Num.b32 (.ofProcess p) cfg).wetGain = (mapDerive Num.b32 e.domeAmount).wetGain ∧
      (e.mapApply Num.b32 (.ofProcess p) cfg).dryGain = (mapDerive Num.b32 e.domeAmount).dryGain ∧
      (e.mapApply Num.b32 (.ofProcess p) cfg).lpCutoff = (mapDerive Num.b32 e.domeAmount).lpCutoff := by
  rcases Engine.mapApply_cases p cfg e with ⟨h, -⟩ | ⟨sr, -, -, h⟩ <;> rw [h] <;> exact ⟨rfl, rfl, rfl⟩

/-- Every comb gets the same two coefficients (R37, R227, R228) and keeps its line and `filterStore`. -/
theorem Engine.mapApply_comb (c : Fin 2) (k : Fin 8) :
    (e.mapApply Num.b32 (.ofProcess p) cfg).comb c k =
      { e.comb c k with
        fb := clampFb Num.b32 (mapDerive Num.b32 e.domeAmount).combFeedback
        damp := clampDamp Num.b32 (mapDerive Num.b32 e.domeAmount).combDamping } := by
  rcases Engine.mapApply_cases p cfg e with ⟨h, -⟩ | ⟨sr, -, -, h⟩ <;> rw [h] <;>
    simp [Engine.pushRate, Engine.pushScalars, Channel.pushRate]

theorem Engine.mapApply_ap (c : Fin 2) (j : Fin 4) : (e.mapApply Num.b32 (.ofProcess p) cfg).ap c j = e.ap c j := by
  rcases Engine.mapApply_cases p cfg e with ⟨h, -⟩ | ⟨sr, -, -, h⟩ <;> rw [h] <;>
    simp [Engine.pushRate, Engine.pushScalars, Channel.pushRate]

theorem Engine.mapApply_eq (c : Fin 2) (b : Fin 7) : (e.mapApply Num.b32 (.ofProcess p) cfg).eq c b = e.eq c b := by
  rcases Engine.mapApply_cases p cfg e with ⟨h, -⟩ | ⟨sr, -, -, h⟩ <;> rw [h] <;>
    simp [Engine.pushRate, Engine.pushScalars, Channel.pushRate]

/-- The pre-delay line keeps everything but its length. -/
theorem Engine.mapApply_pre (c : Fin 2) :
    ((e.mapApply Num.b32 (.ofProcess p) cfg).pre c).cap = (e.pre c).cap ∧ ((e.mapApply Num.b32 (.ofProcess p) cfg).pre c).buf = (e.pre c).buf ∧
      ((e.mapApply Num.b32 (.ofProcess p) cfg).pre c).w = (e.pre c).w := by
  rcases Engine.mapApply_cases p cfg e with ⟨h, -⟩ | ⟨sr, -, -, h⟩ <;> rw [h] <;>
    simp [Engine.pushRate, Engine.pushScalars, Channel.pushRate]

/-- No buffer, cursor, `filterStore`, all-pass or biquad memory is written (R238). -/
theorem Engine.mapApply_memory (c : Fin 2) : ((e.mapApply Num.b32 (.ofProcess p) cfg).ch.get c).memory = (e.ch.get c).memory := by
  rcases Engine.mapApply_cases p cfg e with ⟨h, -⟩ | ⟨sr, -, -, h⟩ <;> rw [h] <;>
    simp [Engine.pushRate, Engine.pushScalars, Channel.pushRate] <;> rfl

/-- The tone filters' memories are kept. -/
theorem Engine.mapApply_tone_mem (c : Fin 2) :
    ((e.mapApply Num.b32 (.ofProcess p) cfg).ch.get c).toneLP.mem = (e.ch.get c).toneLP.mem ∧
      ((e.mapApply Num.b32 (.ofProcess p) cfg).ch.get c).toneLS.mem = (e.ch.get c).toneLS.mem := by
  rcases Engine.mapApply_cases p cfg e with ⟨h, -⟩ | ⟨sr, -, -, h⟩ <;> rw [h] <;>
    simp [Engine.pushRate, Engine.pushScalars, Channel.pushRate]

/-- The rate-dependent part, done exactly while configured (R238). -/
theorem Engine.mapApply_rate {sr : DWord} (h : e.configured = true) (hr : e.sampleRate = some sr) (c : Fin 2) :
    ((e.mapApply Num.b32 (.ofProcess p) cfg).pre c).n = some (preDelayLength Num.b32 e.domeAmount c sr (e.pre c).cap) ∧
      (e.mapApply Num.b32 (.ofProcess p) cfg).preDelaySamples.get c =
        some (preDelayLength Num.b32 e.domeAmount c sr (e.pre c).cap) ∧
      ((e.mapApply Num.b32 (.ofProcess p) cfg).ch.get c).toneLP.coef =
        some (toneLpCoef cfg sr (mapDerive Num.b32 e.domeAmount).lpCutoff) ∧
      ((e.mapApply Num.b32 (.ofProcess p) cfg).ch.get c).toneLS.coef = some (toneLsCoef cfg sr e.bassBoost) := by
  rw [Engine.mapApply_of_configured p cfg e h hr]
  simp [Engine.pushRate, Engine.pushScalars, Channel.pushRate]

/-- Left undone while not configured. -/
theorem Engine.mapApply_idle (h : e.configured = false) (c : Fin 2) :
    ((e.mapApply Num.b32 (.ofProcess p) cfg).pre c).n = (e.pre c).n ∧
      (e.mapApply Num.b32 (.ofProcess p) cfg).preDelaySamples = e.preDelaySamples ∧
      ((e.mapApply Num.b32 (.ofProcess p) cfg).ch.get c).toneLP = (e.ch.get c).toneLP ∧
      ((e.mapApply Num.b32 (.ofProcess p) cfg).ch.get c).toneLS = (e.ch.get c).toneLS := by
  rw [Engine.mapApply_of_unconfigured p cfg e h]
  simp [Engine.pushScalars]

end Fields

/-! ## The coefficients are numbers, and the clamps put them in range -/

namespace F32

/-- A value between 0 and 1 is finite. -/
theorem isFinite_of_inRange {v : Word} (h : inRange 0#32 v (ofRat 1) = true) : isFinite v = true := by
  obtain ⟨h1, h2⟩ := Bool.and_eq_true_iff.1 h
  obtain ⟨-, hn, hk0⟩ := le_iff.1 h1
  obtain ⟨-, -, hk⟩ := le_iff.1 h2
  have e0 : orderKey 0#32 = 0 := by decide
  have e1 : orderKey (ofRat 1) = 0x3F800000 := by decide +kernel
  rw [e0] at hk0
  rw [e1] at hk
  rw [isFinite_iff]
  rcases orderKey_nonneg_iff.1 hk0 with hs | hz
  · unfold orderKey at hk
    rw [hs] at hk
    simp only [Bool.false_eq_true, if_false] at hk
    unfold infBits
    omega
  · rw [isZero_iff.1 hz]; decide

end F32

/-- The derived feedback and damping of a legal `domeAmount` are numbers. -/
theorem mapDerive_notNaN {a : Word} (h : inRange 0#32 a (F32.ofRat 1) = true) :
    F32.isNaN (mapDerive Num.b32 a).combFeedback = false ∧ F32.isNaN (mapDerive Num.b32 a).combDamping = false := by
  have ha := F32.isFinite_of_inRange h
  have c1 : F32.isFinite (F32.ofRat 0.75) = true := by decide +kernel
  have c2 : F32.isFinite (F32.ofRat 0.12) = true := by decide +kernel
  have c3 : F32.isFinite (F32.ofRat 0.15) = true := by decide +kernel
  have c4 : F32.isFinite (F32.ofRat 0.35) = true := by decide +kernel
  exact ⟨F32.isNaN_add c1 (F32.isNaN_mul ha c2), F32.isNaN_add c3 (F32.isNaN_mul ha c4)⟩

theorem b32_ofDecimal_zero : Num.b32.ofDecimal 0 = 0#32 := by decide +kernel

/-- `setFeedback`'s clamp (R143, R36). -/
theorem clampFb_inRange {f : Word} (h : F32.isNaN f = false) :
    inRange 0#32 (clampFb Num.b32 f) (F32.ofRat 0.99) = true := by
  have hb : F32.le 0#32 (F32.ofRat 0.99) = true := by decide +kernel
  have hc : clampFb Num.b32 f = F32.clamp f 0#32 (F32.ofRat 0.99) := by
    rw [clampFb, b32_ofDecimal_zero]; rfl
  rw [hc]
  exact Bool.and_eq_true_iff.2 (F32.clamp_inRange h hb)

/-- `setDamping`'s clamp (R144, R36). -/
theorem clampDamp_inRange {d : Word} (h : F32.isNaN d = false) :
    inRange 0#32 (clampDamp Num.b32 d) (F32.ofRat 1) = true := by
  have hb : F32.le 0#32 (F32.ofRat 1) = true := by decide +kernel
  have hc : clampDamp Num.b32 d = F32.clamp d 0#32 (F32.ofRat 1) := by
    rw [clampDamp, b32_ofDecimal_zero]; rfl
  rw [hc]
  exact Bool.and_eq_true_iff.2 (F32.clamp_inRange h hb)

/-- `setCoefficient`'s clamp (R164, R36). -/
theorem clampCoef_inRange {c : Word} (h : F32.isNaN c = false) :
    inRange 0#32 (clampCoef Num.b32 c) (F32.ofRat 0.9) = true := by
  have hb : F32.le 0#32 (F32.ofRat 0.9) = true := by decide +kernel
  have hc : clampCoef Num.b32 c = F32.clamp c 0#32 (F32.ofRat 0.9) := by
    rw [clampCoef, b32_ofDecimal_zero]; rfl
  rw [hc]
  exact Bool.and_eq_true_iff.2 (F32.clamp_inRange h hb)

/-- `setDomeAmount`'s clamp (R232, R29). -/
theorem clampDome_inRange {a : Word} (h : F32.isNaN a = false) :
    inRange 0#32 (clampDome Num.b32 a) (F32.ofRat 1) = true := clampDamp_inRange h

end Sys2Proof.Machine
end

