-- ==== Sys2Proof/Laws/Engine.lean ====
section
/-! SUPPORT. The engine's invariant (spec/10_state.md rules R24, R28, R29, R35, R36, R37): `map_apply` establishes the
derived part of it, and clearing, processing and configuring keep the rest. -/

namespace Sys2Proof.Machine

/-- What `map_apply` needs of an engine to answer one that has the invariant: everything but the derived registers. -/
structure EngineBase (cfg : Params Word) (e : Engine32) : Prop where
  dome : inRange 0#32 e.domeAmount (F32.ofRat 1) = true
  combs : ∀ c k, LineInv cfg.maxCap (e.comb c k).dl
  allPasses : ∀ c j, AllPassInv cfg.maxCap (e.ap c j)
  preDelays : ∀ c, LineInv cfg.maxCap (e.pre c)
  preDelayRegister : e.sampleRate = none → ∀ c, e.preDelaySamples.get c = (e.pre c).n
  flag : e.configured = e.sampleRate.isSome
  rate : ∀ sr, e.sampleRate = some sr → F64.isPositiveFinite sr = true
  idle : e.sampleRate = none → ∀ D ∈ e.lines, D.cap = 0
  sized : ∀ sr, e.sampleRate = some sr → ∀ D ∈ e.lines, D.cap ≠ 0
  combsAs : ∀ sr, e.sampleRate = some sr → ∀ c k,
    LineAs ((cfg.combMaxMs.get c).get k) ((cfg.combDelayMs.get c).get k) sr (e.comb c k).dl
  allPassesAs : ∀ sr, e.sampleRate = some sr → ∀ c j,
    LineAs ((cfg.apMaxMs.get c).get j) ((cfg.apDelayMs.get c).get j) sr (e.ap c j).dl
  preCap : ∀ sr, e.sampleRate = some sr → ∀ c, (e.pre c).cap = (capacityOf (cfg.preDelayMaxMs.get c) sr).toNat
  equaliser : ∀ sr, e.sampleRate = some sr → ∀ c b, (e.eq c b).coef = some (eqCoef cfg sr b)

theorem Engine.comb_mem_lines (e : Engine32) (c : Fin 2) (k : Fin 8) : (e.comb c k).dl ∈ e.lines :=
  Engine.mem_lines.2 ⟨c, Channel.mem_lines.2 (.inl ⟨k, rfl⟩)⟩

theorem Engine.ap_mem_lines (e : Engine32) (c : Fin 2) (j : Fin 4) : (e.ap c j).dl ∈ e.lines :=
  Engine.mem_lines.2 ⟨c, Channel.mem_lines.2 (.inr (.inl ⟨j, rfl⟩))⟩

theorem Engine.pre_mem_lines (e : Engine32) (c : Fin 2) : e.pre c ∈ e.lines :=
  Engine.mem_lines.2 ⟨c, Channel.mem_lines.2 (.inr (.inr rfl))⟩

/-- A property of every line is one of every comb's, every all-pass's and both pre-delays'. -/
theorem Engine.forall_lines {e : Engine32} {P : DelayLine Word → Prop} :
    (∀ D ∈ e.lines, P D) ↔ (∀ c k, P (e.comb c k).dl) ∧ (∀ c j, P (e.ap c j).dl) ∧ ∀ c, P (e.pre c) := by
  constructor
  · intro h
    exact ⟨fun c k => h _ (e.comb_mem_lines c k), fun c j => h _ (e.ap_mem_lines c j), fun c => h _ (e.pre_mem_lines c)⟩
  · rintro ⟨h1, h2, h3⟩ D hD
    obtain ⟨c, hc⟩ := Engine.mem_lines.1 hD
    rcases Channel.mem_lines.1 hc with ⟨k, rfl⟩ | ⟨j, rfl⟩ | rfl
    · exact h1 c k
    · exact h2 c j
    · exact h3 c

/-- `map_apply` leaves every capacity (R130). -/
theorem Engine.mapApply_caps (p : BqProcess Word) (cfg : Params Word) (e : Engine32) (P : Nat → Prop) (h : ∀ D ∈ e.lines, P D.cap) :
    ∀ D ∈ (e.mapApply Num.b32 (.ofProcess p) cfg).lines, P D.cap := by
  obtain ⟨h1, h2, h3⟩ := Engine.forall_lines.1 h
  refine Engine.forall_lines.2 ⟨fun c k => ?_, fun c j => ?_, fun c => ?_⟩
  · rw [Engine.mapApply_comb]; exact h1 c k
  · rw [Engine.mapApply_ap]; exact h2 c j
  · rw [(Engine.mapApply_pre p cfg e c).1]; exact h3 c

/-- A pre-delay length inside its bounds keeps the line's invariant. -/
theorem LineInv.with_length {maxCap : Nat} {D D' : DelayLine Word} (h : LineInv maxCap D) (hc : D'.cap = D.cap)
    (hb : D'.buf = D.buf) (hw : D'.w = D.w) (h0 : D.cap = 0 → D'.n = none)
    (hn : ∀ k, D'.n = some k → 1 ≤ k ∧ k ≤ D.cap - 1) : LineInv maxCap D' where
  capacity := hc ▸ h.capacity
  unconfigured hz := ⟨hw ▸ (h.unconfigured (hc ▸ hz)).1, h0 (hc ▸ hz)⟩
  cursor hz := by rw [hc, hw]; exact h.cursor (hc ▸ hz)
  length := hc ▸ hn
  canonical := hb ▸ h.canonical
  within := by rw [hb, hc]; exact h.within

/-- `map_apply` establishes the invariant. -/
theorem EngineBase.mapApply {p : BqProcess Word} {cfg : Params Word} {e : Engine32} (h : EngineBase cfg e) :
    EngineInv cfg (e.mapApply Num.b32 (.ofProcess p) cfg) := by
  obtain ⟨k1, k2, k3, k4, k5, k6⟩ := Engine.mapApply_kept p cfg e
  obtain ⟨d1, d2, d3⟩ := Engine.mapApply_derived p cfg e
  obtain ⟨n1, n2⟩ := mapDerive_notNaN h.dome
  have pre_n : e.sampleRate = none → ∀ c, ((e.mapApply Num.b32 (.ofProcess p) cfg).pre c).n = (e.pre c).n ∧
      (e.mapApply Num.b32 (.ofProcess p) cfg).preDelaySamples = e.preDelaySamples := fun hr c => by
    have hc : e.configured = false := by rw [h.flag, hr]; rfl
    exact ⟨(Engine.mapApply_idle p cfg e hc c).1, (Engine.mapApply_idle p cfg e hc c).2.1⟩
  have on : ∀ sr, e.sampleRate = some sr → e.configured = true := fun sr hr => by rw [h.flag, hr]; rfl
  constructor
  case dome => rw [k1]; exact h.dome
  case wet => rw [d1, k1]
  case dry => rw [d2, k1]
  case cutoff => rw [d3, k1]
  case feedback => intro c k; rw [Engine.mapApply_comb, k1]
  case damping => intro c k; rw [Engine.mapApply_comb, k1]
  case combs =>
    intro c k; rw [Engine.mapApply_comb]
    exact ⟨h.combs c k, clampFb_inRange n1, clampDamp_inRange n2⟩
  case allPasses => intro c j; rw [Engine.mapApply_ap]; exact h.allPasses c j
  case preDelays =>
    intro c
    obtain ⟨p1, p2, p3⟩ := Engine.mapApply_pre p cfg e c
    cases hr : e.sampleRate with
    | none =>
      refine (h.preDelays c).with_length p1 p2 p3 (fun hz => ?_) fun k hk => ?_
      · rw [(pre_n hr c).1]; exact ((h.preDelays c).unconfigured hz).2
      · rw [(pre_n hr c).1] at hk; exact (h.preDelays c).length k hk
    | some sr =>
      have hcap := h.sized sr hr _ (e.pre_mem_lines c)
      refine (h.preDelays c).with_length p1 p2 p3 (fun hz => absurd hz hcap) fun k hk => ?_
      rw [(Engine.mapApply_rate p cfg e (on sr hr) hr c).1, Option.some.injEq] at hk
      subst hk
      have h2 : 2 ≤ (e.pre c).cap := by
        rcases (h.preDelays c).capacity with h0 | h0
        · exact absurd h0 hcap
        · exact h0.1
      exact clampLength_bounds h2 _
  case preDelayRegister =>
    intro c
    cases hr : e.sampleRate with
    | none => rw [(pre_n hr c).1, (pre_n hr c).2]; exact h.preDelayRegister hr c
    | some sr =>
      obtain ⟨r1, r2, -⟩ := Engine.mapApply_rate p cfg e (on sr hr) hr c
      rw [r1, r2]
  case flag => rw [k5, k6]; exact h.flag
  case rate => rw [k5]; exact h.rate
  case idle => rw [k5]; exact fun hr => Engine.mapApply_caps p cfg e (· = 0) (h.idle hr)
  case sized => rw [k5]; exact fun sr hr => Engine.mapApply_caps p cfg e (· ≠ 0) (h.sized sr hr)
  case configuredAs =>
    rw [k5]
    intro sr hr c
    obtain ⟨r1, -, r3, r4⟩ := Engine.mapApply_rate p cfg e (on sr hr) hr c
    obtain ⟨p1, -, -⟩ := Engine.mapApply_pre p cfg e c
    constructor
    case combs => intro k; rw [Engine.mapApply_comb]; exact h.combsAs sr hr c k
    case allPasses => intro j; rw [Engine.mapApply_ap]; exact h.allPassesAs sr hr c j
    case preCap => rw [p1]; exact h.preCap sr hr c
    case preLength => rw [r1, p1, k1]
    case equaliser => intro b; rw [Engine.mapApply_eq]; exact h.equaliser sr hr c b
    case toneLP => rw [r3, d3]
    case toneLS => rw [r4, k4]

/-- An engine with the invariant stays fit for `map_apply` when its parameter registers are written with a legal
`domeAmount` (R232, R233). -/
theorem EngineInv.base {cfg : Params Word} {e e' : Engine32} (h : EngineInv cfg e)
    (hd : inRange 0#32 e'.domeAmount (F32.ofRat 1) = true) (hch : e'.ch = e.ch)
    (hp : e'.preDelaySamples = e.preDelaySamples) (hr : e'.sampleRate = e.sampleRate)
    (hc : e'.configured = e.configured) : EngineBase cfg e' := by
  have hl : e'.lines = e.lines := by simp only [Engine.lines, hch]
  constructor
  case dome => exact hd
  case combs => intro c k; rw [Engine.comb_eq, hch]; exact (h.combs c k).line
  case allPasses => intro c j; rw [Engine.ap_eq, hch]; exact h.allPasses c j
  case preDelays => intro c; rw [Engine.pre_eq, hch]; exact h.preDelays c
  case preDelayRegister => intro _ c; rw [hp, Engine.pre_eq, hch]; exact h.preDelayRegister c
  case flag => rw [hc, hr]; exact h.flag
  case rate => rw [hr]; exact h.rate
  case idle => rw [hr, hl]; exact h.idle
  case sized => rw [hr, hl]; exact h.sized
  case combsAs => intro sr hs c k; rw [hr] at hs; rw [Engine.comb_eq, hch]; exact (h.configuredAs sr hs c).combs k
  case allPassesAs => intro sr hs c j; rw [hr] at hs; rw [Engine.ap_eq, hch]; exact (h.configuredAs sr hs c).allPasses j
  case preCap => intro sr hs c; rw [hr] at hs; rw [Engine.pre_eq, hch]; exact (h.configuredAs sr hs c).preCap
  case equaliser => intro sr hs c b; rw [hr] at hs; rw [Engine.eq_eq, hch]; exact (h.configuredAs sr hs c).equaliser b

/-- An engine with the settings of one that has the invariant, and lines that keep theirs, has the invariant. -/
theorem EngineInv.of_settings {cfg : Params Word} {e e' : Engine32} (h : EngineInv cfg e)
    (hs : e'.settings = e.settings) (hl : ∀ D ∈ e'.lines, LineInv cfg.maxCap D) : EngineInv cfg e' := by
  obtain ⟨r1, r2, r3, r4, r5, r6, r7, r8, r9, r10⟩ := Engine.registers_of_settings hs
  have hu := fun c => Channel.units_of_settings (Engine.channels_of_settings hs c)
  have hcomb : ∀ c k, (e'.comb c k).settings = (e.comb c k).settings := fun c => (hu c).1
  have hap : ∀ c j, (e'.ap c j).settings = (e.ap c j).settings := fun c => (hu c).2.1
  have hpre : ∀ c, (e'.pre c).settings = (e.pre c).settings := fun c => (hu c).2.2.1
  have cfb : ∀ c k, (e'.comb c k).fb = (e.comb c k).fb := fun c k => congrArg (fun x => x.fb) (hcomb c k)
  have cda : ∀ c k, (e'.comb c k).damp = (e.comb c k).damp := fun c k => congrArg (fun x => x.damp) (hcomb c k)
  have ccap : ∀ c k, (e'.comb c k).dl.cap = (e.comb c k).dl.cap := fun c k => congrArg (fun x => x.dl.cap) (hcomb c k)
  have cn : ∀ c k, (e'.comb c k).dl.n = (e.comb c k).dl.n := fun c k => congrArg (fun x => x.dl.n) (hcomb c k)
  have ag : ∀ c j, (e'.ap c j).g = (e.ap c j).g := fun c j => congrArg (fun x => x.g) (hap c j)
  have acap : ∀ c j, (e'.ap c j).dl.cap = (e.ap c j).dl.cap := fun c j => congrArg (fun x => x.dl.cap) (hap c j)
  have an : ∀ c j, (e'.ap c j).dl.n = (e.ap c j).dl.n := fun c j => congrArg (fun x => x.dl.n) (hap c j)
  have pcap : ∀ c, (e'.pre c).cap = (e.pre c).cap := fun c => congrArg (fun x => x.cap) (hpre c)
  have pn : ∀ c, (e'.pre c).n = (e.pre c).n := fun c => congrArg (fun x => x.n) (hpre c)
  have caps : ∀ P : Nat → Prop, (∀ D ∈ e.lines, P D.cap) → ∀ D ∈ e'.lines, P D.cap := by
    intro P hP
    obtain ⟨h1, h2, h3⟩ := Engine.forall_lines.1 hP
    exact Engine.forall_lines.2 ⟨fun c k => ccap c k ▸ h1 c k, fun c j => acap c j ▸ h2 c j, fun c => pcap c ▸ h3 c⟩
  constructor
  case dome => rw [r2]; exact h.dome
  case wet => rw [r5, r2]; exact h.wet
  case dry => rw [r6, r2]; exact h.dry
  case cutoff => rw [r7, r2]; exact h.cutoff
  case feedback => intro c k; rw [cfb, r2]; exact h.feedback c k
  case damping => intro c k; rw [cda, r2]; exact h.damping c k
  case combs =>
    intro c k
    exact ⟨hl _ (e'.comb_mem_lines c k), cfb c k ▸ (h.combs c k).feedback, cda c k ▸ (h.combs c k).damping⟩
  case allPasses => intro c j; exact ⟨hl _ (e'.ap_mem_lines c j), ag c j ▸ (h.allPasses c j).coefficient⟩
  case preDelays => intro c; exact hl _ (e'.pre_mem_lines c)
  case preDelayRegister => intro c; rw [r8, pn]; exact h.preDelayRegister c
  case flag => rw [r9, r10]; exact h.flag
  case rate => rw [r9]; exact h.rate
  case idle => rw [r9]; exact fun hr => caps (· = 0) (h.idle hr)
  case sized => rw [r9]; exact fun sr hr => caps (· ≠ 0) (h.sized sr hr)
  case configuredAs =>
    rw [r9]
    intro sr hr c
    have g := h.configuredAs sr hr c
    constructor
    case combs => intro k; exact ⟨(ccap c k).trans (g.combs k).1, by rw [cn, ccap]; exact (g.combs k).2⟩
    case allPasses => intro j; exact ⟨(acap c j).trans (g.allPasses j).1, by rw [an, acap]; exact (g.allPasses j).2⟩
    case preCap => exact (pcap c).trans g.preCap
    case preLength => rw [pn, pcap, r2]; exact g.preLength
    case equaliser => intro b; exact ((hu c).2.2.2.1 b).trans (g.equaliser b)
    case toneLP => rw [r7]; exact (hu c).2.2.2.2.1.trans g.toneLP
    case toneLS => rw [r4]; exact (hu c).2.2.2.2.2.trans g.toneLS

/-- Every line of a configured engine has its invariant and a buffer. -/
theorem EngineInv.lines_ok {cfg : Params Word} {e : Engine32} (h : EngineInv cfg e) (hc : e.configured = true)
    (c : Fin 2) : (e.ch.get c).LinesOk cfg.maxCap := by
  obtain ⟨sr, hr⟩ : ∃ sr, e.sampleRate = some sr := Option.isSome_iff_exists.1 (h.flag ▸ hc)
  exact ⟨fun k => ⟨(h.combs c k).line, h.sized sr hr _ (e.comb_mem_lines c k)⟩,
    fun j => ⟨(h.allPasses c j).line, h.sized sr hr _ (e.ap_mem_lines c j)⟩,
    ⟨h.preDelays c, h.sized sr hr _ (e.pre_mem_lines c)⟩⟩

/-- The maxima that `ENG.CONFIGURE` checks are the lines' (R181, R275). -/
theorem mem_lineMaxima (cfg : Params Word) (c : Fin 2) :
    (∀ k, (cfg.combMaxMs.get c).get k ∈ lineMaxima cfg) ∧ (∀ j, (cfg.apMaxMs.get c).get j ∈ lineMaxima cfg) ∧
      cfg.preDelayMaxMs.get c ∈ lineMaxima cfg := by
  have hk : ∀ (p : Bank8 Rat) k, p.get k ∈ p.toList := fun p k => Bank8.mem_toList.2 ⟨k, rfl⟩
  have hj : ∀ (p : Bank4 Rat) j, p.get j ∈ p.toList := fun p j => Bank4.mem_toList.2 ⟨j, rfl⟩
  fin_cases c <;> refine ⟨fun k => ?_, fun j => ?_, ?_⟩ <;> simp only [lineMaxima, List.mem_append, List.mem_singleton]
  · exact .inl (.inl (.inl (hk _ k)))
  · exact .inl (.inl (.inr (hj _ j)))
  · exact .inl (.inr rfl)
  · exact .inr (.inl (.inl (hk _ k)))
  · exact .inr (.inl (.inr (hj _ j)))
  · exact .inr (.inr rfl)

theorem F32.isNaN_of_le_self {v : Word} (h : F32.le v v = true) : F32.isNaN v = false := (F32.le_iff.1 h).1

/-- The engine after reset has the invariant (R38, R36). -/
theorem EngineInv.reset_engine {p : BqProcess Word} {cfg : Params Word} (h : paramsLegal Num.b32 cfg = true) :
    EngineInv cfg (Engine.reset Num.b32 (.ofProcess p) cfg) := by
  have hd : inRange 0#32 cfg.resetParams.domeAmount (F32.ofRat 1) = true := by
    simp only [paramsLegal, Bool.and_eq_true] at h
    have z : Num.b32.ofDecimal 0 = 0#32 := b32_ofDecimal_zero
    have a := h.1.1.1.2
    rw [z] at a
    exact Bool.and_eq_true_iff.2 ⟨a, h.1.1.2⟩
  have hg : ∀ c j, F32.isNaN ((cfg.apCoeff.get c).get j) = false := by
    intro c j
    simp only [paramsLegal, Bool.and_eq_true, List.all_eq_true, List.mem_append] at h
    have hm := h.1.1.1.1.1.2
    apply F32.isNaN_of_le_self
    fin_cases c
    · exact hm _ (.inl (Bank4.mem_toList.2 ⟨j, rfl⟩))
    · exact hm _ (.inr (Bank4.mem_toList.2 ⟨j, rfl⟩))
  refine EngineBase.mapApply ?_
  constructor
  case dome => exact hd
  case combs => intro c k; simp [Channel.reset, Comb.reset]; exact .unconfigured_line
  case allPasses => intro c j; simp [Channel.reset]; exact ⟨.unconfigured_line, clampCoef_inRange (hg c j)⟩
  case preDelays => intro c; simp [Channel.reset]; exact .unconfigured_line
  case preDelayRegister => intro _ c; fin_cases c <;> rfl
  case flag => rfl
  case rate => intro _ h; cases h
  case idle =>
    intro _
    refine Engine.forall_lines.2 ⟨fun c k => ?_, fun c k => ?_, fun c => ?_⟩ <;>
      simp [Channel.reset, Comb.reset] <;> rfl
  case sized => intro _ h; cases h
  case combsAs => intro _ h; cases h
  case allPassesAs => intro _ h; cases h
  case preCap => intro _ h; cases h
  case equaliser => intro _ h; cases h

/-- A successful `ENG.CONFIGURE` keeps it (R181). -/
theorem EngineInv.configure {p : BqProcess Word} {cfg : Params Word} {e : Engine32} (h : EngineInv cfg e) {sr : DWord} {hint : Int}
    (hc : checkEngConfigure cfg sr hint = none) : EngineInv cfg (e.configure Num.b32 (.ofProcess p) cfg sr) := by
  obtain ⟨h1, -, h2⟩ := checkEngConfigure_eq_none.1 hc
  have fresh : ∀ m ∈ lineMaxima cfg, 2 ≤ (capacityOf m sr).toNat ∧ (capacityOf m sr).toNat ≤ cfg.maxCap := by
    intro m hm; have := h2 m hm; omega
  have line : ∀ m d, m ∈ lineMaxima cfg → LineInv cfg.maxCap (configuredLine m d sr : DelayLine Word) ∧
      (configuredLine m d sr : DelayLine Word).cap ≠ 0 := by
    intro m d hm
    obtain ⟨a, b⟩ := fresh m hm
    exact ⟨(LineInv.fresh_line a b).setLength (by simp; omega) _, by simp [configuredLine]; omega⟩
  have hm := fun c => mem_lineMaxima cfg c
  refine EngineBase.mapApply ?_
  constructor
  case dome => exact h.dome
  case combs => intro c k; simp [Channel.configure]; exact (line _ _ ((hm c).1 k)).1
  case allPasses => intro c j; simp [Channel.configure]; exact ⟨(line _ _ ((hm c).2.1 j)).1, (h.allPasses c j).coefficient⟩
  case preDelays => intro c; simp [Channel.configure]; obtain ⟨a, b⟩ := fresh _ (hm c).2.2; exact .fresh_line a b
  case preDelayRegister => intro h; cases h
  case flag => rfl
  case rate => rintro _ ⟨⟩; exact h1
  case idle => intro h; cases h
  case sized =>
    intro _ _
    refine Engine.forall_lines.2 ⟨fun c k => ?_, fun c k => ?_, fun c => ?_⟩ <;>
      simp only [Engine.comb_eq, Engine.ap_eq, Engine.pre_eq, Stereo.get_ofFn, Channel.configure, Bank8.get_ofFn, Bank4.get_ofFn]
    · exact (line _ _ ((hm c).1 k)).2
    · exact (line _ _ ((hm c).2.1 k)).2
    · obtain ⟨a, b⟩ := fresh _ (hm c).2.2; simp; omega
  case combsAs => rintro _ ⟨⟩ c k; simp [Channel.configure]; exact ⟨rfl, rfl⟩
  case allPassesAs => rintro _ ⟨⟩ c k; simp [Channel.configure]; exact ⟨rfl, rfl⟩
  case preCap => rintro _ ⟨⟩ c; simp [Channel.configure]
  case equaliser => rintro _ ⟨⟩ c b; simp [Channel.configure]

/-- Lines that are well are well one by one. -/
theorem Channel.LinesOk.lines {mc : Nat} {e : Engine32} (h : ∀ c, (e.ch.get c).LinesOk mc) :
    ∀ D ∈ e.lines, LineInv mc D :=
  Engine.forall_lines.2 ⟨fun c k => ((h c).combs k).1, fun c j => ((h c).allPasses j).1, fun c => (h c).pre.1⟩

/-- A unit's successful `CONFIGURE` leaves a line with its invariant (R125). -/
theorem configureLine_inv {mc : Nat} {sr : DWord} {ms : Word} (h : checkConfigure mc sr ms = none) :
    LineInv mc (configureLine sr ms) := by
  obtain ⟨-, -, h1, h2⟩ := checkConfigure_eq_none.1 h
  exact .fresh_line (by omega) (by omega)

/-- `ENG.SETDOME` keeps it (R232). -/
theorem EngineInv.setDome {p : BqProcess Word} {cfg : Params Word} {e : Engine32} (h : EngineInv cfg e) {a : Word} (ha : F32.isNaN a = false) :
    EngineInv cfg (e.setDome Num.b32 (.ofProcess p) cfg a) :=
  (EngineInv.base (e' := { e with domeAmount := clampDome Num.b32 a }) h (clampDome_inRange ha) rfl rfl rfl rfl).mapApply

/-- The table's amounts are legal (R230). -/
theorem presetRow_inRange (id : Preset) : inRange 0#32 (presetRow Num.b32 id).domeAmount (F32.ofRat 1) = true := by
  cases id <;> decide +kernel

/-- `ENG.SETPRESET` keeps it (R233). -/
theorem EngineInv.setPreset {p : BqProcess Word} {cfg : Params Word} {e : Engine32} (h : EngineInv cfg e) (id : Preset) :
    EngineInv cfg (e.setPreset Num.b32 (.ofProcess p) cfg id) :=
  (EngineInv.base (e' := { e with
      preset := id
      domeAmount := (presetRow Num.b32 id).domeAmount
      stereoWidth := (presetRow Num.b32 id).stereoWidth
      bassBoost := (presetRow Num.b32 id).bassBoost }) h (presetRow_inRange id) rfl rfl rfl rfl).mapApply

end Sys2Proof.Machine
end

