-- ==== Sys2Proof/Laws/History.lean ====
section
/-! SUPPORT. What a buffer holds after writes (spec/10_state.md rule R35, spec/40_delay_line.md rules R121 to R123), over any
`NUM`: the induction step that claims about streams of samples are built on. -/

namespace Sys2Proof.Machine

variable {S : Type}

/-- The index `k` places behind the cursor. -/
theorem back_eq {w cap k : Nat} (hw : w < cap) (h1 : 1 ≤ k) (h2 : k ≤ cap) :
    (w + cap - k) % cap = if k ≤ w then w - k else w + cap - k := by
  split
  · rw [show w + cap - k = (w - k) + cap by omega, Nat.add_mod_right, Nat.mod_eq_of_lt (by omega)]
  · exact Nat.mod_eq_of_lt (by omega)

/-- The cursor after an advance, without the remainder. -/
theorem advance_eq {w cap : Nat} (hw : w < cap) : (w + 1) % cap = if w = cap - 1 then 0 else w + 1 := by
  split
  · next h => rw [show w + 1 = cap by omega, Nat.mod_self]
  · exact Nat.mod_eq_of_lt (by omega)

/-- `vs`, latest first, are the values stored since the buffer was zero. -/
def DelayLine.Holds (N : Num S) (D : DelayLine S) (vs : List S) : Prop :=
  D.w < D.cap ∧ D.buf.wf N.zero ∧
    ∀ k, 1 ≤ k → k ≤ D.cap → D.buf.read N.zero ((D.w + D.cap - k) % D.cap) = vs.getD (k - 1) N.zero

theorem DelayLine.Holds.of_empty {N : Num S} {D : DelayLine S} (hw : D.w < D.cap) (hb : D.buf = []) : D.Holds N [] :=
  ⟨hw, by rw [hb]; exact Memory.wf_nil, fun k _ _ => by rw [hb]; simp⟩

/-- A set length does not matter to what the buffer holds. -/
theorem DelayLine.Holds.congr {N : Num S} {D D' : DelayLine S} {vs : List S} (h : D.Holds N vs) (h1 : D'.cap = D.cap)
    (h2 : D'.buf = D.buf) (h3 : D'.w = D.w) : D'.Holds N vs := by
  unfold DelayLine.Holds at *; rw [h1, h2, h3]; exact h

/-- One sample stores one value in front. -/
theorem DelayLine.Holds.write_advance [DecidableEq S] {N : Num S} {D : DelayLine S} {vs : List S} (h : D.Holds N vs)
    (v : S) : (D.write N v).advance.Holds N (v :: vs) := by
  obtain ⟨hw, hwf, hh⟩ := h
  refine ⟨Nat.mod_lt _ (Nat.zero_lt_of_lt hw), Memory.wf_write hwf _ _, fun k h1 h2 => ?_⟩
  simp only [DelayLine.advance_w, DelayLine.advance_cap, DelayLine.advance_buf, DelayLine.write_cap, DelayLine.write_w,
    DelayLine.write_buf] at h2 ⊢
  rw [back_eq (Nat.mod_lt _ (by omega)) h1 h2, advance_eq hw]
  rcases Nat.eq_or_lt_of_le h1 with rfl | hk
  · have : (if 1 ≤ (if D.w = D.cap - 1 then 0 else D.w + 1) then (if D.w = D.cap - 1 then 0 else D.w + 1) - 1
        else (if D.w = D.cap - 1 then 0 else D.w + 1) + D.cap - 1) = D.w := by
      split <;> split at * <;> omega
    rw [this, Memory.read_write_same hwf]
    rfl
  · obtain ⟨j, rfl⟩ : ∃ j, k = j + 1 := ⟨k - 1, by omega⟩
    have := hh j (by omega) (by omega)
    rw [back_eq hw (by omega) (by omega)] at this
    have he : (if j + 1 ≤ (if D.w = D.cap - 1 then 0 else D.w + 1) then (if D.w = D.cap - 1 then 0 else D.w + 1) - (j + 1)
        else (if D.w = D.cap - 1 then 0 else D.w + 1) + D.cap - (j + 1)) = if j ≤ D.w then D.w - j else D.w + D.cap - j := by
      split <;> split at * <;> split <;> omega
    rw [he, Memory.read_write_other hwf _ (by split <;> omega), this]
    cases j with
    | zero => omega
    | succ j => rfl

/-- The value a sample reads is the one stored `n` samples ago. -/
theorem DelayLine.Holds.read {N : Num S} {D : DelayLine S} {vs : List S} (h : D.Holds N vs) {n : Nat} (hn : D.n = some n)
    (h1 : 1 ≤ n) (h2 : n ≤ D.cap - 1) : D.read N = vs.getD (n - 1) N.zero := by
  rw [DelayLine.read, DelayLine.readIndex_eq hn (by omega)]
  exact h.2.2 n h1 (by omega)

end Sys2Proof.Machine
end

