-- ==== Sys2Proof/Laws/Nearest.lean ====
section
/-! SUPPORT. Rounding answers a nearest number of the format, the even one of two equally near (spec/00_scope.md rule R12);
the operations are monotone (spec/44_parameter_mapper.md rule R234). -/

namespace Sys2Proof.Machine

/-- The rounded quotient is the nearest multiple, the even one of two equally near. -/
theorem roundedQuotient_nearest (m q : Nat) (j : Int) :
    |(roundedQuotient m q : Int) * 2 ^ q - m| ≤ |j * 2 ^ q - m| ∧
      (|(roundedQuotient m q : Int) * 2 ^ q - m| = |j * 2 ^ q - m| → j ≠ roundedQuotient m q →
        roundedQuotient m q % 2 = 0) := by
  have hp : (0 : Int) < 2 ^ q := by positivity
  have hdm : ((m / 2 ^ q : Nat) : Int) * 2 ^ q + ((m % 2 ^ q : Nat) : Int) = m := by
    have := Nat.div_add_mod m (2 ^ q)
    have h2 : ((2 ^ q * (m / 2 ^ q) + m % 2 ^ q : Nat) : Int) = (m : Int) := by rw [this]
    push_cast at h2 ⊢
    linarith
  have hlt : ((m % 2 ^ q : Nat) : Int) < 2 ^ q := by
    have := Nat.mod_lt m (Nat.two_pow_pos q)
    have h2 : ((m % 2 ^ q : Nat) : Int) < ((2 ^ q : Nat) : Int) := Int.ofNat_lt.2 this
    simpa using h2
  have hr0 : (0 : Int) ≤ ((m % 2 ^ q : Nat) : Int) := Int.natCast_nonneg _
  have hc1 : (2 ^ q < 2 * (m % 2 ^ q)) ↔ (2 : Int) ^ q < 2 * ((m % 2 ^ q : Nat) : Int) := by
    rw [← Int.ofNat_lt]; push_cast; rfl
  have hc2 : (2 * (m % 2 ^ q) = 2 ^ q) ↔ 2 * ((m % 2 ^ q : Nat) : Int) = (2 : Int) ^ q := by
    rw [← Int.ofNat_inj]; push_cast; rfl
  unfold roundedQuotient
  simp only [hc1, hc2]
  generalize ((m % 2 ^ q : Nat) : Int) = r at *
  generalize m / 2 ^ q = k at *
  generalize (2 : Int) ^ q = P at *
  rw [← hdm]
  -- distance of `j * P` from `k * P + r`
  rcases Int.lt_trichotomy j k with hj | rfl | hj
  · have h1 : j * P ≤ ((k : Int) - 1) * P := by nlinarith
    have h2 : |j * P - ((k : Int) * P + r)| = (k : Int) * P + r - j * P := by rw [abs_of_nonpos] <;> linarith
    rw [h2]
    split
    · push_cast
      rw [abs_of_nonneg (by linarith)]
      exact ⟨by linarith, fun h => by exfalso; linarith⟩
    · split
      · rcases Nat.mod_two_eq_zero_or_one k with hk | hk <;> rw [hk] <;> push_cast
        · rw [abs_of_nonpos (by linarith)]
          exact ⟨by linarith, fun h => by exfalso; linarith⟩
        · rw [abs_of_nonneg (by linarith)]
          exact ⟨by linarith, fun h => by exfalso; linarith⟩
      · push_cast
        rw [abs_of_nonpos (by linarith)]
        exact ⟨by linarith, fun h => by exfalso; linarith⟩
  · have h2 : |(k : Int) * P - ((k : Int) * P + r)| = r := by rw [abs_of_nonpos] <;> linarith
    rw [h2]
    split
    · push_cast
      rw [abs_of_nonneg (by linarith)]
      exact ⟨by linarith, fun h => by exfalso; linarith⟩
    · split
      · rcases Nat.mod_two_eq_zero_or_one k with hk | hk <;> rw [hk] <;> push_cast
        · rw [abs_of_nonpos (by linarith)]
          exact ⟨by linarith, fun _ _ => by omega⟩
        · rw [abs_of_nonneg (by linarith)]
          exact ⟨by linarith, fun _ _ => by omega⟩
      · push_cast
        rw [abs_of_nonpos (by linarith)]
        exact ⟨by linarith, fun _ h => absurd (by simp) h⟩
  · have h1 : ((k : Int) + 1) * P ≤ j * P := by nlinarith
    have h2 : |j * P - ((k : Int) * P + r)| = j * P - ((k : Int) * P + r) := by rw [abs_of_nonneg]; linarith
    rw [h2]
    split
    · push_cast
      rw [abs_of_nonneg (by linarith)]
      refine ⟨by linarith, fun h hne => ?_⟩
      exfalso
      apply hne
      have : (j - (k + 1)) * P = 0 := by linarith
      rcases mul_eq_zero.1 this with h | h
      · linarith
      · omega
    · split
      · rcases Nat.mod_two_eq_zero_or_one k with hk | hk <;> rw [hk] <;> push_cast
        · rw [abs_of_nonpos (by linarith)]
          exact ⟨by linarith, fun _ _ => by omega⟩
        · rw [abs_of_nonneg (by linarith)]
          exact ⟨by linarith, fun _ _ => by omega⟩
      · push_cast
        rw [abs_of_nonpos (by linarith)]
        refine ⟨by linarith, fun h => ?_⟩
        exfalso
        have h3 : P ≤ 2 * r := by linarith
        omega

namespace F32

/-- The encoding a magnitude rounds to, in exact units, is a nearest one to it among the finite encodings, the even one of two
equally near. -/
theorem roundMagnitude_nearest {mag k m' : Nat} (h : roundMagnitude 24 infBits mag k < infBits) (_ : m' < infBits) :
    |(scaledOf (roundMagnitude 24 infBits mag k) : Int) * 2 ^ k - mag| ≤ |(scaledOf m' : Int) * 2 ^ k - mag| ∧
      (|(scaledOf (roundMagnitude 24 infBits mag k) : Int) * 2 ^ k - mag| = |(scaledOf m' : Int) * 2 ^ k - mag| →
        m' ≠ roundMagnitude 24 infBits mag k → roundMagnitude 24 infBits mag k % 2 = 0) := by
  have hval := scaledOf_roundMagnitude h
  have hrm := roundMagnitude_eq 24 infBits mag k
  have hq := le_droppedBits 24 mag k
  have hge := fun hk => kept_ge (p := 24) (m := mag) (k := k) (by decide) hk
  generalize hqd : droppedBits 24 mag k = q at *
  have hlt : (q - k) * 2 ^ (24 - 1) + roundedQuotient mag q < infBits := by
    rw [hrm] at h; omega
  have hr : roundMagnitude 24 infBits mag k = (q - k) * 2 ^ 23 + roundedQuotient mag q := by
    rw [hrm]; exact Nat.min_eq_left (Nat.le_of_lt hlt)
  have hR : (scaledOf (roundMagnitude 24 infBits mag k) : Int) * 2 ^ k = (roundedQuotient mag q : Int) * 2 ^ q := by
    rw [hval]; push_cast
    rw [mul_assoc, ← pow_add, Nat.sub_add_cancel hq]
  have hpar : roundMagnitude 24 infBits mag k % 2 = roundedQuotient mag q % 2 := by rw [hr]; omega
  rw [hR, hpar]
  obtain ⟨e, n, hen, hn, he⟩ := exists_parts m'
  have hV : (scaledOf m' : Int) * 2 ^ k = (n : Int) * 2 ^ (e + k) := by
    rw [hen, scaledOf_parts (Nat.le_of_lt hn) he]; push_cast; rw [mul_assoc, ← pow_add]
  rcases Nat.lt_or_ge (e + k) q with hek | hek
  · -- a finer binade: every number of it lies below the binade of `mag`
    have hkept := hge (by omega)
    have hmag : (2 : Int) ^ 23 * 2 ^ q ≤ mag := by
      have h1 : 2 ^ 23 * 2 ^ q ≤ mag := Nat.le_trans (Nat.mul_le_mul_right _ hkept) (Nat.div_mul_le_self _ _)
      exact_mod_cast h1
    have hbelow : (n : Int) * 2 ^ (e + k) < 2 ^ 23 * 2 ^ q := by
      have h1 : n * 2 ^ (e + k) < 2 ^ 24 * 2 ^ (e + k) := Nat.mul_lt_mul_of_pos_right hn (Nat.two_pow_pos _)
      have h2 : 2 ^ 24 * 2 ^ (e + k) ≤ 2 ^ 23 * 2 ^ q := by
        have : 2 ^ (e + k + 1) ≤ 2 ^ q := Nat.pow_le_pow_right (by decide) hek
        rw [Nat.pow_succ] at this
        omega
      exact_mod_cast Nat.lt_of_lt_of_le h1 h2
    obtain ⟨hn1, -⟩ := roundedQuotient_nearest mag q (2 ^ 23)
    rw [hV]
    have h1 : |(2 : Int) ^ 23 * 2 ^ q - mag| < |(n : Int) * 2 ^ (e + k) - mag| := by
      rw [abs_of_nonpos (by linarith), abs_of_nonpos (by linarith)]; linarith
    exact ⟨le_of_lt (lt_of_le_of_lt hn1 h1), fun h2 => by exfalso; linarith [lt_of_le_of_lt hn1 h1]⟩
  · -- a multiple of what was dropped
    have hj : (scaledOf m' : Int) * 2 ^ k = ((n : Int) * 2 ^ (e + k - q)) * 2 ^ q := by
      rw [hV, mul_assoc, ← pow_add, Nat.sub_add_cancel hek]
    rw [hj]
    obtain ⟨h1, h2⟩ := roundedQuotient_nearest mag q ((n : Int) * 2 ^ (e + k - q))
    refine ⟨h1, fun h3 hne => h2 h3 fun h4 => hne ?_⟩
    have h5 : scaledOf m' * 2 ^ k = scaledOf (roundMagnitude 24 infBits mag k) * 2 ^ k := by
      have : (scaledOf m' : Int) * 2 ^ k = (scaledOf (roundMagnitude 24 infBits mag k) : Int) * 2 ^ k := by
        rw [hj, hR, h4]
      exact_mod_cast this
    have h6 := Nat.eq_of_mul_eq_mul_right (Nat.two_pow_pos k) h5
    exact Nat.le_antisymm (scaledOf_le_iff.1 (Nat.le_of_eq h6)) (scaledOf_le_iff.1 (Nat.le_of_eq h6.symm))

/-- A rounded result that is finite is a nearest number to the exact one, signs and all: `x` is the exact result in units of
`2^-(149+k)`. -/
theorem round_nearest {x : Int} {k : Nat} {neg : Bool} (hneg : neg = decide (x < 0) ∨ x = 0)
    (hf : isFinite (round neg x.natAbs k) = true) {z : Word} (hz : isFinite z = true) :
    |scaled (round neg x.natAbs k) * 2 ^ k - x| ≤ |scaled z * 2 ^ k - x| ∧
      (|scaled (round neg x.natAbs k) * 2 ^ k - x| = |scaled z * 2 ^ k - x| → scaled z ≠ scaled (round neg x.natAbs k) →
        (round neg x.natAbs k).toNat % 2 = 0) := by
  have hm : magnitude (round neg x.natAbs k) = roundMagnitude 24 infBits x.natAbs k := round_magnitude _ _ _
  have hs : negative (round neg x.natAbs k) = neg := round_negative _ _ _
  have hlt : roundMagnitude 24 infBits x.natAbs k < infBits := by rw [← hm]; exact isFinite_iff.1 hf
  have hpar : (round neg x.natAbs k).toNat % 2 = roundMagnitude 24 infBits x.natAbs k % 2 := by
    rw [round, pack_toNat (Nat.lt_trans hlt (by decide))]; split <;> omega
  obtain ⟨n1, n2⟩ := roundMagnitude_nearest hlt (isFinite_iff.1 hz)
  obtain ⟨z1, z2⟩ := roundMagnitude_nearest (m' := 0) hlt (by decide)
  have hP : (0 : Int) < 2 ^ k := by positivity
  rw [hpar]
  have hr : scaled (round neg x.natAbs k) =
      if neg then -(scaledOf (roundMagnitude 24 infBits x.natAbs k) : Int)
      else (scaledOf (roundMagnitude 24 infBits x.natAbs k) : Int) := by
    unfold scaled scaledMagnitude; rw [hs, hm]
  have hzv : scaled z = if negative z then -(scaledOf (magnitude z) : Int) else (scaledOf (magnitude z) : Int) := rfl
  rw [hr, hzv]
  have hAB : magnitude z = roundMagnitude 24 infBits x.natAbs k →
      (scaledOf (magnitude z) : Int) = scaledOf (roundMagnitude 24 infBits x.natAbs k) := fun h => by rw [h]
  have hA : (0 : Int) ≤ scaledOf (roundMagnitude 24 infBits x.natAbs k) := Int.natCast_nonneg _
  have hB : (0 : Int) ≤ scaledOf (magnitude z) := Int.natCast_nonneg _
  have hB0 : (scaledOf (magnitude z) : Int) = 0 → magnitude z = 0 := fun h => scaledOf_eq_zero.1 (by exact_mod_cast h)
  have hA0 : roundMagnitude 24 infBits x.natAbs k = 0 → (scaledOf (roundMagnitude 24 infBits x.natAbs k) : Int) = 0 :=
    fun h => by rw [h]; rfl
  simp only [scaledOf_zero, Nat.cast_zero, zero_mul, zero_sub, abs_neg] at z1 z2
  have hx : x = if neg then -(x.natAbs : Int) else (x.natAbs : Int) := by
    rcases hneg with rfl | rfl
    · by_cases h : x < 0
      · simp only [h, decide_true, if_true]; omega
      · simp only [h, decide_false, Bool.false_eq_true, if_false]; omega
    · simp
  have hX : (0 : Int) ≤ x.natAbs := Int.natCast_nonneg _
  have hXa : |(x.natAbs : Int)| = x.natAbs := abs_of_nonneg hX
  rw [hXa] at z1 z2
  have hodd : ∀ B : Int, 0 ≤ B → (x.natAbs : Int) ≤ |-B * 2 ^ k - x.natAbs| ∧
      (|-B * 2 ^ k - x.natAbs| = x.natAbs → B = 0) := by
    intro B hB
    have h1 : 0 ≤ B * 2 ^ k := Int.mul_nonneg hB hP.le
    rw [abs_of_nonpos (by linarith)]
    refine ⟨by linarith, fun h => ?_⟩
    have : B * 2 ^ k = 0 := by linarith
    rcases mul_eq_zero.1 this with h | h
    · exact h
    · omega
  -- the same sign: the magnitudes decide
  have same : |(scaledOf (roundMagnitude 24 infBits x.natAbs k) : Int) * 2 ^ k - x.natAbs| ≤
        |(scaledOf (magnitude z) : Int) * 2 ^ k - x.natAbs| ∧
      (|(scaledOf (roundMagnitude 24 infBits x.natAbs k) : Int) * 2 ^ k - x.natAbs| =
          |(scaledOf (magnitude z) : Int) * 2 ^ k - x.natAbs| →
        (scaledOf (magnitude z) : Int) ≠ scaledOf (roundMagnitude 24 infBits x.natAbs k) →
          roundMagnitude 24 infBits x.natAbs k % 2 = 0) := ⟨n1, fun h hne => n2 h fun h2 => hne (hAB h2)⟩
  -- opposite signs: zero is at least as near as `z`
  have opposite : |(scaledOf (roundMagnitude 24 infBits x.natAbs k) : Int) * 2 ^ k - x.natAbs| ≤
        |-(scaledOf (magnitude z) : Int) * 2 ^ k - x.natAbs| ∧
      (|(scaledOf (roundMagnitude 24 infBits x.natAbs k) : Int) * 2 ^ k - x.natAbs| =
          |-(scaledOf (magnitude z) : Int) * 2 ^ k - x.natAbs| →
        -(scaledOf (magnitude z) : Int) ≠ scaledOf (roundMagnitude 24 infBits x.natAbs k) →
          roundMagnitude 24 infBits x.natAbs k % 2 = 0) := by
    obtain ⟨o1, o2⟩ := hodd _ hB
    refine ⟨z1.trans o1, fun h hne => ?_⟩
    have hB2 := o2 (le_antisymm (h ▸ z1) o1)
    have h2 : |(scaledOf (roundMagnitude 24 infBits x.natAbs k) : Int) * 2 ^ k - x.natAbs| = x.natAbs := by
      rw [h, hB2]; simp
    by_cases h3 : roundMagnitude 24 infBits x.natAbs k = 0
    · rw [h3]
    · exact z2 h2 (Ne.symm h3)
  have flip : ∀ a b : Int, |-a - -b| = |a - b| := fun a b => by rw [← abs_neg]; congr 1; ring
  cases neg <;> cases negative z <;> simp only [Bool.false_eq_true, if_true, if_false] at hx ⊢
  · rw [← hx] at same; exact same
  · rw [← hx] at opposite; exact opposite
  · have e1 : ∀ a : Int, |-a * 2 ^ k - x| = |a * 2 ^ k - x.natAbs| := fun a => by rw [hx, neg_mul, flip]; simp
    have e2 : ∀ a : Int, |a * 2 ^ k - x| = |-a * 2 ^ k - x.natAbs| := fun a => by rw [← e1, neg_neg]
    rw [e1, e2]
    exact ⟨opposite.1, fun h hne => opposite.2 h fun h2 => hne (by omega)⟩
  · have e1 : ∀ a : Int, |-a * 2 ^ k - x| = |a * 2 ^ k - x.natAbs| := fun a => by rw [hx, neg_mul, flip]; simp
    rw [e1, e1]
    exact ⟨same.1, fun h hne => same.2 h fun h2 => hne (by omega)⟩

/-! ## Monotonicity in exact units (spec/44_parameter_mapper.md rule R234's argument) -/

/-- The sign of a nonzero product (R12). -/
theorem negative_bne {a b : Word} (hz : scaled a * scaled b ≠ 0) :
    (negative a != negative b) = decide (scaled a * scaled b < 0) := by
  have h3 : (0 : Int) ≤ (scaledMagnitude a : Int) * scaledMagnitude b :=
    Int.mul_nonneg (Int.natCast_nonneg _) (Int.natCast_nonneg _)
  cases ha : negative a <;> cases hb : negative b <;>
    simp only [scaled, ha, hb, if_true, Bool.false_eq_true, if_false, neg_mul, mul_neg, neg_neg] at hz ⊢ <;>
    (first | rw [decide_eq_false (by omega)] | rw [decide_eq_true (by omega)]) <;> rfl

theorem scaled_round {neg : Bool} {m k : Nat} :
    scaled (round neg m k) =
      if neg then -(scaledOf (roundMagnitude 24 infBits m k) : Int) else scaledOf (roundMagnitude 24 infBits m k) := by
  unfold scaled scaledMagnitude; rw [round_negative, round_magnitude]

/-- Rounding is monotone in the exact result: "binary32 multiplication and addition are monotone" (R234). -/
theorem scaled_round_mono {x y : Int} (k : Nat) (h : x ≤ y) :
    scaled (round (decide (x < 0)) x.natAbs k) ≤ scaled (round (decide (y < 0)) y.natAbs k) := by
  rw [scaled_round, scaled_round]
  have mono := fun {a b : Nat} (h : a ≤ b) =>
    scaledOf_le_iff.2 (roundMagnitude_mono (p := 24) (by decide) infBits k h)
  by_cases hx : x < 0 <;> by_cases hy : y < 0 <;>
    simp only [hx, hy, decide_true, decide_false, if_true, Bool.false_eq_true, if_false]
  · have := mono (a := y.natAbs) (b := x.natAbs) (by omega); omega
  · omega
  · omega
  · have := mono (a := x.natAbs) (b := y.natAbs) (by omega); omega

/-- A product in exact units: the rounded exact product. -/
theorem scaled_mul {a b : Word} (ha : isFinite a = true) (hb : isFinite b = true) :
    scaled (mul a b) = scaled (round (decide (scaled a * scaled b < 0)) (scaled a * scaled b).natAbs 149) := by
  have hn : (scaled a * scaled b).natAbs = scaledMagnitude a * scaledMagnitude b := by
    rw [Int.natAbs_mul, natAbs_scaled, natAbs_scaled]
  by_cases hz : scaled a * scaled b = 0
  · have h0 : roundMagnitude 24 infBits 0 149 = 0 := by decide +kernel
    rw [mul_of_finite ha hb, ← hn, hz, scaled_round, scaled_round, Int.natAbs_zero, h0]
    simp
  · rw [mul_of_finite ha hb, negative_bne hz, hn]

/-- A sum in exact units: the rounded exact sum. -/
theorem scaled_add {a b : Word} (ha : isFinite a = true) (hb : isFinite b = true) :
    scaled (add a b) = scaled (round (decide (scaled a + scaled b < 0)) (scaled a + scaled b).natAbs 0) := by
  rw [add_of_finite ha hb]
  unfold addFinite
  simp only
  split
  · next h =>
    have h0 : roundMagnitude 24 infBits 0 0 = 0 := by decide +kernel
    rw [h, scaled_round, Int.natAbs_zero, h0, scaled_of_isZero (isZero_pack_zero _)]
    simp
  · rfl

@[simp] theorem scaled_neg (a : Word) : scaled (neg a) = -scaled a := by
  unfold scaled scaledMagnitude
  rw [negative_neg, magnitude_neg]
  cases negative a <;> simp

/-- Multiplying by a number of one sign is monotone. -/
theorem scaled_mul_mono {a b c : Word} (ha : isFinite a = true) (hb : isFinite b = true) (hc : isFinite c = true)
    (h : scaled a ≤ scaled b) (h0 : 0 ≤ scaled c) : scaled (mul a c) ≤ scaled (mul b c) := by
  rw [scaled_mul ha hc, scaled_mul hb hc]
  exact scaled_round_mono _ (Int.mul_le_mul_of_nonneg_right h h0)

/-- Adding to a number is monotone. -/
theorem scaled_add_mono {a b c : Word} (ha : isFinite a = true) (hb : isFinite b = true) (hc : isFinite c = true)
    (h : scaled a ≤ scaled b) : scaled (add c a) ≤ scaled (add c b) := by
  rw [scaled_add hc ha, scaled_add hc hb]
  exact scaled_round_mono _ (by omega)

/-- Subtracting from a number reverses the order. -/
theorem scaled_sub_anti {a b c : Word} (ha : isFinite a = true) (hb : isFinite b = true) (hc : isFinite c = true)
    (h : scaled a ≤ scaled b) : scaled (sub c b) ≤ scaled (sub c a) := by
  rw [sub_of_finite hc ha, sub_of_finite hc hb, ← add_of_finite hc (isFinite_neg ha), ← add_of_finite hc (isFinite_neg hb)]
  exact scaled_add_mono (isFinite_neg hb) (isFinite_neg ha) hc (by simp only [scaled_neg]; omega)

/-- A number between two finite ones is finite. -/
theorem isFinite_of_between {lo v hi : Word} (hlo : isFinite lo = true) (hhi : isFinite hi = true)
    (h1 : scaled lo ≤ scaled v) (h2 : scaled v ≤ scaled hi) : isFinite v = true := by
  rw [isFinite_iff] at *
  have e1 := scaled_le_iff.1 h1
  have e2 := scaled_le_iff.1 h2
  unfold orderKey at e1 e2
  split at e1 <;> split at e2 <;> split at e1 <;> split at e2 <;> simp_all <;> omega

end F32

end Sys2Proof.Machine
end

