-- ==== Sys2Proof/Laws/PerInstr.lean ====
section
/-! SUPPORT. Statements made of every instruction, one lemma a constructor. `OneRow`: the command has a row in the table of
spec/30_encoding.md rule R100 with its mnemonic and port, and its words are as many as the row's format has (rules R92, R106). -/

namespace Sys2Proof.Laws.OneRow

/-- The command's own row of the opcode table fits its mnemonic, its port and the length of its encoding. -/
def Statement (i : Instr) : Prop :=
  ∃ r ∈ opcodeTable, r.mnemonic = i.mnemonic ∧ r.port = i.port ∧ (encode i).length = r.format.words

/-- A row of the table that fits makes the statement true. -/
theorem of_row (i : Instr) (r : Row) (hm : r ∈ opcodeTable) (hn : r.mnemonic = i.mnemonic) (hp : r.port = i.port)
    (hl : (encode i).length = r.format.words) : Statement i := ⟨r, hm, hn, hp, hl⟩

theorem dlConfigure (sampleRate : DWord) (maxDelayMs : Word) : Statement (.dlConfigure sampleRate maxDelayMs) :=
  of_row _ ⟨"DL.CONFIGURE", 0x01, .cu, 0x01000000#32, 0xFFFFFFFF#32, .dl⟩ (by simp [opcodeTable, dlRows]) rfl rfl rfl

theorem dlSetDelay (n : Int) : Statement (.dlSetDelay n) :=
  of_row _ ⟨"DL.SETDELAY", 0x02, .i1, 0x02000000#32, 0xFFFFFFFF#32, .dl⟩ (by simp [opcodeTable, dlRows]) rfl rfl rfl

theorem dlClear : Statement (.dlClear) :=
  of_row _ ⟨"DL.CLEAR", 0x03, .n0, 0x03000000#32, 0xFFFFFFFF#32, .dl⟩ (by simp [opcodeTable, dlRows]) rfl rfl rfl

theorem dlTick (x : Word) : Statement (.dlTick x) :=
  of_row _ ⟨"DL.TICK", 0x04, .f1, 0x04000000#32, 0xFFFFFFFF#32, .dl⟩ (by simp [opcodeTable, dlRows]) rfl rfl rfl

theorem combConfigure (sampleRate : DWord) (maxDelayMs : Word) : Statement (.combConfigure sampleRate maxDelayMs) :=
  of_row _ ⟨"COMB.CONFIGURE", 0x11, .cu, 0x11000000#32, 0xFFFFFFFF#32, .comb⟩ (by simp [opcodeTable, combRows]) rfl rfl rfl

theorem combSetDelay (n : Int) : Statement (.combSetDelay n) :=
  of_row _ ⟨"COMB.SETDELAY", 0x12, .i1, 0x12000000#32, 0xFFFFFFFF#32, .comb⟩ (by simp [opcodeTable, combRows]) rfl rfl rfl

theorem combClear : Statement (.combClear) :=
  of_row _ ⟨"COMB.CLEAR", 0x13, .n0, 0x13000000#32, 0xFFFFFFFF#32, .comb⟩ (by simp [opcodeTable, combRows]) rfl rfl rfl

theorem combProcess (x : Word) : Statement (.combProcess x) :=
  of_row _ ⟨"COMB.PROCESS", 0x14, .f1, 0x14000000#32, 0xFFFFFFFF#32, .comb⟩ (by simp [opcodeTable, combRows]) rfl rfl rfl

theorem combSetFb (f : Word) : Statement (.combSetFb f) :=
  of_row _ ⟨"COMB.SETFB", 0x15, .f1, 0x15000000#32, 0xFFFFFFFF#32, .comb⟩ (by simp [opcodeTable, combRows]) rfl rfl rfl

theorem combSetDamp (d : Word) : Statement (.combSetDamp d) :=
  of_row _ ⟨"COMB.SETDAMP", 0x16, .f1, 0x16000000#32, 0xFFFFFFFF#32, .comb⟩ (by simp [opcodeTable, combRows]) rfl rfl rfl

theorem apConfigure (sampleRate : DWord) (maxDelayMs : Word) : Statement (.apConfigure sampleRate maxDelayMs) :=
  of_row _ ⟨"AP.CONFIGURE", 0x21, .cu, 0x21000000#32, 0xFFFFFFFF#32, .ap⟩ (by simp [opcodeTable, apRows]) rfl rfl rfl

theorem apSetDelay (n : Int) : Statement (.apSetDelay n) :=
  of_row _ ⟨"AP.SETDELAY", 0x22, .i1, 0x22000000#32, 0xFFFFFFFF#32, .ap⟩ (by simp [opcodeTable, apRows]) rfl rfl rfl

theorem apClear : Statement (.apClear) :=
  of_row _ ⟨"AP.CLEAR", 0x23, .n0, 0x23000000#32, 0xFFFFFFFF#32, .ap⟩ (by simp [opcodeTable, apRows]) rfl rfl rfl

theorem apProcess (x : Word) : Statement (.apProcess x) :=
  of_row _ ⟨"AP.PROCESS", 0x24, .f1, 0x24000000#32, 0xFFFFFFFF#32, .ap⟩ (by simp [opcodeTable, apRows]) rfl rfl rfl

theorem apSetCoef (c : Word) : Statement (.apSetCoef c) :=
  of_row _ ⟨"AP.SETCOEF", 0x25, .f1, 0x25000000#32, 0xFFFFFFFF#32, .ap⟩ (by simp [opcodeTable, apRows]) rfl rfl rfl

theorem engConfigure (sampleRate : DWord) (blockSizeHint : Int) : Statement (.engConfigure sampleRate blockSizeHint) :=
  of_row _ ⟨"ENG.CONFIGURE", 0x41, .ce, 0x41000000#32, 0xFFFFFFFF#32, .eng⟩ (by simp [opcodeTable, engRows]) rfl rfl rfl

theorem engSetDome (amount : Word) : Statement (.engSetDome amount) :=
  of_row _ ⟨"ENG.SETDOME", 0x42, .f1, 0x42000000#32, 0xFFFFFFFF#32, .eng⟩ (by simp [opcodeTable, engRows]) rfl rfl rfl

theorem engSetPreset (id : Preset) : Statement (.engSetPreset id) :=
  of_row _ ⟨"ENG.SETPRESET", 0x43, .ni, 0x43000000#32, 0xFFFFFFFC#32, .eng⟩ (by simp [opcodeTable, engRows]) rfl rfl rfl

theorem engProcess (numChannels numSamples : Nat) : Statement (.engProcess numChannels numSamples) :=
  of_row _ ⟨"ENG.PROCESS", 0x44, .pr, 0x44000000#32, 0xFFFF0000#32, .eng⟩ (by simp [opcodeTable, engRows]) rfl rfl rfl

theorem engClear : Statement (.engClear) :=
  of_row _ ⟨"ENG.CLEAR", 0x45, .n0, 0x45000000#32, 0xFFFFFFFF#32, .eng⟩ (by simp [opcodeTable, engRows]) rfl rfl rfl

theorem engGetParam (r : Nat) : Statement (.engGetParam r) :=
  of_row _ ⟨"ENG.GETPARAM", 0x46, .ni, 0x46000000#32, 0xFFFF0000#32, .eng⟩ (by simp [opcodeTable, engRows]) rfl rfl rfl

end Sys2Proof.Laws.OneRow
end

