-- ==== Sys2Proof/Laws/Process.lean ====
section
/-! SUPPORT. `ENG.PROCESS` as a stream transformer (spec/43_reverb_engine.md rule R183, spec/20_memory.md rules R64, R66, R67):
its loop is `runUnit` of one sample over the inputs read from the host buffer; outputs land where the inputs were. -/

namespace Sys2Proof.Machine

/-- The loop body of R183 as a unit that turns an input pair into an output pair. -/
def Engine.tick (p : BqProcess Word) (e : Engine32) (x : Word × Word) : Engine32 × (Word × Word) :=
  e.sample Num.b32 (.ofProcess p) x.1 x.2

/-- The inputs of the `k` sample indices from `i` on (R183, R199). -/
def hostInputs (ch ns i k : Nat) (hb : Memory Word) : List (Word × Word) :=
  (List.range k).map fun j =>
    (hb.read 0#32 (i + j), if ch = 2 then hb.read 0#32 (ns + (i + j)) else hb.read 0#32 (i + j))

theorem hostInputs_succ (ch ns i k : Nat) (hb : Memory Word) :
    hostInputs ch ns i (k + 1) hb =
      (hb.read 0#32 i, if ch = 2 then hb.read 0#32 (ns + i) else hb.read 0#32 i) :: hostInputs ch ns (i + 1) k hb := by
  simp only [hostInputs, List.range_succ_eq_map, List.map_cons, List.map_map, Nat.add_zero]
  congr 1
  apply List.map_congr_left
  intro j _
  simp only [Function.comp_apply, Nat.succ_eq_add_one, show i + (j + 1) = i + 1 + j by omega]

@[simp] theorem hostInputs_length (ch ns i k : Nat) (hb : Memory Word) : (hostInputs ch ns i k hb).length = k := by
  simp [hostInputs]

/-- Inputs are a function of the host cells of their own indices (R64). -/
theorem hostInputs_congr {ch ns i k : Nat} {hb hb' : Memory Word}
    (h : ∀ j < k, hb.read 0#32 (i + j) = hb'.read 0#32 (i + j) ∧
      (ch = 2 → hb.read 0#32 (ns + (i + j)) = hb'.read 0#32 (ns + (i + j)))) :
    hostInputs ch ns i k hb = hostInputs ch ns i k hb' := by
  apply List.map_congr_left
  intro j hj
  obtain ⟨h1, h2⟩ := h j (List.mem_range.1 hj)
  rw [h1]
  split
  · rw [h2 ‹_›]
  · rfl

theorem runUnit_length {σ α β : Type} (f : σ → α → σ × β) (u : σ) (xs : List α) : (runUnit f u xs).2.length = xs.length := by
  induction xs generalizing u with
  | nil => rfl
  | cons x xs ih => simp [runUnit, ih]

theorem runUnit_append {σ α β : Type} (f : σ → α → σ × β) (u : σ) (xs ys : List α) :
    runUnit f u (xs ++ ys) =
      ((runUnit f (runUnit f u xs).1 ys).1, (runUnit f u xs).2 ++ (runUnit f (runUnit f u xs).1 ys).2) := by
  induction xs generalizing u with
  | nil => rfl
  | cons x xs ih => simp [runUnit, ih]

/-- What the loop of R183 does: the engine runs over the inputs, output `j` of channel 0 (and of channel 1 when there are two)
is in the cell its input came from, and every other host cell is as before. -/
theorem Engine.processFrom_spec (p : BqProcess Word) (ch ns : Nat) (k i : Nat) (e : Engine32) {hb : Memory Word}
    (hwf : hb.wf 0#32) (hik : i + k ≤ ns) :
    let run := runUnit (Engine.tick p) e (hostInputs ch ns i k hb)
    let out := Engine.processFrom Num.b32 (.ofProcess p) ch ns k i e hb
    out.1 = run.1 ∧
      (∀ j < k, out.2.read 0#32 (i + j) = (run.2.getD j (0#32, 0#32)).1 ∧
        (ch = 2 → out.2.read 0#32 (ns + (i + j)) = (run.2.getD j (0#32, 0#32)).2)) ∧
      ∀ a, (∀ j < k, a ≠ i + j ∧ (ch = 2 → a ≠ ns + (i + j))) → out.2.read 0#32 a = hb.read 0#32 a := by
  induction k generalizing i e hb with
  | zero => exact ⟨rfl, fun j h => absurd h (Nat.not_lt_zero j), fun a _ => rfl⟩
  | succ k ih =>
    rw [hostInputs_succ]
    simp only [runUnit, Engine.processFrom, hbIndex, Nat.zero_mul, Nat.zero_add, Nat.one_mul, b32_zero]
    generalize hx : (hb.read 0#32 i, if ch = 2 then hb.read 0#32 (ns + i) else hb.read 0#32 i) = x
    have hx1 : hb.read 0#32 i = x.1 := by rw [← hx]
    have hx2 : (if ch = 2 then hb.read 0#32 (ns + i) else hb.read 0#32 i) = x.2 := by rw [← hx]
    rw [hx2, hx1]
    have ht : e.sample Num.b32 (.ofProcess p) x.1 x.2 = Engine.tick p e x := rfl
    rw [ht]
    generalize hy : Engine.tick p e x = y
    have hwf0 : (hb.write 0#32 i y.2.1).wf 0#32 := Memory.wf_write hwf _ _
    generalize hm : (if ch = 2 then (hb.write 0#32 i y.2.1).write 0#32 (ns + i) y.2.2 else hb.write 0#32 i y.2.1) = m
    have hwfm : m.wf 0#32 := by
      rw [← hm]; split
      · exact Memory.wf_write hwf0 _ _
      · exact hwf0
    have hother : ∀ a, a ≠ i → (ch = 2 → a ≠ ns + i) → m.read 0#32 a = hb.read 0#32 a := by
      intro a h1 h2
      rw [← hm]; split
      · next h => rw [Memory.read_write_other hwf0 _ (h2 h), Memory.read_write_other hwf _ h1]
      · exact Memory.read_write_other hwf _ h1
    have hin : hostInputs ch ns (i + 1) k hb = hostInputs ch ns (i + 1) k m := by
      refine (hostInputs_congr fun j hj => ⟨?_, fun h => ?_⟩).symm
      · exact hother _ (by omega) (by omega)
      · exact hother _ (by omega) (by omega)
    obtain ⟨h1, h2, h3⟩ := ih (i + 1) y.1 hwfm (by omega)
    rw [hin]
    refine ⟨h1, fun j hj => ?_, fun a ha => ?_⟩
    · cases j with
      | zero =>
        simp only [Nat.add_zero, List.getD_cons_zero]
        constructor
        · rw [h3 i (fun j hj => ⟨by omega, by omega⟩), ← hm]
          split
          · rw [Memory.read_write_other hwf0 _ (by omega), Memory.read_write_same hwf]
          · exact Memory.read_write_same hwf _ _
        · intro hc
          rw [h3 (ns + i) (fun j hj => ⟨by omega, by omega⟩), ← hm, if_pos hc]
          exact Memory.read_write_same hwf0 _ _
      | succ j =>
        have := h2 j (by omega)
        simp only [List.getD_cons_succ]
        rw [show i + (j + 1) = i + 1 + j by omega]
        exact this
    · rw [h3 a (fun j hj => ?_)]
      · exact hother a (by simpa using (ha 0 (by omega)).1) (by simpa using (ha 0 (by omega)).2)
      · have := ha (j + 1) (by omega)
        rw [show i + (j + 1) = i + 1 + j by omega] at this
        exact this

end Sys2Proof.Machine
end

