-- ==== Sys2Proof/Laws/Ranges.lean ====
section
/-! SUPPORT. Ranges of binary32 numbers and what the operations do to them, from monotone rounding
(spec/44_parameter_mapper.md rule R234: "binary32 multiplication and addition are monotone"). -/

namespace Sys2Proof.Machine
open F32

theorem inRange_iff {lo v hi : Word} (hlo : isFinite lo = true) (hhi : isFinite hi = true) :
    inRange lo v hi = true ↔ isFinite v = true ∧ scaled lo ≤ scaled v ∧ scaled v ≤ scaled hi := by
  rw [inRange, Bool.and_eq_true, le_iff, le_iff, ← scaled_le_iff, ← scaled_le_iff]
  constructor
  · rintro ⟨⟨_, _, h1⟩, _, _, h2⟩; exact ⟨isFinite_of_between hlo hhi h1 h2, h1, h2⟩
  · rintro ⟨h0, h1, h2⟩
    have n := not_isNaN_of_isFinite h0
    exact ⟨⟨not_isNaN_of_isFinite hlo, n, h1⟩, n, not_isNaN_of_isFinite hhi, h2⟩

theorem inRange_mul {lo v hi c : Word} (hlo : isFinite lo = true) (hhi : isFinite hi = true) (hc : isFinite c = true)
    (h0 : 0 ≤ scaled c) (h1 : isFinite (mul lo c) = true) (h2 : isFinite (mul hi c) = true)
    (h : inRange lo v hi = true) : inRange (mul lo c) (mul v c) (mul hi c) = true := by
  obtain ⟨hv, a, b⟩ := (inRange_iff hlo hhi).1 h
  have p := scaled_mul_mono hlo hv hc a h0
  have q := scaled_mul_mono hv hhi hc b h0
  exact (inRange_iff h1 h2).2 ⟨isFinite_of_between h1 h2 p q, p, q⟩

theorem inRange_add {lo v hi c : Word} (hlo : isFinite lo = true) (hhi : isFinite hi = true) (hc : isFinite c = true)
    (h1 : isFinite (add c lo) = true) (h2 : isFinite (add c hi) = true)
    (h : inRange lo v hi = true) : inRange (add c lo) (add c v) (add c hi) = true := by
  obtain ⟨hv, a, b⟩ := (inRange_iff hlo hhi).1 h
  have p := scaled_add_mono hlo hv hc a
  have q := scaled_add_mono hv hhi hc b
  exact (inRange_iff h1 h2).2 ⟨isFinite_of_between h1 h2 p q, p, q⟩

theorem inRange_sub {lo v hi c : Word} (hlo : isFinite lo = true) (hhi : isFinite hi = true) (hc : isFinite c = true)
    (h1 : isFinite (sub c lo) = true) (h2 : isFinite (sub c hi) = true)
    (h : inRange lo v hi = true) : inRange (sub c hi) (sub c v) (sub c lo) = true := by
  obtain ⟨hv, a, b⟩ := (inRange_iff hlo hhi).1 h
  have p := scaled_sub_anti hv hhi hc b
  have q := scaled_sub_anti hlo hv hc a
  exact (inRange_iff h2 h1).2 ⟨isFinite_of_between h2 h1 p q, p, q⟩

theorem inRange_weaken {lo v hi lo' hi' : Word} (h1 : le lo' lo = true) (h2 : le hi hi' = true)
    (h : inRange lo v hi = true) : inRange lo' v hi' = true := by
  rw [inRange, Bool.and_eq_true] at *
  exact ⟨le_trans h1 h.1, le_trans h.2 h2⟩

end Sys2Proof.Machine
end

