-- ==== Sys2Proof/Machine/Assembler.lean ====
section
/-! DEFINITION. The listing syntax of spec/30_encoding.md rule R113: one command a line, to the command and its words. The host's
tool, not the core: nothing in the step uses it. -/

namespace Sys2Proof.Machine

/-! ## Characters -/

/-- The text before a comment: "a `#` starts a comment". -/
def stripComment : List Char → List Char
  | [] => []
  | c :: rest => if c = '#' then [] else c :: stripComment rest

def dropSpaces : List Char → List Char
  | [] => []
  | c :: rest => if c = ' ' then dropSpaces rest else c :: rest

def trim (t : List Char) : List Char := (dropSpaces (dropSpaces t).reverse).reverse

/-- The pieces of a text between separators; a text without one is one piece. -/
def splitAll (sep : Char) : List Char → List (List Char)
  | [] => [[]]
  | c :: rest =>
    if c = sep then [] :: splitAll sep rest
    else
      match splitAll sep rest with
      | [] => [[c]]
      | p :: more => (c :: p) :: more

/-- The text up to the first separator, and the text after it; the second is empty where there is no separator. -/
def splitFirst (sep : Char) : List Char → List Char × List Char
  | [] => ([], [])
  | c :: rest => if c = sep then ([], rest) else (c :: (splitFirst sep rest).1, (splitFirst sep rest).2)

/-! ## Operands -/

def digitValue (c : Char) : Option Nat := if '0' ≤ c ∧ c ≤ '9' then some (c.toNat - '0'.toNat) else none

/-- The value of a run of digits after those already read; none on any other character. -/
def digits (acc : Nat) : List Char → Option Nat
  | [] => some acc
  | c :: rest =>
    match digitValue c with
    | some d => digits (10 * acc + d) rest
    | none => none

/-- One or more digits. -/
def natural (t : List Char) : Option Nat := if t = [] then none else digits 0 t

/-- "an integer operand is a decimal literal, optionally negative". -/
def integer : List Char → Option Int
  | '-' :: t => (natural t).map fun n => -(n : Int)
  | t => (natural t).map fun n => (n : Int)

/-- A decimal literal without its sign: digits, and digits after a point if there is one. -/
def unsignedDecimal (t : List Char) : Option Rat :=
  if '.' ∈ t then
    match natural (splitFirst '.' t).1, natural (splitFirst '.' t).2 with
    | some a, some b => some (a + (b : Rat) / 10 ^ (splitFirst '.' t).2.length)
    | _, _ => none
  else (natural t).map fun n => (n : Rat)

/-- A decimal literal, optionally negative. -/
def decimal : List Char → Option Rat
  | '-' :: t => (unsignedDecimal t).map fun q => -q
  | t => unsignedDecimal t

/-- A binary32 operand "is a decimal literal and denotes the nearest representable number". -/
def binary32 (t : List Char) : Option Word := (decimal t).map F32.ofRat

/-- The same for binary64. -/
def binary64 (t : List Char) : Option DWord := (decimal t).map F64.ofRat

/-- "a preset is its name or its index". -/
def presetOperand (t : List Char) : Option Preset :=
  if t = "Arena".toList ∨ t = "0".toList then some .arena
  else if t = "Stadium".toList ∨ t = "1".toList then some .stadium
  else if t = "Hall".toList ∨ t = "2".toList then some .hall
  else if t = "Club".toList ∨ t = "3".toList then some .club
  else none

/-! ## A line -/

/-- The command of opcode `op` with the operands of its format, in the order of the format. -/
def commandOf (op : Nat) (operands : List (List Char)) : Option Instr :=
  match op, operands with
  | 0x01, [a, b] => return .dlConfigure (← binary64 a) (← binary32 b)
  | 0x02, [a] => return .dlSetDelay (← integer a)
  | 0x03, [] => some .dlClear
  | 0x04, [a] => return .dlTick (← binary32 a)
  | 0x11, [a, b] => return .combConfigure (← binary64 a) (← binary32 b)
  | 0x12, [a] => return .combSetDelay (← integer a)
  | 0x13, [] => some .combClear
  | 0x14, [a] => return .combProcess (← binary32 a)
  | 0x15, [a] => return .combSetFb (← binary32 a)
  | 0x16, [a] => return .combSetDamp (← binary32 a)
  | 0x21, [a, b] => return .apConfigure (← binary64 a) (← binary32 b)
  | 0x22, [a] => return .apSetDelay (← integer a)
  | 0x23, [] => some .apClear
  | 0x24, [a] => return .apProcess (← binary32 a)
  | 0x25, [a] => return .apSetCoef (← binary32 a)
  | 0x41, [a, b] => return .engConfigure (← binary64 a) (← integer b)
  | 0x42, [a] => return .engSetDome (← binary32 a)
  | 0x43, [a] => return .engSetPreset (← presetOperand a)
  | 0x44, [a, b] => return .engProcess (← natural a) (← natural b)
  | 0x45, [] => some .engClear
  | 0x46, [a] => return .engGetParam (← natural a)
  | _, _ => none

/-- The row of a mnemonic. -/
def rowOfMnemonic (t : List Char) : Option Row := opcodeTable.find? fun r => decide (r.mnemonic.toList = t)

/-- Operands "separated by commas"; none where there is no text. -/
def operandTexts (t : List Char) : List (List Char) := if trim t = [] then [] else (splitAll ',' t).map trim

/-- One line: "the mnemonic of rule R100, a space, the operands in the order of the format, separated by commas". None: not a
command that words can express. -/
def assembleLine (line : String) : Option Instr :=
  let text := trim (stripComment line.toList)
  match rowOfMnemonic (splitFirst ' ' text).1 with
  | some r =>
    match commandOf r.op (operandTexts (splitFirst ' ' text).2) with
    | some i => if i.wellFormed then some i else none
    | none => none
  | none => none

/-! ## The host buffer of a listing -/

/-- `ch0: v, v, ...`: the samples after the label. -/
def channelSamples (label t : List Char) : Option (List Word) :=
  if trim (splitFirst ':' t).1 = label then (operandTexts (splitFirst ':' t).2).mapM binary32 else none

/-- "followed in listings by the host buffer contents as `HB = [ch0: v, v, ... | ch1: v, v, ...]`": the samples of each
channel, none for channel 1 of a one-channel listing. -/
def listedBuffer (t : String) : Option (List Word × List Word) :=
  let eq := splitFirst '=' t.toList
  let body := (splitFirst ']' (splitFirst '[' eq.2).2).1
  if trim eq.1 = "HB".toList then
    match splitAll '|' body with
    | [a] => do return (← channelSamples "ch0".toList a, [])
    | [a, b] => do return (← channelSamples "ch0".toList a, ← channelSamples "ch1".toList b)
    | _ => none
  else none

end Sys2Proof.Machine
end

