-- ==== Sys2Proof/Tests/Slice0.lean ====
section
/-! SUPPORT. The model's own tests: the well-formedness smoke test, decoding of words written out from spec/30_encoding.md, one-step
tests whose expected results are those of spec/95_test_vectors.md, and the witnesses of every statement's hypotheses. -/

namespace Sys2Proof.Tests

open Sys2Proof Sys2Proof.Machine

set_option Elab.async false

/-! ## Well-formedness: each check refuses an ill-formed term (R25, R96, R98, R99) -/

theorem test_wf_setdelay_too_high : (Instr.dlSetDelay (2 ^ 31)).wellFormed = false := by decide
theorem test_wf_setdelay_too_low : (Instr.combSetDelay (-2 ^ 31 - 1)).wellFormed = false := by decide
theorem test_wf_ap_setdelay_too_high : (Instr.apSetDelay (2 ^ 31)).wellFormed = false := by decide
theorem test_wf_hint_too_high : (Instr.engConfigure 0#64 (2 ^ 31)).wellFormed = false := by decide
theorem test_wf_channels_too_wide : (Instr.engProcess (2 ^ 16) 0).wellFormed = false := by decide
theorem test_wf_samples_too_many : (Instr.engProcess 1 (2 ^ 32)).wellFormed = false := by decide
theorem test_wf_register_too_wide : (Instr.engGetParam (2 ^ 16)).wellFormed = false := by decide
theorem test_wf_bounds_fit :
    (Instr.dlSetDelay (-2 ^ 31)).wellFormed && (Instr.apSetDelay (2 ^ 31 - 1)).wellFormed &&
      (Instr.engProcess 65535 (2 ^ 32 - 1)).wellFormed && (Instr.engGetParam 65535).wellFormed = true := by decide

/-! ## Decoding: every constructor from a word written out from R91, R92, R95 and R100 -/

/-- The command `decode` answers, if it answers one. -/
def decoded (p : Port) (ws : List Word) : Option Instr :=
  match decode p ws with
  | .ok i => some i
  | .error _ => none

/-- The verdict `decode` answers, if it answers none. -/
def verdict (p : Port) (ws : List Word) : Option DecodeError :=
  match decode p ws with
  | .ok _ => none
  | .error e => some e

/-- R113: `DL.CONFIGURE 1000.0, 4.0`; the low word of the rate comes first (R95). -/
theorem test_decode_dl_configure :
    decoded .dl [0x01000000#32, 0x00000000#32, 0x408F4000#32, 0x40800000#32] =
      some (.dlConfigure 0x408F400000000000#64 0x40800000#32) := by decide +kernel
/-- R113: `DL.SETDELAY -3`, two's complement (R96). -/
theorem test_decode_dl_setdelay : decoded .dl [0x02000000#32, 0xFFFFFFFD#32] = some (.dlSetDelay (-3)) := by decide +kernel
theorem test_decode_dl_clear : decoded .dl [0x03000000#32] = some .dlClear := by decide +kernel
theorem test_decode_dl_tick : decoded .dl [0x04000000#32, 0x3F800000#32] = some (.dlTick 0x3F800000#32) := by decide +kernel
/-- A rate whose two words differ shows that they are not swapped. -/
theorem test_decode_comb_configure :
    decoded .comb [0x11000000#32, 0x00000001#32, 0x40E58880#32, 0x41C80000#32] =
      some (.combConfigure 0x40E5888000000001#64 0x41C80000#32) := by decide +kernel
theorem test_decode_comb_setdelay : decoded .comb [0x12000000#32, 0x00000002#32] = some (.combSetDelay 2) := by decide +kernel
theorem test_decode_comb_clear : decoded .comb [0x13000000#32] = some .combClear := by decide +kernel
theorem test_decode_comb_process :
    decoded .comb [0x14000000#32, 0x7FC00000#32] = some (.combProcess 0x7FC00000#32) := by decide +kernel
theorem test_decode_comb_setfb :
    decoded .comb [0x15000000#32, 0x3F000000#32] = some (.combSetFb 0x3F000000#32) := by decide +kernel
theorem test_decode_comb_setdamp :
    decoded .comb [0x16000000#32, 0x3F000000#32] = some (.combSetDamp 0x3F000000#32) := by decide +kernel
theorem test_decode_ap_configure :
    decoded .ap [0x21000000#32, 0x00000000#32, 0x408F4000#32, 0x40000000#32] =
      some (.apConfigure 0x408F400000000000#64 0x40000000#32) := by decide +kernel
theorem test_decode_ap_setdelay : decoded .ap [0x22000000#32, 0x00000005#32] = some (.apSetDelay 5) := by decide +kernel
theorem test_decode_ap_clear : decoded .ap [0x23000000#32] = some .apClear := by decide +kernel
theorem test_decode_ap_process :
    decoded .ap [0x24000000#32, 0x3F800000#32] = some (.apProcess 0x3F800000#32) := by decide +kernel
theorem test_decode_ap_setcoef :
    decoded .ap [0x25000000#32, 0x3F666666#32] = some (.apSetCoef 0x3F666666#32) := by decide +kernel
theorem test_decode_eng_configure :
    decoded .eng [0x41000000#32, 0x00000000#32, 0x40E58880#32, 0x00000200#32] =
      some (.engConfigure 0x40E5888000000000#64 512) := by decide +kernel
theorem test_decode_eng_setdome :
    decoded .eng [0x42000000#32, 0x3F19999A#32] = some (.engSetDome 0x3F19999A#32) := by decide +kernel
theorem test_decode_eng_setpreset : decoded .eng [0x43000003#32] = some (.engSetPreset .club) := by decide +kernel
theorem test_decode_eng_process :
    decoded .eng [0x44000002#32, 0x00000010#32] = some (.engProcess 2 16) := by decide +kernel
theorem test_decode_eng_clear : decoded .eng [0x45000000#32] = some .engClear := by decide +kernel
theorem test_decode_eng_getparam : decoded .eng [0x46000002#32] = some (.engGetParam 2) := by decide +kernel

/-- V-DEC-1 and V-DEC-2: what is refused, and why. -/
theorem test_decode_refuses :
    verdict .eng [0x43000007#32] = some .reservedFieldNonzero ∧ verdict .eng [0x45010000#32] = some .reservedFieldNonzero ∧
      verdict .eng [0x14000000#32] = some .illegalOpcode ∧ verdict .eng [0x00000000#32] = some .illegalOpcode ∧
      verdict .eng [0xFF000000#32] = some .illegalOpcode ∧
      verdict .dl [0x02010000#32, 0x00000002#32] = some .reservedFieldNonzero ∧
      verdict .dl [0x05000000#32] = some .illegalOpcode := by decide +kernel

/-- V-DEC-2: two words go with a listed header whose reserved field is nonzero, one with an unlisted one. -/
theorem test_command_lengths :
    commandWords .dl 0x02010000#32 = 2 ∧ commandWords .dl 0x05000000#32 = 1 ∧ commandWords .eng 0x14000000#32 = 1 ∧
      commandWords .eng 0x43000007#32 = 1 := by decide +kernel

/-- No two rows of R100 take the same header. -/
theorem test_rows_are_disjoint :
    opcodeTable.Pairwise (fun r q => r.matchBits &&& q.mask ≠ q.matchBits ∧ q.matchBits &&& r.mask ≠ r.matchBits) := by
  decide +kernel

/-! ## The listing syntax (R113): the example table -/

theorem test_assemble_dl :
    (assembleLine "DL.CONFIGURE 1000.0, 4.0").map encode =
        some [0x01000000#32, 0x00000000#32, 0x408F4000#32, 0x40800000#32] ∧
      (assembleLine "DL.SETDELAY 2").map encode = some [0x02000000#32, 0x00000002#32] ∧
      (assembleLine "DL.SETDELAY -3").map encode = some [0x02000000#32, 0xFFFFFFFD#32] ∧
      (assembleLine "DL.TICK 1.0").map encode = some [0x04000000#32, 0x3F800000#32] := by decide +kernel

theorem test_assemble_setters :
    (assembleLine "COMB.SETFB 0.5").map encode = some [0x15000000#32, 0x3F000000#32] ∧
      (assembleLine "AP.SETCOEF 0.9").map encode = some [0x25000000#32, 0x3F666666#32] := by decide +kernel

theorem test_assemble_eng :
    (assembleLine "ENG.CONFIGURE 44100.0, 512").map encode =
        some [0x41000000#32, 0x00000000#32, 0x40E58880#32, 0x00000200#32] ∧
      (assembleLine "ENG.SETDOME 0.6  # a comment").map encode = some [0x42000000#32, 0x3F19999A#32] ∧
      (assembleLine "ENG.SETPRESET Club").map encode = some [0x43000003#32] ∧
      (assembleLine "ENG.PROCESS 2, 16").map encode = some [0x44000002#32, 0x00000010#32] ∧
      (assembleLine "ENG.CLEAR").map encode = some [0x45000000#32] ∧
      (assembleLine "ENG.GETPARAM 2").map encode = some [0x46000002#32] ∧ assembleLine "ENG.SETPRESET 4" = none := by
  decide +kernel

theorem test_listed_buffer :
    listedBuffer "HB = [ch0: 1, 0 | ch1: -0.5, 0]" = some ([0x3F800000#32, 0#32], [0xBF000000#32, 0#32]) := by
  decide +kernel

/-! ## Arithmetic: the constants and worked figures of spec/95_test_vectors.md -/

/-- V-MAP-2: "Constants used". -/
theorem test_constants :
    F32.ofRat 0.6 = 0x3F19999A#32 ∧ F32.ofRat 0.3 = 0x3E99999A#32 ∧ F32.ofRat 0.75 = 0x3F400000#32 ∧
      F32.ofRat 0.12 = 0x3DF5C28F#32 ∧ F32.ofRat 0.15 = 0x3E19999A#32 ∧ F32.ofRat 0.35 = 0x3EB33333#32 ∧
      F32.ofRat 10000 = 0x461C4000#32 ∧ F32.ofRat 5000 = 0x459C4000#32 ∧ F32.ofRat 0.99 = 0x3F7D70A4#32 ∧
      F32.ofRat 0.9 = 0x3F666666#32 := by decide +kernel

/-- V-W-4 and V-W-5: width 0.8 and the width 1 that is not quite neutral. -/
theorem test_width :
    width Num.b32 0x3F4CCCCD#32 0x3F800000#32 0x3F000000#32 = (0x3F733333#32, 0x3F0CCCCD#32) ∧
      width Num.b32 0x3F800000#32 0xBC159544#32 0xBDCEE275#32 = (0xBC159548#32, 0xBDCEE275#32) := by decide +kernel

/-- V-X-1 and V-MIX-1 in exact arithmetic. -/
theorem test_crossfeed_and_mix :
    crossfeed Num.ideal 0.125 0 = 0.125 ∧ crossfeed Num.ideal 0 0.125 = 0.01875 ∧
      mix Num.ideal 0.925 0.15 1 0 = 0.925 ∧ mix Num.ideal 0.925 0.15 0 0.00615234375 = 0.0009228515625 := by
  norm_num [crossfeed, mix]

/-- V-AP-4: the first rounded product of the series, and one that overflows (R148(f)). -/
theorem test_mul_rounds :
    F32.mul 0x3F666666#32 0x3F666666#32 = 0x3F4F5C28#32 ∧ F32.mul 0x7F7FFFFF#32 0x40000000#32 = 0x7F800000#32 := by
  decide +kernel

/-! ## One step on a small state -/

/-- Reset under `TESTCFG` (R8): every open parameter has a value. -/
def start : State := State.resetWith (testParams Num.b32) .identity

/-- A reading of the next state, if there is one. -/
def after {α : Type} (f : State → α) : Result → Option α
  | .next t => some (f t)
  | .fault _ => none
  | .refused _ => none

/-- The reason, if the command is refused. -/
def reason : Result → Option Refusal
  | .next _ => none
  | .fault _ => none
  | .refused r => some r

/-- A Delay Line of four cells. -/
def line (buf : Memory Word) (w n : Nat) : DelayLine Word := ⟨4, buf, w, some n⟩

/-- V-DL-1, P1 row 1. -/
theorem test_dl_configure :
    after (·.dl) (exec (.dlConfigure 0x408F400000000000#64 0x40800000#32) start) = some ⟨4, [], 0, none⟩ := by decide +kernel

/-- V-DL-1: (44100, 25) gives 1102, floored; (1000, 1.999) and (1000, 100000) are refused. -/
theorem test_dl_configure_floors_and_refuses :
    after (·.dl.cap) (exec (.dlConfigure 0x40E5888000000000#64 0x41C80000#32) start) = some 1102 ∧
      reason (exec (.dlConfigure 0x408F400000000000#64 0x3FFFDF3B#32) start) = some .capacityTooSmall ∧
      reason (exec (.dlConfigure 0x408F400000000000#64 0x47C35000#32) start) = some .capacityTooLarge := by decide +kernel

/-- V-DL-2. -/
theorem test_dl_setdelay :
    after (·.dl.n) (exec (.dlSetDelay 7) (start.withDl (line [] 0 2))) = some (some 3) ∧
      after (·.dl.n) (exec (.dlSetDelay (-3)) (start.withDl (line [] 0 2))) = some (some 1) ∧
      reason (exec (.dlSetDelay 2) start) = some .notConfigured := by decide +kernel

/-- P1 row 10. -/
theorem test_dl_clear :
    after (·.dl) (exec .dlClear (start.withDl (line [(0, 0x40A00000#32), (1, 0x40C00000#32)] 2 3))) =
      some ⟨4, [], 2, some 3⟩ := by decide +kernel

/-- P1 row 7: the tick that wraps, answers 3 and overwrites cell 0. -/
theorem test_dl_tick :
    after (fun t => (t.dl, t.responses)) (exec (.dlTick 0x40A00000#32) (start.withDl
        (line [(0, 0x3F800000#32), (1, 0x40000000#32), (2, 0x40400000#32), (3, 0x40800000#32)] 0 2))) =
      some (⟨4, [(0, 0x40A00000#32), (1, 0x40000000#32), (2, 0x40400000#32), (3, 0x40800000#32)], 1, some 2⟩,
        [(.dl, .word 0x40400000#32)]) := by decide +kernel

/-- V-DL-5. -/
theorem test_dl_tick_unset : reason (exec (.dlTick 0#32) (start.withDl ⟨4, [], 0, none⟩)) = some .delayUnset := by
  decide +kernel

/-- P2 row 1: the old `filterStore` is gone, the coefficients are kept (R141). -/
theorem test_comb_configure :
    after (·.comb) (exec (.combConfigure 0x408F400000000000#64 0x40800000#32)
        (start.withComb ⟨line [] 3 2, 0x3F000000#32, 0x3E800000#32, 0x3F800000#32⟩)) =
      some ⟨⟨4, [], 0, none⟩, 0x3F000000#32, 0x3E800000#32, 0#32⟩ := by decide +kernel

theorem test_comb_setdelay :
    after (·.comb.dl.n) (exec (.combSetDelay 2) (start.withComb ⟨line [] 0 3, 0#32, 0#32, 0#32⟩)) = some (some 2) := by
  decide +kernel

/-- V-CB-6. -/
theorem test_comb_clear :
    after (·.comb) (exec .combClear (start.withComb
        ⟨line [(0, 0x3D500000#32)] 1 2, 0x3F000000#32, 0x3F000000#32, 0x3DD00000#32⟩)) =
      some ⟨line [] 1 2, 0x3F000000#32, 0x3F000000#32, 0#32⟩ := by decide +kernel

/-- V-CB-2, the hand trace of sample 5: answer 0.25, `filterStore` 0.25, cell 0 gets 0.125. -/
theorem test_comb_process :
    after (fun t => (t.comb, t.responses)) (exec (.combProcess 0#32) (start.withComb
        ⟨line [(0, 0x3F800000#32), (2, 0x3E800000#32), (3, 0x3E000000#32)] 0 2, 0x3F000000#32, 0x3F000000#32,
          0x3E800000#32⟩)) =
      some (⟨line [(0, 0x3E000000#32), (2, 0x3E800000#32), (3, 0x3E000000#32)] 1 2, 0x3F000000#32, 0x3F000000#32,
        0x3E800000#32⟩, [(.comb, .word 0x3E800000#32)]) := by decide +kernel

/-- V-CB-5. -/
theorem test_comb_setfb :
    after (·.comb.fb) (exec (.combSetFb 0x3FC00000#32) start) = some 0x3F7D70A4#32 ∧
      after (·.comb.fb) (exec (.combSetFb 0x7F800000#32) start) = some 0x3F7D70A4#32 ∧
      reason (exec (.combSetFb 0x7FC00000#32) start) = some .nanOperand := by decide +kernel

/-- V-CB-5. -/
theorem test_comb_setdamp :
    after (·.comb.damp) (exec (.combSetDamp 0x40000000#32) start) = some 0x3F800000#32 ∧
      after (·.comb.damp) (exec (.combSetDamp 0x3EB33333#32) start) = some 0x3EB33333#32 := by decide +kernel

/-- P3 row 1. -/
theorem test_ap_configure :
    after (·.ap) (exec (.apConfigure 0x408F400000000000#64 0x40000000#32) (start.withAp ⟨line [] 3 2, 0x3F000000#32⟩)) =
      some ⟨⟨2, [], 0, none⟩, 0x3F000000#32⟩ := by decide +kernel

/-- P3 row 2. -/
theorem test_ap_setdelay :
    after (·.ap.dl.n) (exec (.apSetDelay 5) (start.withAp ⟨⟨2, [], 0, none⟩, 0#32⟩)) = some (some 1) := by decide +kernel

/-- The example of R163. -/
theorem test_ap_clear :
    after (·.ap) (exec .apClear (start.withAp
        ⟨⟨2, [(0, 0x3C800000#32), (1, 0x3D000000#32)], 1, some 1⟩, 0x3F000000#32⟩)) =
      some ⟨⟨2, [], 1, some 1⟩, 0x3F000000#32⟩ := by decide +kernel

/-- P3 rows 4 and 5. -/
theorem test_ap_process :
    after (fun t => (t.ap, t.responses)) (exec (.apProcess 0x3F800000#32) (start.withAp
        ⟨⟨2, [], 0, some 1⟩, 0x3F000000#32⟩)) =
      some (⟨⟨2, [(0, 0x3F800000#32)], 1, some 1⟩, 0x3F000000#32⟩, [(.ap, .word 0xBF000000#32)]) ∧
    after (fun t => (t.ap.dl.buf, t.responses)) (exec (.apProcess 0#32) (start.withAp
        ⟨⟨2, [(0, 0x3F800000#32)], 1, some 1⟩, 0x3F000000#32⟩)) =
      some ([(0, 0x3F800000#32), (1, 0x3F000000#32)], [(.ap, .word 0x3F800000#32)]) := by decide +kernel

/-- V-AP-6. -/
theorem test_ap_setcoef :
    after (·.ap.g) (exec (.apSetCoef 0x3F800000#32) start) = some 0x3F666666#32 ∧
      reason (exec (.apSetCoef 0xFFC00000#32) start) = some .nanOperand := by decide +kernel

/-- The engine of P4 after row 1, `ENG.CONFIGURE 1000.0, 16`. -/
def configured : State := start.withEng (start.eng.configure Num.b32 (biquadOf .identity) start.cfg 0x408F400000000000#64)

/-- P4 row 1. -/
theorem test_eng_configure :
    after (fun t => (t.eng.lines.map (·.cap), t.eng.preDelaySamples, t.eng.configured))
        (exec (.engConfigure 0x408F400000000000#64 16) start) =
      some ([16, 16, 16, 16, 16, 16, 16, 16, 8, 8, 8, 8, 32, 16, 16, 16, 16, 16, 16, 16, 16, 8, 8, 8, 8, 32],
        ⟨some 15, some 18⟩, true) ∧
    after (fun t => t.eng.lines.map (·.n)) (exec (.engConfigure 0x408F400000000000#64 16) start) =
      some ([2, 3, 4, 5, 6, 7, 8, 9, 1, 2, 3, 4, 15, 3, 4, 5, 6, 7, 8, 9, 10, 2, 3, 4, 5, 18].map some) := by
  decide +kernel

/-- V-DEC-3. -/
theorem test_eng_configure_refuses :
    reason (exec (.engConfigure 0x0#64 16) start) = some .badSampleRate ∧
      reason (exec (.engConfigure 0x408F400000000000#64 (-1)) start) = some .badBlockSize ∧
      reason (exec (.engConfigure 0x4059000000000000#64 16) start) = some .capacityTooSmall ∧
      reason (exec (.engConfigure 0x416312D000000000#64 16) start) = some .capacityTooLarge := by decide +kernel

/-- V-MAP-2 and V-MAP-3, the row `SETDOME 0.7` at 1000 Hz: the register decides, not the decimal. -/
theorem test_eng_setdome :
    after (fun t => [t.eng.domeAmount, t.eng.wetGain, t.eng.dryGain, (t.eng.comb 1 7).fb, (t.eng.comb 0 3).damp,
        t.eng.lpCutoff]) (exec (.engSetDome 0x3F333333#32) configured) =
      some [0x3F333333#32, 0x3ED70A3E#32, 0x3F4A3D70#32, 0x3F558106#32, 0x3ECA3D70#32, 0x45CB2000#32] ∧
    after (fun t => t.eng.preDelaySamples) (exec (.engSetDome 0x3F333333#32) configured) = some ⟨some 17, some 20⟩ := by
  decide +kernel

/-- P4 row 2 and V-MAP-2, Club: one unit above the rounded decimal in the damping. -/
theorem test_eng_setpreset :
    after (fun t => [t.eng.domeAmount, t.eng.stereoWidth, t.eng.bassBoost, t.eng.wetGain, t.eng.dryGain,
        (t.eng.comb 0 0).fb, (t.eng.comb 0 0).damp, t.eng.lpCutoff]) (exec (.engSetPreset .club) configured) =
      some [0x3E800000#32, 0x3F000000#32, 0x40000000#32, 0x3E19999A#32, 0x3F6CCCCD#32, 0x3F47AE14#32, 0x3E733334#32,
        0x4608B800#32] ∧
    after (fun t => (t.eng.preset, t.eng.preDelaySamples)) (exec (.engSetPreset .club) configured) =
      some (.club, ⟨some 6, some 7⟩) := by decide +kernel

/-- The engine of P4 after row 2. -/
def club : State := configured.withEng (configured.eng.setPreset Num.b32 (biquadOf .identity) configured.cfg .club)

/-- P4 row 5: sixteen samples of a stereo impulse, bit for bit. -/
theorem test_eng_process :
    after (fun t => t.hb) (exec (.engProcess 2 16) (club.presentBuffer
        (0x3F800000#32 :: List.replicate 15 0#32) (0x3F000000#32 :: List.replicate 15 0#32))) =
      some [(0, 0x3F6CCCCD#32), (8, 0x3A71EB86#32), (9, 0xBA5AE148#32), (10, 0xBB3763B8#32), (11, 0xBB4F550B#32),
        (12, 0xBAB9AD13#32), (13, 0x3C207D1D#32), (14, 0x3C0F73CA#32), (15, 0x3C8A431C#32), (16, 0x3EECCCCD#32),
        (24, 0x39DEB852#32), (25, 0xB928F5C4#32), (26, 0xBA1A9192#32), (27, 0xBA82EE8C#32), (28, 0xBAD07057#32),
        (29, 0x3AE1A4DA#32), (30, 0x38B72ECD#32), (31, 0x3B9A264D#32)] := by decide +kernel

/-- P5, run A: the mono impulse; channel 1's cells stay as the host left them (R309). -/
theorem test_eng_process_mono :
    after (fun t => t.hb) (exec (.engProcess 1 16) (club.presentBuffer
        (0x3F800000#32 :: List.replicate 15 0#32) [0x40E00000#32])) =
      some [(0, 0x3F6CCCCD#32), (8, 0x3A71EB86#32), (9, 0xBA5AE148#32), (10, 0xBB297832#32), (11, 0xBB4A0D5F#32),
        (12, 0xBAEF6FA1#32), (13, 0x3C18A890#32), (14, 0x3C00877A#32), (15, 0x3C8B1974#32), (16, 0x40E00000#32)] := by
  decide +kernel

/-- V-DEC-1: the channel count is checked before the flag (R275). -/
theorem test_eng_process_refuses :
    reason (exec (.engProcess 3 16) start) = some .badChannelCount ∧ reason (exec (.engProcess 2 16) start) = some .notConfigured := by
  decide +kernel

/-- R182: memories are gone, cursors and lengths stay. -/
theorem test_eng_clear :
    after (fun t => (t.eng.pre 0, (t.eng.comb 0 0).filterStore, (t.eng.ap 1 3).dl.n)) (exec .engClear
        (club.withEng (club.eng.process Num.b32 (biquadOf .identity) 1 1 [(0, 0x3F800000#32)]).1)) =
      some (⟨32, [], 1, some 6⟩, 0#32, some 5) := by decide +kernel

/-- P4 rows 3 and 4, V-DEC-1. -/
theorem test_eng_getparam :
    after (fun t => t.responses) (exec (.engGetParam 7) club) = some [(.eng, .word 0x00000007#32)] ∧
      after (fun t => t.responses) (exec (.engGetParam 12) club) = some [(.eng, .word 0x408F4000#32)] ∧
      reason (exec (.engGetParam 14) club) = some .badRegister ∧ reason (exec (.engGetParam 6) start) = some .readUnset := by
  decide +kernel

/-- The six gains of R256, each within half a unit of the sixth decimal the table prints (R258). -/
theorem test_decibels :
    [(1, 1.122018), (-1, 0.891251), (-3, 0.707946), (-4, 0.630957), (2, 1.258925), (6, 1.995262)].all
      (fun q : Int × Rat => decide (|dbToLinDigits 8 q.1 - q.2| < 0.0000005)) = true := by decide +kernel

/-! ## The parametric machine under `NUM_IDEAL`, with the identity biquad of R8 -/

/-- `NUM_IDEAL` and the identity biquad. -/
def ideal : Hardware Rat Unit := ⟨Num.ideal, BQ.identity⟩

/-- V-CB-2, sample 5, in exact arithmetic: the same trace, answered as the rational itself (R30). -/
theorem test_ideal_comb_process :
    (match ({ Session.reset ideal (testParams Num.ideal) with
          comb := ⟨⟨4, [(0, 1), (2, 1 / 4), (3, 1 / 8)], 0, some 2⟩, 1 / 2, 1 / 2, 1 / 4⟩ } : Session Rat Unit).exec ideal
        (.combProcess 0#32) with
      | .next t => some (t.comb, t.responses)
      | _ => none) =
      some (⟨⟨4, [(0, 1 / 8), (2, 1 / 4), (3, 1 / 8)], 1, some 2⟩, 1 / 2, 1 / 2, 1 / 4⟩, [(.comb, .number (1 / 4))]) := by
  decide +kernel

/-- V-MAP-1, Arena at reset, and R30's read-back: 0.36 is answered as it is. -/
theorem test_ideal_getparam :
    (match (Session.reset ideal (testParams Num.ideal)).exec ideal (.engGetParam 4) with
      | .next t => t.responses
      | _ => []) = [(.eng, .number 0.36)] := by decide +kernel

/-! ## Steps: the ports -/

/-- A command is taken off its port and run; another port's words stay. -/
theorem test_step_takes_its_words :
    after (fun t => (t.dl.n, t.inbox)) (step ((start.withDl (line [] 0 2)).withInbox
        [(.eng, 0x44000002#32), (.dl, 0x02000000#32), (.dl, 0x00000003#32)])) =
      some (some 3, [(.eng, 0x44000002#32)]) := by decide +kernel

/-- V-DEC-2: a refused command's words are gone, both of them. -/
theorem test_refused_words_are_discarded :
    reason (step (start.issue .dl [0x02010000#32, 0x00000002#32, 0x03000000#32])) = some .reservedFieldNonzero ∧
      (proceed (start.issue .dl [0x02010000#32, 0x00000002#32, 0x03000000#32])).inbox = [(.dl, 0x03000000#32)] := by
  decide +kernel

/-- The host's question of every row of the opcode table: the decoder gives the row's command. -/
theorem test_table_words_decode :
    opcodeTable.map (fun r => (decodeTableWord 32 r.matchBits.toNat).map Instr.mnemonic) =
      opcodeTable.map (fun r => some r.mnemonic) := by decide +kernel

/-- And the step runs it as the first command after reset: nothing is left waiting. -/
theorem test_table_words_are_taken :
    opcodeTable.all (fun r => decide ((start.withFetchWord 32 r.matchBits.toNat).discard.inbox = [])) = true := by
  decide +kernel

/-- R115: both persisted values survive a restore. -/
theorem test_restore :
    after (fun t => (t.eng.domeAmount, t.eng.preset, t.eng.stereoWidth)) (execList (restore 0x3F000000#32 .hall) start) =
      some (0x3F000000#32, .hall, 0x3F19999A#32) := by decide +kernel


/-! ## Witnesses: a concrete state and operands that meet every statement's hypotheses, clause by clause at the bounds -/

/-- A line of four cells, as `CONFIGURE` and `SETDELAY n` leave it. -/
def line4 (n : Int) : DelayLine Word := (DelayLine.fresh 4).setLength n

theorem line4_inv (n : Int) : LineInv 65536 (line4 n) :=
  (LineInv.fresh_line (by decide) (by decide)).setLength (by decide) n

theorem fresh4_inv : LineInv 65536 (DelayLine.fresh 4 : DelayLine Word) := LineInv.fresh_line (by decide) (by decide)

theorem test_start_inv : start.Inv where
  parameters := by decide +kernel
  delayLine := .unconfigured_line
  comb := ⟨.unconfigured_line, by decide +kernel, by decide +kernel⟩
  allPass := ⟨.unconfigured_line, by decide +kernel⟩
  engine := .reset_engine (by decide +kernel)
  hostBuffer := Memory.wf_nil

theorem start_accepts : checkEngConfigure start.cfg 0x408F400000000000#64 16 = none := by decide +kernel

theorem test_configured_inv : configured.Inv :=
  ⟨test_start_inv.parameters, test_start_inv.delayLine, test_start_inv.comb, test_start_inv.allPass,
    test_start_inv.engine.configure start_accepts, Memory.wf_nil⟩

/-- `ENG.PROCESS` runs on the configured engine. -/
theorem configured_runs (ch ns : Nat) (h : ch = 1 ∨ ch = 2) (m : Memory Word) :
    ∃ t, exec (.engProcess ch ns) (configured.withHb m) = .next t :=
  ⟨_, (execEngProcess_eq _ ch ns).trans (unlessRefused_next.2 ⟨by rcases h with rfl | rfl <;> rfl, rfl⟩)⟩

theorem test_witness_DecodeOfEncodeIsIdentity :
    (Instr.engProcess 65535 (2 ^ 32 - 1)).wellFormed = true ∧ (Instr.dlSetDelay (-2 ^ 31)).wellFormed = true := by decide

theorem test_witness_EncodeOfDecodeIsIdentity :
    decode .eng [0x4400FFFF#32, 0xFFFFFFFF#32] = .ok (.engProcess 65535 4294967295) ∧
      decode .dl [0x02000000#32, 0x80000000#32] = .ok (.dlSetDelay (-2147483648)) := ⟨rfl, rfl⟩

/-- Both clauses at the ends of the listed ranges. -/
theorem test_witness_CommandLengthIsThatOfTheOpcode :
    listedOpcode .dl (opField 0x01000000#32) ∧ listedOpcode .dl (opField 0x04000000#32) ∧
      ¬ listedOpcode .dl (opField 0x00000000#32) ∧ ¬ listedOpcode .dl (opField 0x05000000#32) ∧
      listedOpcode .eng (opField 0x46000000#32) ∧ ¬ listedOpcode .eng (opField 0x47000000#32) := by
  unfold listedOpcode; decide

theorem test_witness_UnlistedOpcodeIsRefusedAndDiscarded :
    (start.withInbox [(.eng, 0x14000000#32)]).inbox = (.eng, 0x14000000#32) :: [] ∧
      ¬ listedOpcode .eng (opField 0x14000000#32) := by
  unfold listedOpcode; exact ⟨rfl, by decide⟩

/-- A nonzero `rsv`, a nonzero `imm16` where it is unused, and a nonzero `imm16[15:2]` of `ENG.SETPRESET`. -/
theorem test_witness_ReservedFieldIsRefusedAndDiscarded :
    ((start.issue .dl [0x02010000#32, 2#32]).inbox =
        (.dl, 0x02010000#32) :: ([2#32].map (fun w => (Port.dl, w)) ++ []) ∧
      listedOpcode .dl (opField 0x02010000#32) ∧ [2#32].length + 1 = lengthOfOpcode (opField 0x02010000#32) ∧
      reservedNonzero 0x02010000#32) ∧
    (listedOpcode .eng (opField 0x45000001#32) ∧ reservedNonzero 0x45000001#32) ∧
    (listedOpcode .eng (opField 0x43000004#32) ∧ reservedNonzero 0x43000004#32 ∧ ¬ reservedNonzero 0x43000003#32) := by
  unfold listedOpcode reservedNonzero; exact ⟨⟨rfl, by decide⟩, by decide⟩

theorem test_witness_FirstCommandOnThePortsRuns :
    (Instr.dlSetDelay 2).wellFormed = true ∧
      (start.issue .dl (encode (.dlSetDelay 2))).inbox =
        (encode (.dlSetDelay 2)).map (fun w => ((Instr.dlSetDelay 2).port, w)) ++ [] := ⟨rfl, rfl⟩

theorem test_witness_StepRunsTheDecodedCommand :
    nextCommand (start.issue .ap [0x23000000#32]).inbox = some (.ap, [0x23000000#32]) ∧
      decode .ap [0x23000000#32] = .ok .apClear := ⟨rfl, rfl⟩

theorem test_witness_RefusedCommandLeavesTheState :
    ∃ r, step (start.issue .dl [0x04000000#32, 0#32]) = .refused r := ⟨.notConfigured, rfl⟩

theorem test_witness_IdleCoreHoldsItsState :
    (∀ p, nextFrame p start.inbox = none) ∧ ∀ p, nextFrame p (start.issue .dl [0x04000000#32]).inbox = none := by
  constructor <;> intro p <;> cases p <;> rfl

/-- Every clause of `ConfiguresLine` (R125) at its bound: rate zero; `maxDelayMs` zero and infinite; capacities 1, 2, `MAX_CAP`
and `MAX_CAP + 1`. -/
theorem test_witness_ConfiguresLine :
    F64.isPositiveFinite 0#64 = false ∧ F64.isPositiveFinite 0x408F400000000000#64 = true ∧
      F32.toRat 0#32 ≤ 0 ∧ F32.isFinite 0x7F800000#32 = false ∧
      (F32.toRat 0x3FFFDF3B#32 * F64.toRat 0x408F400000000000#64 / 1000).floor = 1 ∧
      (F32.toRat 0x40000000#32 * F64.toRat 0x408F400000000000#64 / 1000).floor = 2 ∧
      (F32.toRat 0x47800000#32 * F64.toRat 0x408F400000000000#64 / 1000).floor = start.cfg.maxCap ∧
      (F32.toRat 0x47800080#32 * F64.toRat 0x408F400000000000#64 / 1000).floor = start.cfg.maxCap + 1 := by
  decide +kernel

/-- Both clauses of `SetsLength` (R124). -/
theorem test_witness_SetsLength :
    start.dl.cap = 0 ∧ (start.withDl (line4 1)).dl.cap ≠ 0 ∧ (start.withDl ⟨2, [], 0, none⟩).dl.cap ≠ 0 := by decide

/-- The three clauses of a sample command: no buffer, no length, the shortest and the longest length. -/
theorem test_witness_DlTickReadsThenWritesThenAdvances :
    (LineInv start.cfg.maxCap start.dl ∧ start.dl.cap = 0) ∧
    (LineInv start.cfg.maxCap (start.withDl (.fresh 4)).dl ∧ (start.withDl (.fresh 4)).dl.n = none) ∧
    (LineInv start.cfg.maxCap (start.withDl (line4 1)).dl ∧ (start.withDl (line4 1)).dl.n = some 1) ∧
    (LineInv start.cfg.maxCap (start.withDl (line4 3)).dl ∧ (start.withDl (line4 3)).dl.n = some 3) :=
  ⟨⟨.unconfigured_line, rfl⟩, ⟨fresh4_inv, rfl⟩, ⟨line4_inv 1, rfl⟩, ⟨line4_inv 3, rfl⟩⟩

theorem test_witness_BufferHoldsTheLatestWrites :
    LineInv start.cfg.maxCap (start.withDl (line4 2)).dl ∧ (start.withDl (line4 2)).dl.buf = [] ∧
      (∃ n, (start.withDl (line4 2)).dl.n = some n) ∧
      ∀ i ∈ [Instr.dlTick 0x3F800000#32, .dlSetDelay 3, .dlTick 0x40000000#32],
        (∃ x, i = .dlTick x) ∨ ∃ n, i = .dlSetDelay n :=
  ⟨line4_inv 2, rfl, ⟨2, rfl⟩, by simp⟩

theorem test_witness_CleanLineDelaysByItsLength :
    LineInv start.cfg.maxCap (start.withDl (line4 3)).dl ∧ (start.withDl (line4 3)).dl.buf = [] ∧
      (start.withDl (line4 3)).dl.n = some 3 := ⟨line4_inv 3, rfl, rfl⟩

/-- A line and the same line turned by one cell, a stored sample in each. -/
theorem test_witness_RotationOfALineIsUnobservable :
    ∃ D D' : DelayLine Word, LineInv 65536 D ∧ LineInv 65536 D' ∧ D.n ≠ none ∧ Rotated 1 D D' ∧ D ≠ D' := by
  refine ⟨((line4 2).write Num.b32 0x3F800000#32).advance, ((line4 2).advance.write Num.b32 0x3F800000#32).advance,
    (line4_inv 2).write_advance (by decide) _, ?_, by decide, ⟨rfl, rfl, rfl, by decide⟩, by decide⟩
  have h := (line4_inv 2).write_advance (by decide) 0#32
  exact h.write_advance (by decide) _

/-- The clauses of the setters: a NaN, a value below, both bounds, a value above. -/
theorem test_witness_setter_clauses :
    F32.isNaN 0x7FC00000#32 = true ∧ F32.isNaN 0xBE800000#32 = false ∧ F32.lt 0xBE800000#32 0#32 = true ∧
      (F32.le 0#32 0#32 = true ∧ F32.le 0#32 0x3F666666#32 = true) ∧
      (F32.le 0#32 0x80000000#32 = true ∧ F32.le 0x80000000#32 0x3F666666#32 = true) ∧
      (F32.le 0#32 0x3F7D70A4#32 = true ∧ F32.le 0x3F7D70A4#32 0x3F7D70A4#32 = true) ∧
      F32.lt 0x3F7D70A4#32 0x3F7D70A5#32 = true ∧ F32.lt 0x3F800000#32 0x7F800000#32 = true ∧
      F32.lt 0x3F666666#32 0x3F666667#32 = true := by decide

theorem test_witness_CombProcessFollowsItsSteps :
    (LineInv start.cfg.maxCap start.comb.dl ∧ start.comb.dl.cap = 0) ∧
    (LineInv start.cfg.maxCap (start.withComb ⟨.fresh 4, 0#32, 0#32, 0#32⟩).comb.dl ∧
      (start.withComb ⟨.fresh 4, 0#32, 0#32, 0#32⟩).comb.dl.n = none) ∧
    (LineInv start.cfg.maxCap (start.withComb ⟨line4 1, 0#32, 0#32, 0#32⟩).comb.dl ∧
      (start.withComb ⟨line4 1, 0#32, 0#32, 0#32⟩).comb.dl.n = some 1) ∧
    (LineInv start.cfg.maxCap (start.withComb ⟨line4 3, 0#32, 0#32, 0#32⟩).comb.dl ∧
      (start.withComb ⟨line4 3, 0#32, 0#32, 0#32⟩).comb.dl.n = some 3) :=
  ⟨⟨.unconfigured_line, rfl⟩, ⟨fresh4_inv, rfl⟩, ⟨line4_inv 1, rfl⟩, ⟨line4_inv 3, rfl⟩⟩

theorem test_witness_CombDampingEndPoints :
    (F32.isFinite 0x3E800000#32 = true ∧ F32.isZero 0x3E800000#32 = false) ∧
      (Comb.mk (line4 1) 0#32 0#32 0x3F000000#32).damp = 0#32 ∧
      (Comb.mk (line4 1) 0#32 0x3F800000#32 0x3F000000#32).damp = 0x3F800000#32 ∧
      F32.isFinite (Comb.mk (line4 1) 0#32 0x3F800000#32 0x3F000000#32).filterStore = true ∧
      F32.isZero (Comb.mk (line4 1) 0#32 0x3F800000#32 0x3F000000#32).filterStore = false := by decide

theorem test_witness_IdealCombIsBounded :
    ∃ c : Comb Rat, 2 ≤ c.dl.cap ∧ c.dl.w < c.dl.cap ∧ c.dl.n = some 1 ∧ 1 ≤ c.dl.cap - 1 ∧ c.dl.buf = [] ∧
      c.filterStore = 0 ∧ 0 ≤ c.fb ∧ c.fb < 1 ∧ 0 ≤ c.damp ∧ c.damp ≤ 1 ∧ ∀ x ∈ [(1 : Rat), -1], |x| ≤ 1 :=
  ⟨⟨⟨2, [], 1, some 1⟩, 0.99, 1, 0⟩, by norm_num⟩

theorem test_witness_AllPassProcessFollowsItsSteps :
    (LineInv start.cfg.maxCap start.ap.dl ∧ start.ap.dl.cap = 0) ∧
    (LineInv start.cfg.maxCap (start.withAp ⟨.fresh 4, 0#32⟩).ap.dl ∧ (start.withAp ⟨.fresh 4, 0#32⟩).ap.dl.n = none) ∧
    (LineInv start.cfg.maxCap (start.withAp ⟨line4 1, 0#32⟩).ap.dl ∧ (start.withAp ⟨line4 1, 0#32⟩).ap.dl.n = some 1) ∧
    (LineInv start.cfg.maxCap (start.withAp ⟨line4 3, 0#32⟩).ap.dl ∧ (start.withAp ⟨line4 3, 0#32⟩).ap.dl.n = some 3) :=
  ⟨⟨.unconfigured_line, rfl⟩, ⟨fresh4_inv, rfl⟩, ⟨line4_inv 1, rfl⟩, ⟨line4_inv 3, rfl⟩⟩

theorem test_witness_IdealAllPassImpulseResponse :
    ∃ a : AllPass Rat, 2 ≤ a.dl.cap ∧ a.dl.w < a.dl.cap ∧ a.dl.n = some 3 ∧ 3 ≤ a.dl.cap - 1 ∧ a.dl.buf = [] :=
  ⟨⟨⟨4, [], 3, some 3⟩, 0.5⟩, by norm_num⟩

theorem slowest_accepts : checkEngConfigure start.cfg 0x406F400000000000#64 1 = none := by decide +kernel

/-- `TESTCFG` at 1000 Hz, and at the lowest rate its all-passes accept, 250 Hz, with the smallest hint. -/
theorem test_witness_EngConfigureBuildsTheEngine :
    (F64.isPositiveFinite 0x408F400000000000#64 = true ∧ (1 : Int) ≤ 16 ∧ ∀ m ∈ lineMaxima start.cfg,
      2 ≤ (m * F64.toRat 0x408F400000000000#64 / 1000).floor ∧
        (m * F64.toRat 0x408F400000000000#64 / 1000).floor ≤ start.cfg.maxCap) ∧
    (F64.isPositiveFinite 0x406F400000000000#64 = true ∧ (1 : Int) ≤ 1 ∧ ∀ m ∈ lineMaxima start.cfg,
      2 ≤ (m * F64.toRat 0x406F400000000000#64 / 1000).floor ∧
        (m * F64.toRat 0x406F400000000000#64 / 1000).floor ≤ start.cfg.maxCap) :=
  ⟨checkEngConfigure_eq_none.1 start_accepts, checkEngConfigure_eq_none.1 slowest_accepts⟩

/-- The first line too small at 100 Hz, the ninth at 200 Hz, the first too large at 10 MHz. -/
theorem test_witness_EngConfigureRefusesInOrder :
    (∃ before m later, lineMaxima start.cfg = before ++ m :: later ∧ before = [] ∧
      (m * F64.toRat 0x4059000000000000#64 / 1000).floor < 2) ∧
    (∃ before m later, lineMaxima start.cfg = before ++ m :: later ∧ before.length = 8 ∧
      (∀ q ∈ before, 2 ≤ (q * F64.toRat 0x4069000000000000#64 / 1000).floor ∧
        (q * F64.toRat 0x4069000000000000#64 / 1000).floor ≤ start.cfg.maxCap) ∧
      (m * F64.toRat 0x4069000000000000#64 / 1000).floor < 2) ∧
    (∃ before m later, lineMaxima start.cfg = before ++ m :: later ∧ before = [] ∧
      2 ≤ (m * F64.toRat 0x416312D000000000#64 / 1000).floor ∧
      (start.cfg.maxCap : Int) < (m * F64.toRat 0x416312D000000000#64 / 1000).floor) :=
  ⟨⟨[], 16, (lineMaxima start.cfg).drop 1, rfl, rfl, by decide +kernel⟩,
    ⟨(lineMaxima start.cfg).take 8, 8, (lineMaxima start.cfg).drop 9, rfl, rfl, by decide +kernel, by decide +kernel⟩,
    ⟨[], 16, (lineMaxima start.cfg).drop 1, rfl, rfl, by decide +kernel, by decide +kernel⟩⟩

theorem test_witness_EngConfigureIsIdempotent :
    exec (.engConfigure 0x408F400000000000#64 16) start = .next configured :=
  (execEngConfigure_eq _ _ _).trans (unlessRefused_next.2 ⟨start_accepts, rfl⟩)

/-- Both clauses: a configured engine and one that is not. -/
theorem test_witness_ParameterCommandsSetPreDelays :
    (∃ t, exec (.engSetDome 0x3F800000#32) configured = .next t) ∧ configured.eng.configured = true ∧
      configured.eng.sampleRate = some 0x408F400000000000#64 ∧
      (∃ t, exec (.engSetPreset .hall) start = .next t) ∧ start.eng.configured = false :=
  ⟨⟨_, rfl⟩, rfl, rfl, ⟨_, rfl⟩, rfl⟩

theorem test_witness_DerivedCoefficientsAreBounded :
    inRange 0#32 0#32 0x3F800000#32 = true ∧ inRange 0#32 0x80000000#32 0x3F800000#32 = true ∧
      inRange 0#32 0x3F800000#32 0x3F800000#32 = true := by decide

theorem test_witness_EngGetParamReadsItsRegister :
    configured.eng.preDelaySamples.get 0 = some 15 ∧ configured.eng.preDelaySamples.get 1 = some 18 ∧
      configured.eng.sampleRate = some 0x408F400000000000#64 ∧ start.eng.preDelaySamples.get 0 = none ∧
      start.eng.preDelaySamples.get 1 = none ∧ start.eng.sampleRate = none := by decide +kernel

theorem test_witness_EngProcessCompletesInPlace :
    start.eng.configured = false ∧ configured.eng.configured = true ∧ configured.hb.wf 0#32 :=
  ⟨rfl, rfl, Memory.wf_nil⟩

theorem test_witness_EngProcessRunsTheEightSteps :
    (configured.withHb [(0, 0x3F800000#32), (1, 0x3F000000#32)]).eng.configured = true ∧
      (configured.withHb [(0, 0x3F800000#32), (1, 0x3F000000#32)]).hb.wf 0#32 := ⟨rfl, by decide⟩

/-- Two channels of two samples, cut after the first. -/
theorem test_witness_BlocksSplitAnywhere :
    let hb : Memory Word := [(0, 1#32), (1, 2#32), (2, 3#32), (3, 4#32)]
    let hb1 : Memory Word := [(0, 1#32), (1, 3#32)]
    let hb2 : Memory Word := [(0, 2#32), (1, 4#32)]
    configured.eng.configured = true ∧ hb.wf 0#32 ∧ hb1.wf 0#32 ∧ hb2.wf 0#32 ∧
      (∀ c < 2, ∀ i < 1, hb1.read 0#32 (c * 1 + i) = hb.read 0#32 (c * (1 + 1) + i)) ∧
      ∀ c < 2, ∀ i < 1, hb2.read 0#32 (c * 1 + i) = hb.read 0#32 (c * (1 + 1) + (1 + i)) := by
  exact ⟨rfl, by decide, by decide, by decide, by decide, by decide⟩

/-- Two buffers that differ at index 1 only. -/
theorem test_witness_OutputsDependOnEarlierInputsOnly :
    let m : Memory Word := [(0, 1#32), (2, 3#32)]
    let hb : Memory Word := [(0, 1#32), (1, 7#32), (2, 3#32)]
    m.wf 0#32 ∧ hb.wf 0#32 ∧
      (∀ j ≤ 0, m.read 0#32 j = hb.read 0#32 j ∧ m.read 0#32 (2 + j) = hb.read 0#32 (2 + j)) ∧
      (∃ t, exec (.engProcess 2 2) (configured.withHb m) = .next t) ∧
      ∃ u, exec (.engProcess 2 2) ((configured.withHb m).withHb hb) = .next u :=
  ⟨by decide, by decide, by decide, configured_runs 2 2 (.inr rfl) _, configured_runs 2 2 (.inr rfl) _⟩

theorem test_witness_MonoEqualsDuplicatedStereo :
    let m : Memory Word := [(0, 1#32), (1, 2#32)]
    let hb : Memory Word := [(0, 1#32), (1, 2#32), (2, 1#32), (3, 2#32)]
    configured.eng.configured = true ∧ m.wf 0#32 ∧ hb.wf 0#32 ∧
      ∀ i < 2, hb.read 0#32 i = m.read 0#32 i ∧ hb.read 0#32 (2 + i) = m.read 0#32 i :=
  ⟨rfl, by decide, by decide, by decide⟩

/-- The configured engine, the identity biquad, and a block with a zero of each sign. -/
theorem test_witness_ZeroInZeroOut :
    (configured.withHb [(1, 0x80000000#32)]).Inv ∧ configured.eng.configured = true ∧ EngineZero configured.eng ∧
      F32.isFinite configured.eng.stereoWidth = true ∧
      (biquadOf configured.biquad).Zero Biquad.view (fun v => F32.isZero v = true) ∧
      ∀ a < 2 * 1, F32.isZero (Memory.read 0#32 [(1, 0x80000000#32)] a) = true := by
  refine ⟨⟨test_configured_inv.parameters, test_configured_inv.delayLine, test_configured_inv.comb,
    test_configured_inv.allPass, test_configured_inv.engine, by decide⟩, rfl, fun c => ?_, by decide +kernel, ?_, by decide⟩
  · constructor
    · intro k; exact ⟨fun i => by fin_cases c <;> fin_cases k <;> rfl, by fin_cases c <;> fin_cases k <;> rfl⟩
    · intro j i; fin_cases c <;> fin_cases j <;> rfl
    · intro i; fin_cases c <;> rfl
    · fin_cases c <;> decide +kernel
  · exact (BQ.ofProcess_zero _).2 fun _ _ hx => ⟨rfl, hx⟩

theorem test_witness_ClearEqualsFreshConfigure :
    configured.Inv ∧ configured.eng.sampleRate = some 0x408F400000000000#64 ∧ (1 : Int) ≤ 1 :=
  ⟨test_configured_inv, rfl, by decide⟩

theorem test_witness_HostBufferIsChannelMajor : [2#32, 0#32].length = [1#32, 3#32].length := rfl

theorem test_witness_StepKeepsTheInvariant :
    start.Inv ∧ step start = .next start ∧ (start.issue .dl [0x03000000#32]).Inv ∧
      ∃ t, step (start.issue .dl [0x03000000#32]) = .next t :=
  ⟨test_start_inv, rfl, ⟨test_start_inv.parameters, test_start_inv.delayLine, test_start_inv.comb, test_start_inv.allPass,
    test_start_inv.engine, test_start_inv.hostBuffer⟩, ⟨_, rfl⟩⟩

theorem test_witness_ResetSatisfiesTheInvariant : paramsLegal Num.b32 (testParams Num.b32) = true := by decide +kernel

/-- For the statements about any command that answers a next state: one of each port, and the ones they except. -/
theorem test_witness_next_states :
    (∃ t, exec .dlClear start = .next t) ∧ (∃ t, exec (.combSetFb 0#32) start = .next t) ∧
      (∃ t, exec (.apSetCoef 0#32) start = .next t) ∧ (∃ t, exec (.engSetPreset .club) start = .next t) ∧
      (∃ t, exec (.engSetDome 0#32) start = .next t) ∧ (∃ t, exec (.engGetParam 0) start = .next t) ∧
      (∃ t, exec (.engConfigure 0x408F400000000000#64 16) start = .next t) ∧
      (∃ t, exec (.dlTick 1#32) (start.withDl (line4 1)) = .next t) ∧
      (∃ t, exec (.combProcess 1#32) (start.withComb ⟨line4 1, 0#32, 0#32, 0#32⟩) = .next t) ∧
      (∃ t, exec (.apProcess 1#32) (start.withAp ⟨line4 1, 0#32⟩) = .next t) ∧ isConfigure .dlClear = false :=
  ⟨⟨_, rfl⟩, ⟨_, rfl⟩, ⟨_, rfl⟩, ⟨_, rfl⟩, ⟨_, rfl⟩, ⟨_, rfl⟩, ⟨_, test_witness_EngConfigureIsIdempotent⟩, ⟨_, rfl⟩, ⟨_, rfl⟩,
    ⟨_, rfl⟩, rfl⟩

/-- The engine's clause on a block of none and a block of some, and the three units' `CONFIGURE`. -/
theorem test_witness_CursorsMoveOnlyBySamples :
    (∃ t, exec (.engProcess 1 0) (configured.withHb []) = .next t) ∧ (∃ t, exec (.engProcess 2 3) (configured.withHb []) = .next t) ∧
      (∃ t, exec (.dlConfigure 0x408F400000000000#64 0x40800000#32) start = .next t) ∧
      (∃ t, exec (.combConfigure 0x408F400000000000#64 0x40800000#32) start = .next t) ∧
      (∃ t, exec (.apConfigure 0x408F400000000000#64 0x40800000#32) start = .next t) :=
  have h : checkConfigure start.cfg.maxCap 0x408F400000000000#64 0x40800000#32 = none := by decide +kernel
  ⟨configured_runs 1 0 (.inl rfl) _, configured_runs 2 3 (.inr rfl) _,
    ⟨_, (execDlConfigure_eq start _ _).trans (unlessRefused_next.2 ⟨h, rfl⟩)⟩,
    ⟨_, (execCombConfigure_eq start _ _).trans (unlessRefused_next.2 ⟨h, rfl⟩)⟩,
    ⟨_, (execApConfigure_eq start _ _).trans (unlessRefused_next.2 ⟨h, rfl⟩)⟩⟩

/-- Two states with the same line and different engines. -/
theorem test_witness_DlCommandsDependOnTheirLineOnly :
    (Instr.dlTick 1#32).port = .dl ∧ (configured.withDl (line4 1)).dl = (start.withDl (line4 1)).dl ∧
      (configured.withDl (line4 1)).cfg.maxCap = (start.withDl (line4 1)).cfg.maxCap ∧
      ∃ t, exec (.dlTick 1#32) (start.withDl (line4 1)) = .next t := ⟨rfl, rfl, rfl, ⟨_, rfl⟩⟩

theorem test_witness_RefusalReasonsAreThoseOfTheTable :
    exec (.engProcess 3 1) start = .refused .badChannelCount ∧ exec (.engProcess 1 1) start = .refused .notConfigured :=
  ⟨rfl, rfl⟩

theorem test_witness_CommandsThatAreNeverRefused :
    F32.isNaN 0xFF800000#32 = false ∧ configured.eng.configured = true := ⟨by decide, rfl⟩

/-- Operands whose exact sum and product need rounding. -/
theorem test_witness_rounding :
    F32.isFinite 0x3F800001#32 = true ∧ F32.isFinite 0x33800000#32 = true ∧
      F32.isFinite (F32.add 0x3F800001#32 0x33800000#32) = true ∧
      F32.isFinite (F32.mul 0x3F800001#32 0x33800000#32) = true ∧ F32.isFinite 0x00000001#32 = true := by decide +kernel

end Sys2Proof.Tests
end

section
/-! ## The binary32 operations against the rationals (spec/00_scope.md rule R12)

The rounding laws are stated in exact integer units of `2^-(149+k)`. Here they become statements about `toRat`: a finite
encoding's distance to an exact result is an integer distance over a fixed denominator, and a sum or a product of finite
operands is one rounding of the exact integer result. -/

namespace Sys2Proof.Machine

namespace F32

/-! ### Comparisons of rationals are comparisons of integers -/

theorem toRat_le_iff {a b : Word} (ha : isFinite a = true) (hb : isFinite b = true) :
    toRat a ≤ toRat b ↔ scaled a ≤ scaled b := by
  rw [toRat_of_finite ha, toRat_of_finite hb, div_le_div_iff_of_pos_right (by positivity), Int.cast_le]

theorem toRat_lt_iff {a b : Word} (ha : isFinite a = true) (hb : isFinite b = true) :
    toRat a < toRat b ↔ scaled a < scaled b := by
  rw [← not_le, toRat_le_iff hb ha, not_le]

theorem scaled_lt_iff {a b : Word} : scaled a < scaled b ↔ orderKey a < orderKey b := by
  rw [← not_le, scaled_le_iff, not_le]

/-- A finite encoding's distance to an exact result is the integer distance over the result's denominator. -/
theorem abs_toRat_sub {w : Word} (h : isFinite w = true) (x : Int) (k : Nat) :
    |toRat w - (x : ℚ) / 2 ^ (149 + k)| = ((|scaled w * 2 ^ k - x| : Int) : ℚ) / 2 ^ (149 + k) := by
  have hw : toRat w - (x : ℚ) / 2 ^ (149 + k) = ((scaled w * 2 ^ k - x : Int) : ℚ) / 2 ^ (149 + k) := by
    rw [toRat_of_finite h, pow_add]
    push_cast
    field_simp
  have hp : (0 : ℚ) < 2 ^ (149 + k) := by positivity
  rw [hw, abs_div, abs_of_pos hp, Int.cast_abs]

/-! ### Sums and products are one rounding -/

theorem round_zero (neg : Bool) (k : Nat) : round neg 0 k = pack neg 0 := by
  simp [round, roundMagnitude]

/-- A finite sum rounds the exact one once; the sign of an exact zero is left open. -/
theorem add_eq_round {a b : Word} (ha : isFinite a = true) (hb : isFinite b = true) :
    ∃ neg, (neg = decide (scaled a + scaled b < 0) ∨ scaled a + scaled b = 0) ∧
      add a b = round neg (scaled a + scaled b).natAbs 0 := by
  rw [add_of_finite ha hb]
  simp only [addFinite]
  split
  · next h => exact ⟨_, .inr h, by rw [h, Int.natAbs_zero, round_zero]⟩
  · exact ⟨_, .inl rfl, rfl⟩

/-- A finite product rounds the exact one once; the sign of an exact zero is left open. -/
theorem mul_eq_round {a b : Word} (ha : isFinite a = true) (hb : isFinite b = true) :
    ∃ neg, (neg = decide (scaled a * scaled b < 0) ∨ scaled a * scaled b = 0) ∧
      mul a b = round neg (scaled a * scaled b).natAbs 149 := by
  refine ⟨negative a != negative b, ?_, ?_⟩
  · by_cases hz : scaled a * scaled b = 0
    · exact .inr hz
    · exact .inl (negative_bne hz)
  · rw [mul_of_finite ha hb, Int.natAbs_mul, natAbs_scaled, natAbs_scaled]

/-- `round_nearest` over the rationals: the finite word that the exact result `x / 2^(149+k)` rounds to is a nearest one to
it, the even one of two equally near. -/
theorem toRat_round_nearest {x : Int} {k : Nat} {r z : Word}
    (hr : ∃ neg, (neg = decide (x < 0) ∨ x = 0) ∧ r = round neg x.natAbs k)
    (hf : isFinite r = true) (hz : isFinite z = true) :
    |toRat r - (x : ℚ) / 2 ^ (149 + k)| ≤ |toRat z - (x : ℚ) / 2 ^ (149 + k)| ∧
      (|toRat r - (x : ℚ) / 2 ^ (149 + k)| = |toRat z - (x : ℚ) / 2 ^ (149 + k)| → toRat z ≠ toRat r →
        r.toNat % 2 = 0) := by
  obtain ⟨neg, hneg, rfl⟩ := hr
  obtain ⟨hle, htie⟩ := round_nearest hneg hf hz
  have hp : (0 : ℚ) < 2 ^ (149 + k) := by positivity
  rw [abs_toRat_sub hf, abs_toRat_sub hz, div_le_div_iff_of_pos_right hp, div_left_inj' hp.ne', Int.cast_le, Int.cast_inj]
  refine ⟨hle, fun heq hne => htie heq fun hs => hne ?_⟩
  rw [toRat_of_finite hz, toRat_of_finite hf, hs]

end F32

/-- Settles O58: the sum is one rounding of the exact sum in units of `2^-149`. -/
theorem additionIsCorrectlyRounded : Obligations.AdditionIsCorrectlyRounded := by
  intro a b ha hb hf z hz
  have hexact : F32.toRat a + F32.toRat b = ((F32.scaled a + F32.scaled b : Int) : ℚ) / 2 ^ (149 + 0) := by
    rw [F32.toRat_of_finite ha, F32.toRat_of_finite hb, ← add_div, Int.cast_add]
  simp only [hexact]
  exact F32.toRat_round_nearest (F32.add_eq_round ha hb) hf hz

/-- Settles O59: the product is one rounding of the exact product in units of `2^-298`. -/
theorem multiplicationIsCorrectlyRounded : Obligations.MultiplicationIsCorrectlyRounded := by
  intro a b ha hb hf z hz
  have hexact : F32.toRat a * F32.toRat b = ((F32.scaled a * F32.scaled b : Int) : ℚ) / 2 ^ (149 + 149) := by
    rw [F32.toRat_of_finite ha, F32.toRat_of_finite hb, div_mul_div_comm, ← pow_add, Int.cast_mul]
  simp only [hexact]
  exact F32.toRat_round_nearest (F32.mul_eq_round ha hb) hf hz

/-- Settles O60: on numbers both tests compare order keys, which lie as the exact integers do, and so as the rationals do. -/
theorem orderIsTheNumericOrder : Obligations.OrderIsTheNumericOrder := by
  intro a b ha hb
  have hna := F32.not_isNaN_of_isFinite ha
  have hnb := F32.not_isNaN_of_isFinite hb
  constructor
  · rw [F32.le_iff, F32.toRat_le_iff ha hb, F32.scaled_le_iff]
    simp [hna, hnb]
  · rw [F32.lt_iff, F32.toRat_lt_iff ha hb, F32.scaled_lt_iff]
    simp [hna, hnb]

end Sys2Proof.Machine
end

section
/-! ## What a completed command does, said once (spec/60_exceptions.md rules R275, R280)

Each command is one check and one effect. A claim about every command that completes is a case analysis over `commandEffect`
with `commandCheck` passed, and no proof unfolds a command again. -/

namespace Sys2Proof.Machine

/-- The reason a checked value is refused with, if it is. -/
def refusalIn {α : Type} : Except Refusal α → Option Refusal
  | .ok _ => none
  | .error r => some r

/-- The check a command makes before its first state change (R275, R280). -/
def commandCheck (s : State) : Instr → Option Refusal
  | .dlConfigure sr ms | .combConfigure sr ms | .apConfigure sr ms => checkConfigure s.cfg.maxCap sr ms
  | .dlSetDelay _ => checkBuffer s.dl
  | .combSetDelay _ => checkBuffer s.comb.dl
  | .apSetDelay _ => checkBuffer s.ap.dl
  | .dlTick _ => checkReady s.dl
  | .combProcess _ => checkReady s.comb.dl
  | .apProcess _ => checkReady s.ap.dl
  | .combSetFb v | .combSetDamp v | .apSetCoef v | .engSetDome v => checkNotNaN v
  | .engConfigure sr hint => checkEngConfigure s.cfg sr hint
  | .engProcess ch _ => firstRefusal [checkChannels ch, checkEngConfigured s.eng]
  | .engGetParam r => refusalIn (readParam Num.b32 s.eng r)
  | .dlClear | .combClear | .apClear | .engClear | .engSetPreset _ => none

/-- The state a command leaves when its check passes. -/
def commandEffect (s : State) : Instr → State
  | .dlConfigure sr ms => s.withDl (configureLine sr ms)
  | .dlSetDelay n => s.withDl (s.dl.setLength n)
  | .dlClear => s.withDl s.dl.clear
  | .dlTick x => (s.withDl (s.dl.tick Num.b32 x).1).answer .dl (s.dl.tick Num.b32 x).2
  | .combConfigure sr ms => s.withComb { s.comb with dl := configureLine sr ms, filterStore := Num.b32.zero }
  | .combSetDelay n => s.withComb { s.comb with dl := s.comb.dl.setLength n }
  | .combClear => s.withComb (s.comb.clear Num.b32)
  | .combProcess x => (s.withComb (s.comb.process Num.b32 x).1).answer .comb (s.comb.process Num.b32 x).2
  | .combSetFb f => s.withComb { s.comb with fb := clampFb Num.b32 f }
  | .combSetDamp d => s.withComb { s.comb with damp := clampDamp Num.b32 d }
  | .apConfigure sr ms => s.withAp { s.ap with dl := configureLine sr ms }
  | .apSetDelay n => s.withAp { s.ap with dl := s.ap.dl.setLength n }
  | .apClear => s.withAp s.ap.clear
  | .apProcess x => (s.withAp (s.ap.process Num.b32 x).1).answer .ap (s.ap.process Num.b32 x).2
  | .apSetCoef c => s.withAp { s.ap with g := clampCoef Num.b32 c }
  | .engConfigure sr _ => s.withEng (s.eng.configure Num.b32 (biquadOf s.biquad) s.cfg sr)
  | .engSetDome a => s.withEng (s.eng.setDome Num.b32 (biquadOf s.biquad) s.cfg a)
  | .engSetPreset id => s.withEng (s.eng.setPreset Num.b32 (biquadOf s.biquad) s.cfg id)
  | .engProcess ch ns =>
    (s.withEng (s.eng.process Num.b32 (biquadOf s.biquad) ch ns s.hb).1).withHb
      (s.eng.process Num.b32 (biquadOf s.biquad) ch ns s.hb).2
  | .engClear => s.withEng (s.eng.clear Num.b32 (biquadOf s.biquad))
  | .engGetParam r =>
    { s with responses := s.responses ++ (readParam Num.b32 s.eng r).toOption.toList.map fun w => (.eng, w) }

/-- Every command is its check before its effect (R280). -/
theorem exec_eq_unlessRefused (i : Instr) (s : State) :
    exec i s = unlessRefused (commandCheck s i) (commandEffect s i) := by
  cases i with
  | dlConfigure sr ms => exact execDlConfigure_eq s sr ms
  | dlSetDelay n => exact execDlSetDelay_eq s n
  | dlClear => exact execDlClear_eq s
  | dlTick x => exact execDlTick_eq s x
  | combConfigure sr ms => exact execCombConfigure_eq s sr ms
  | combSetDelay n => exact execCombSetDelay_eq s n
  | combClear => exact execCombClear_eq s
  | combProcess x => exact execCombProcess_eq s x
  | combSetFb f => exact execCombSetFb_eq s f
  | combSetDamp d => exact execCombSetDamp_eq s d
  | apConfigure sr ms => exact execApConfigure_eq s sr ms
  | apSetDelay n => exact execApSetDelay_eq s n
  | apClear => exact execApClear_eq s
  | apProcess x => exact execApProcess_eq s x
  | apSetCoef c => exact execApSetCoef_eq s c
  | engConfigure sr hint => exact execEngConfigure_eq s sr hint
  | engSetDome a => exact execEngSetDome_eq s a
  | engSetPreset id => exact execEngSetPreset_eq s id
  | engProcess ch ns => exact execEngProcess_eq s ch ns
  | engClear => exact execEngClear_eq s
  | engGetParam r =>
    refine (execEngGetParam_eq s r).trans ?_
    simp only [commandCheck, commandEffect]
    cases readParam Num.b32 s.eng r <;> rfl

/-- A command completes exactly when its check passes, and then with its effect. -/
theorem exec_next_iff {i : Instr} {s t : State} :
    exec i s = .next t ↔ commandCheck s i = none ∧ t = commandEffect s i := by
  rw [exec_eq_unlessRefused, unlessRefused_next]

/-- When `ENG.PROCESS` goes ahead (R183). -/
theorem commandCheck_engProcess {s : State} {ch ns : Nat} :
    commandCheck s (.engProcess ch ns) = none ↔ (ch = 1 ∨ ch = 2) ∧ s.eng.configured = true := by
  simp [commandCheck, firstRefusal_eq_none, checkChannels_eq_none, checkEngConfigured_eq_none]

end Sys2Proof.Machine
end

section
/-! ## The invariant of the machine (spec/10_state.md rules R21, R24, R28, R29, R35 to R38)

One rule per part of the state that a command replaces, the two engine commands that go through the datapath, and then one
case per command. -/

namespace Sys2Proof.Machine

/-- A block keeps the engine's invariant (R183): settings are kept, and every line keeps its own. -/
theorem EngineInv.process {cfg : Params Word} {e : Engine32} (h : EngineInv cfg e) (hc : e.configured = true)
    (p : BqProcess Word) (ch ns : Nat) (hb : Memory Word) :
    EngineInv cfg (e.process Num.b32 (.ofProcess p) ch ns hb).1 :=
  h.of_settings (Engine.processFrom_settings p ch ns ns 0 e hb)
    (Channel.LinesOk.lines (Engine.processFrom_lines p ch ns ns 0 hb (h.lines_ok hc)))

/-- `ENG.CLEAR` keeps the engine's invariant (R182), configured or not. -/
theorem EngineInv.clear {cfg : Params Word} {e : Engine32} (h : EngineInv cfg e) (p : BqProcess Word) :
    EngineInv cfg (e.clear Num.b32 (.ofProcess p)) := by
  refine h.of_settings (Engine.clear_settings p e) (Engine.forall_lines.2 ⟨fun c k => ?_, fun c j => ?_, fun c => ?_⟩)
  · simpa [Engine.clear, Channel.clear, Comb.clear] using (h.combs c k).line.clear
  · simpa [Engine.clear, Channel.clear, AllPass.clear] using (h.allPasses c j).line.clear
  · simpa [Engine.clear, Channel.clear] using (h.preDelays c).clear

namespace State.Inv

variable {s : State}

theorem withDl (h : s.Inv) {D : DelayLine Word} (hD : LineInv s.cfg.maxCap D) : (s.withDl D).Inv :=
  ⟨h.parameters, hD, h.comb, h.allPass, h.engine, h.hostBuffer⟩

theorem withComb (h : s.Inv) {c : Comb Word} (hc : CombInv s.cfg.maxCap c) : (s.withComb c).Inv :=
  ⟨h.parameters, h.delayLine, hc, h.allPass, h.engine, h.hostBuffer⟩

theorem withAp (h : s.Inv) {a : AllPass Word} (ha : AllPassInv s.cfg.maxCap a) : (s.withAp a).Inv :=
  ⟨h.parameters, h.delayLine, h.comb, ha, h.engine, h.hostBuffer⟩

theorem withEng (h : s.Inv) {e : Engine32} (he : EngineInv s.cfg e) : (s.withEng e).Inv :=
  ⟨h.parameters, h.delayLine, h.comb, h.allPass, he, h.hostBuffer⟩

theorem withHb (h : s.Inv) {m : Memory Word} (hm : m.wf 0#32) : (s.withHb m).Inv :=
  ⟨h.parameters, h.delayLine, h.comb, h.allPass, h.engine, hm⟩

/-- The two sides of the ports are no part of the invariant. -/
theorem withPorts (h : s.Inv) (inbox : List (Port × Word)) (responses : List (Port × Response Word)) :
    State.Inv { s with inbox := inbox, responses := responses } :=
  ⟨h.parameters, h.delayLine, h.comb, h.allPass, h.engine, h.hostBuffer⟩

/-- A new line, with its invariant, in the standalone comb. -/
theorem withCombLine (h : s.Inv) {D : DelayLine Word} (hD : LineInv s.cfg.maxCap D) (v : Word) :
    (s.withComb { s.comb with dl := D, filterStore := v }).Inv :=
  h.withComb ⟨hD, h.comb.feedback, h.comb.damping⟩

/-- A new line, with its invariant, in the standalone all-pass. -/
theorem withApLine (h : s.Inv) {D : DelayLine Word} (hD : LineInv s.cfg.maxCap D) :
    (s.withAp { s.ap with dl := D }).Inv :=
  h.withAp ⟨hD, h.allPass.coefficient⟩

end State.Inv

/-- The effect of a command whose check passes keeps the invariant. -/
theorem State.Inv.commandEffect {s : State} (h : s.Inv) {i : Instr} (hc : commandCheck s i = none) :
    (commandEffect s i).Inv := by
  cases i with
  | dlConfigure sr ms => exact h.withDl (configureLine_inv hc)
  | dlSetDelay n => exact h.withDl (h.delayLine.setLength (checkBuffer_eq_none.1 hc) n)
  | dlClear => exact h.withDl h.delayLine.clear
  | dlTick x => exact (h.withDl (h.delayLine.write_advance (checkReady_eq_none.1 hc).1 _)).withPorts _ _
  | combConfigure sr ms => exact h.withCombLine (configureLine_inv hc) _
  | combSetDelay n => exact h.withCombLine (h.comb.line.setLength (checkBuffer_eq_none.1 hc) n) _
  | combClear => exact h.withCombLine h.comb.line.clear _
  | combProcess x => exact (h.withCombLine (h.comb.line.write_advance (checkReady_eq_none.1 hc).1 _) _).withPorts _ _
  | combSetFb f => exact h.withComb ⟨h.comb.line, clampFb_inRange (checkNotNaN_eq_none.1 hc), h.comb.damping⟩
  | combSetDamp d => exact h.withComb ⟨h.comb.line, h.comb.feedback, clampDamp_inRange (checkNotNaN_eq_none.1 hc)⟩
  | apConfigure sr ms => exact h.withApLine (configureLine_inv hc)
  | apSetDelay n => exact h.withApLine (h.allPass.line.setLength (checkBuffer_eq_none.1 hc) n)
  | apClear => exact h.withApLine h.allPass.line.clear
  | apProcess x => exact (h.withApLine (h.allPass.line.write_advance (checkReady_eq_none.1 hc).1 _)).withPorts _ _
  | apSetCoef c => exact h.withAp ⟨h.allPass.line, clampCoef_inRange (checkNotNaN_eq_none.1 hc)⟩
  | engConfigure sr hint => exact h.withEng (h.engine.configure hc)
  | engSetDome a => exact h.withEng (h.engine.setDome (checkNotNaN_eq_none.1 hc))
  | engSetPreset id => exact h.withEng (h.engine.setPreset id)
  | engProcess ch ns =>
    obtain ⟨-, hon⟩ := commandCheck_engProcess.1 hc
    exact (h.withEng (h.engine.process hon _ ch ns s.hb)).withHb
      (Engine.processFrom_hb_wf _ ch ns ns 0 s.eng h.hostBuffer)
  | engClear => exact h.withEng (h.engine.clear _)
  | engGetParam r => exact h.withPorts _ _

/-- Settles O46: a step holds the state, or is the effect of a command, checked, on the state without its words. -/
theorem stepKeepsTheInvariant : Obligations.StepKeepsTheInvariant := by
  intro s t h hstep
  rcases step_cases s with ⟨-, hidle⟩ | ⟨p, ws, -, ⟨e, -, hrefused⟩ | ⟨i, -, hrun⟩⟩
  · rw [hidle] at hstep
    cases hstep
    exact h
  · rw [hrefused] at hstep
    cases hstep
  · rw [hrun] at hstep
    obtain ⟨hc, rfl⟩ := exec_next_iff.1 hstep
    exact State.Inv.commandEffect (h.withPorts (consume p ws s.inbox) s.responses) hc

end Sys2Proof.Machine
end

section
/-! ## Rotation of a Delay Line (spec/10_state.md rule R33)

Indices are turned by `r` modulo the capacity. Reading and writing commute with the turn; turned cells stay distinct. -/

namespace Sys2Proof.Machine

variable {maxCap r : Nat} {D D' : DelayLine Word}

/-- A line whose length is set has a buffer (R24). -/
theorem LineInv.cap_ne_zero (h : LineInv maxCap D) (hn : D.n ≠ none) : D.cap ≠ 0 :=
  fun hz => hn (h.unconfigured hz).2

/-- Turned indices of cells are equal only for the same cell. -/
theorem rotate_inj {cap r j k : Nat} (hj : j < cap) (hk : k < cap) (h : (j + r) % cap = (k + r) % cap) : j = k :=
  Nat.ModEq.eq_of_lt_of_lt (Nat.ModEq.add_right_cancel' r h) hj hk

/-- The read index turns with the line. -/
theorem Rotated.readIndex (hr : Rotated r D D') (h : LineInv maxCap D) (hn : D.n ≠ none) :
    D'.readIndex = (D.readIndex + r) % D.cap := by
  obtain ⟨hcap, hlen, hw, -⟩ := hr
  obtain ⟨n, hDn⟩ := Option.ne_none_iff_exists'.1 hn
  have hle : n ≤ D.cap := by have := h.length n hDn; omega
  rw [DelayLine.readIndex_eq hDn hle, DelayLine.readIndex_eq (hlen.trans hDn) (hcap.symm ▸ hle), hcap, hw,
    Nat.add_sub_assoc hle, Nat.add_sub_assoc hle, Nat.mod_add_mod, Nat.mod_add_mod, Nat.add_right_comm]

/-- Lines that differ by a rotation read the same word. -/
theorem Rotated.read (hr : Rotated r D D') (h : LineInv maxCap D) (hn : D.n ≠ none) :
    D'.read Num.b32 = D.read Num.b32 := by
  have hlt : D.readIndex < D.cap := by
    obtain ⟨n, hDn⟩ := Option.ne_none_iff_exists'.1 hn
    rw [DelayLine.readIndex_eq hDn (by have := h.length n hDn; omega)]
    exact Nat.mod_lt _ (Nat.pos_of_ne_zero (h.cap_ne_zero hn))
  rw [DelayLine.read, hr.readIndex h hn]
  obtain ⟨-, -, -, hcells⟩ := hr
  exact hcells _ hlt

/-- Writing the same word to both keeps the rotation, and so does advancing. -/
theorem Rotated.write_advance (hr : Rotated r D D') (h : LineInv maxCap D) (h' : LineInv maxCap D') (hc : D.cap ≠ 0)
    (x : Word) : Rotated r (D.write Num.b32 x).advance (D'.write Num.b32 x).advance := by
  obtain ⟨hcap, hlen, hw, hread⟩ := hr
  refine ⟨hcap, hlen, ?_, fun j hj => ?_⟩
  · simp only [DelayLine.advance_w, DelayLine.write_w, DelayLine.write_cap, DelayLine.advance_cap, hcap, hw,
      Nat.mod_add_mod, Nat.add_right_comm]
  · simp only [DelayLine.advance_buf, DelayLine.advance_cap, DelayLine.write_buf, DelayLine.write_cap, b32_zero] at hj ⊢
    rw [hw]
    by_cases hjw : j = D.w
    · rw [hjw, Memory.read_write_same h'.canonical, Memory.read_write_same h.canonical]
    · have hne : (j + r) % D.cap ≠ (D.w + r) % D.cap := fun he => hjw (rotate_inj hj (h.cursor hc) he)
      rw [Memory.read_write_other h'.canonical x hne, Memory.read_write_other h.canonical x hjw]
      exact hread j hj

/-- Settles O17: a tick reads, writes and advances, and each of the three keeps the rotation. -/
theorem rotationOfALineIsUnobservable : Obligations.RotationOfALineIsUnobservable := by
  intro maxCap r D D' x h h' hn hr
  exact ⟨hr.read h hn, hr.write_advance h h' (h.cap_ne_zero hn) x⟩

end Sys2Proof.Machine
end

section
/-! ## Reset (spec/10_state.md rule R38, spec/70_reset_and_hazards.md rule R300) -/

namespace Sys2Proof.Machine

/-- The state after reset has the invariant, for every legal choice of the open parameters (R7). -/
theorem State.Inv.resetWith {cfg : Params Word} (h : paramsLegal Num.b32 cfg = true) (b : BiquadChoice) :
    (State.resetWith cfg b).Inv where
  parameters := h
  delayLine := .unconfigured_line
  comb := ⟨.unconfigured_line, (by decide +kernel : inRange 0#32 0#32 (F32.ofRat 0.99) = true),
    (by decide +kernel : inRange 0#32 0#32 (F32.ofRat 1) = true)⟩
  allPass := ⟨.unconfigured_line, (by decide +kernel : inRange 0#32 0#32 (F32.ofRat 0.9) = true)⟩
  engine := .reset_engine h
  hostBuffer := Memory.wf_nil

/-- The parameters of `State.reset` are legal, whatever the free constant is (log 2). -/
theorem paramsLegal_defaultParams : paramsLegal Num.b32 defaultParams = true := by
  have htest : paramsLegal Num.b32 (testParams Num.b32) = true := by decide +kernel
  unfold defaultParams
  by_cases hp : paramsLegal Num.b32 { Config.openParams with resetParams := arenaReset Num.b32 } = true
  · simp only [if_pos hp]
    exact hp
  · simp only [if_neg hp]
    exact htest

/-- Settles O47: reset meets the invariant wherever the parameters are legal, and those of `State.reset` are. -/
theorem resetSatisfiesTheInvariant : Obligations.ResetSatisfiesTheInvariant :=
  ⟨fun _ b h => State.Inv.resetWith h b, State.Inv.resetWith paramsLegal_defaultParams .external⟩

/-- A channel after reset is the constructed one with every comb's coefficients derived from the reset `domeAmount` (R238). -/
theorem Engine.reset_channel (p : BqProcess Word) (cfg : Params Word) (c : Fin 2) :
    (Engine.reset Num.b32 (.ofProcess p) cfg).ch.get c =
      { Channel.reset Num.b32 (.ofProcess p) cfg c with
        comb := .ofFn fun _ =>
          { Comb.reset Num.b32 with
            fb := clampFb Num.b32 (mapDerive Num.b32 cfg.resetParams.domeAmount).combFeedback
            damp := clampDamp Num.b32 (mapDerive Num.b32 cfg.resetParams.domeAmount).combDamping } } := by
  rw [Engine.reset, Engine.mapApply_of_unconfigured _ _ _ rfl]
  fin_cases c <;> rfl

/-- Settles O48: reset runs `map_apply` on an engine that is not configured, which only derives registers. -/
theorem resetValues : Obligations.ResetValues := by
  intro cfg b
  have heng : (State.resetWith cfg b).eng = Engine.reset Num.b32 (.ofProcess (processOf b)) cfg := rfl
  refine ⟨?lines, ?combs, ?allPasses, ?biquads, rfl, rfl, rfl, rfl, rfl, rfl, rfl, rfl⟩
  case lines =>
    simp only [List.forall_mem_cons]
    refine ⟨⟨rfl, rfl, rfl, rfl⟩, ⟨rfl, rfl, rfl, rfl⟩, ⟨rfl, rfl, rfl, rfl⟩,
      Engine.forall_lines.2 ⟨fun c k => ?_, fun c j => ?_, fun c => ?_⟩⟩
    · rw [Engine.comb_eq, heng, Engine.reset_channel, Bank8.get_ofFn]
      exact ⟨rfl, rfl, rfl, rfl⟩
    · rw [Engine.ap_eq, heng, Engine.reset_channel, Channel.reset, Bank4.get_ofFn]
      exact ⟨rfl, rfl, rfl, rfl⟩
    · rw [Engine.pre_eq, heng, Engine.reset_channel]
      exact ⟨rfl, rfl, rfl, rfl⟩
  case combs =>
    intro c k
    rw [Engine.comb_eq, heng, Engine.reset_channel, Bank8.get_ofFn]
    exact ⟨rfl, rfl, rfl⟩
  case allPasses =>
    intro c j
    rw [Engine.ap_eq, heng, Engine.reset_channel, Channel.reset, Bank4.get_ofFn]
  case biquads =>
    intro c q hq
    rw [heng, Engine.reset_channel, Channel.mem_biquads] at hq
    rcases hq with ⟨k, rfl⟩ | rfl | rfl
    · rw [Channel.reset, Bank7.get_ofFn]
      exact ⟨rfl, rfl⟩
    · exact ⟨rfl, rfl⟩
    · exact ⟨rfl, rfl⟩

end Sys2Proof.Machine
end

section
/-! ## The flag and the cursors (spec/10_state.md rules R27, R28) -/

namespace Sys2Proof.Machine

/-! ### The configured flag -/

/-- `ENG.CONFIGURE` sets the flag (R28, R181). -/
theorem commandEffect_engConfigure_configured (s : State) (sr : DWord) (hint : Int) :
    (commandEffect s (.engConfigure sr hint)).eng.configured = true := by
  obtain ⟨-, -, -, -, -, hkept⟩ := Engine.mapApply_kept (processOf s.biquad) s.cfg
    { s.eng with
      sampleRate := some sr
      configured := true
      ch := .ofFn fun c => (s.eng.ch.get c).configure Num.b32 (biquadOf s.biquad) s.cfg sr c }
  exact hkept

/-- No other command's effect touches the flag (R28): the parameter commands end in `map_apply`, and a block and `ENG.CLEAR`
keep every setting. -/
theorem commandEffect_configured (s : State) {i : Instr} (hi : ∀ sr hint, i ≠ .engConfigure sr hint) :
    (commandEffect s i).eng.configured = s.eng.configured := by
  have kept : ∀ e' : Engine32, e'.settings = s.eng.settings → e'.configured = s.eng.configured := fun e' h => by
    obtain ⟨-, -, -, -, -, -, -, -, -, hflag⟩ := Engine.registers_of_settings h
    exact hflag
  have mapped : ∀ e : Engine32,
      (e.mapApply Num.b32 (biquadOf s.biquad) s.cfg).configured = e.configured := fun e => by
    obtain ⟨-, -, -, -, -, hflag⟩ := Engine.mapApply_kept (processOf s.biquad) s.cfg e
    exact hflag
  cases i with
  | engConfigure sr hint => exact absurd rfl (hi sr hint)
  | engSetDome a => exact mapped _
  | engSetPreset id => exact mapped _
  | engProcess ch ns => exact kept _ (Engine.processFrom_settings _ ch ns ns 0 s.eng s.hb)
  | engClear => exact kept _ (Engine.clear_settings _ s.eng)
  | _ => rfl

/-- Settles O51: the flag is true after `ENG.CONFIGURE` and as before after any other command, so it is never cleared. -/
theorem configuredFlagIsNeverCleared : Obligations.ConfiguredFlagIsNeverCleared := by
  intro i s t h
  obtain ⟨-, rfl⟩ := exec_next_iff.1 h
  refine ⟨fun hset => ?_, ?_, fun hi => commandEffect_configured s hi⟩
  · by_cases hi : ∃ sr hint, i = .engConfigure sr hint
    · obtain ⟨sr, hint, rfl⟩ := hi
      exact commandEffect_engConfigure_configured s sr hint
    · rw [commandEffect_configured s fun sr hint he => hi ⟨sr, hint, he⟩]
      exact hset
  · rintro ⟨sr, hint, rfl⟩
    exact commandEffect_engConfigure_configured s sr hint

/-! ### The engine's cursors -/

/-- The cursor of a line after `ns` samples (R123, R183). -/
def DelayLine.cursorAfter (ns : Nat) (D : DelayLine Word) : Nat := if ns = 0 then D.w else (D.w + ns) % D.cap

/-- The first sample moves the cursor one place and the others the rest of the way. -/
theorem DelayLine.cursorAfter_advance (ns : Nat) (D : DelayLine Word) (v : Word) :
    (D.write Num.b32 v).advance.cursorAfter ns = D.cursorAfter (ns + 1) := by
  simp only [DelayLine.cursorAfter, DelayLine.advance_w, DelayLine.advance_cap, DelayLine.write_w, DelayLine.write_cap,
    Nat.mod_add_mod, Nat.add_one_ne_zero, if_false]
  split
  · next h => rw [h]
  · rw [Nat.add_assoc, Nat.add_comm 1 ns]

/-- The group's elements in index order. -/
theorem Bank8.toList_eq_ofFn {α : Type} (b : Bank8 α) : b.toList = List.ofFn b.get := rfl

theorem Bank4.toList_eq_ofFn {α : Type} (b : Bank4 α) : b.toList = List.ofFn b.get := rfl

/-- A quantity of every line of one engine is another quantity of the same line of another engine. -/
theorem Engine.map_lines_congr {α : Type} {e e' : Engine32} {f g : DelayLine Word → α}
    (hcomb : ∀ c k, f (e'.comb c k).dl = g (e.comb c k).dl) (hap : ∀ c j, f (e'.ap c j).dl = g (e.ap c j).dl)
    (hpre : ∀ c, f (e'.pre c) = g (e.pre c)) : e'.lines.map f = e.lines.map g := by
  have hch : ∀ c, (e'.ch.get c).lines.map f = (e.ch.get c).lines.map g := by
    intro c
    simp only [Channel.lines, Bank8.toList_eq_ofFn, Bank4.toList_eq_ofFn, List.map_append, List.map_ofFn, List.map_cons,
      List.map_nil]
    congr 2
    · congr 1
      exact funext (hcomb c)
    · congr 1
      exact funext (hap c)
    · rw [← Engine.pre_eq, ← Engine.pre_eq, hpre c]
  simpa [Engine.lines] using congrArg₂ (· ++ ·) (hch 0) (hch 1)

/-- One sample writes and advances each of the 26 lines once (R192, R193, R195). -/
theorem Engine.sample_cursors (p : BqProcess Word) (k : Nat) (e : Engine32) (l r : Word) :
    (e.sample Num.b32 (.ofProcess p) l r).1.lines.map (DelayLine.cursorAfter k) =
      e.lines.map (DelayLine.cursorAfter (k + 1)) := by
  refine Engine.map_lines_congr (fun c n => ?_) (fun c j => ?_) fun c => ?_
  · fin_cases c <;> fin_cases n <;> exact DelayLine.cursorAfter_advance k _ _
  · fin_cases c <;> fin_cases j <;> exact DelayLine.cursorAfter_advance k _ _
  · fin_cases c <;> exact DelayLine.cursorAfter_advance k _ _

/-- The loop of R183 moves every cursor one place for each sample. -/
theorem Engine.processFrom_cursors (p : BqProcess Word) (ch ns k i : Nat) (e : Engine32) (hb : Memory Word) :
    (Engine.processFrom Num.b32 (.ofProcess p) ch ns k i e hb).1.lines.map (·.w) =
      e.lines.map (DelayLine.cursorAfter k) := by
  induction k generalizing i e hb with
  | zero => rfl
  | succ k ih => exact (ih _ _ _).trans (Engine.sample_cursors p k e _ _)

/-- `map_apply` moves no cursor (R238). -/
theorem Engine.mapApply_cursors (p : BqProcess Word) (cfg : Params Word) (e : Engine32) :
    (e.mapApply Num.b32 (.ofProcess p) cfg).lines.map (·.w) = e.lines.map (·.w) := by
  refine Engine.map_lines_congr (fun c k => ?_) (fun c j => ?_) fun c => ?_
  · rw [Engine.mapApply_comb]
  · rw [Engine.mapApply_ap]
  · obtain ⟨-, -, hw⟩ := Engine.mapApply_pre p cfg e c
    exact hw

/-- `ENG.CONFIGURE` puts every cursor at 0 (R125, R181). -/
theorem Engine.configure_cursors (p : BqProcess Word) (cfg : Params Word) (sr : DWord) (e : Engine32) :
    (e.configure Num.b32 (.ofProcess p) cfg sr).lines.map (·.w) = e.lines.map fun _ => 0 := by
  refine (Engine.mapApply_cursors p cfg _).trans (Engine.map_lines_congr (fun c k => ?_) (fun c j => ?_) fun c => ?_)
  · rw [Engine.comb_eq, Stereo.get_ofFn, Channel.configure, Bank8.get_ofFn]
    rfl
  · rw [Engine.ap_eq, Stereo.get_ofFn, Channel.configure, Bank4.get_ofFn]
    rfl
  · rw [Engine.pre_eq, Stereo.get_ofFn]
    rfl

/-- `ENG.CLEAR` moves no cursor (R126, R182). -/
theorem Engine.clear_cursors (p : BqProcess Word) (e : Engine32) :
    (e.clear Num.b32 (.ofProcess p)).lines.map (·.w) = e.lines.map (·.w) := by
  refine Engine.map_lines_congr (fun c k => ?_) (fun c j => ?_) fun c => ?_
  · rw [Engine.comb_eq, Engine.clear, Stereo.get_map, Channel.clear, Bank8.get_map]
    rfl
  · rw [Engine.ap_eq, Engine.clear, Stereo.get_map, Channel.clear, Bank4.get_map]
    rfl
  · rw [Engine.pre_eq, Engine.clear, Stereo.get_map]
    rfl

/-- Settles O52: a standalone cursor is read off the command's effect; the engine's go by the four lemmas above, one for each
way an engine command reaches its lines. -/
theorem cursorsMoveOnlyBySamples : Obligations.CursorsMoveOnlyBySamples := by
  intro i s t h
  obtain ⟨-, rfl⟩ := exec_next_iff.1 h
  refine ⟨?dl, ?comb, ?ap, ?eng⟩
  case dl => cases i <;> rfl
  case comb => cases i <;> rfl
  case ap => cases i <;> rfl
  case eng =>
    cases i with
    | engConfigure sr hint => exact Engine.configure_cursors _ s.cfg sr s.eng
    | engSetDome a => exact Engine.mapApply_cursors _ s.cfg _
    | engSetPreset id => exact Engine.mapApply_cursors _ s.cfg _
    | engProcess ch ns => exact Engine.processFrom_cursors _ ch ns ns 0 s.eng s.hb
    | engClear => exact Engine.clear_cursors _ s.eng
    | _ => rfl

end Sys2Proof.Machine
end

section
/-! ## The next command on the ports (spec/20_memory.md rule R69, spec/30_encoding.md rules R94 to R106)

One row of the opcode table reads the words of a command: it decodes them, and says how many there are. -/

namespace Sys2Proof

/-- Row `r` reads the header `h` and the operand words `ops`, on port `p`, as the command `i` and all of it (R100 to R106). -/
structure Row.Reads (r : Row) (p : Port) (h : Word) (ops : List Word) (i : Instr) : Prop where
  listed : listedRow p h = some r
  accepts : r.accepts h = true
  assembles : assemble r.op (immField h) ops = some i
  whole : r.format.words = ops.length + 1

section

variable {r : Row} {p : Port} {h : Word} {ops : List Word} {i : Instr}

/-- What a row reads is what the decoder answers (R102). -/
theorem Row.Reads.decode_eq (hr : r.Reads p h ops i) : decode p (h :: ops) = .ok i := by
  simp only [decode, hr.listed, hr.accepts, hr.assembles, if_true]

/-- What a row reads has the length its header says (R106). -/
theorem Row.Reads.commandWords_eq (hr : r.Reads p h ops i) : commandWords p h = ops.length + 1 := by
  simp only [commandWords, hr.listed, hr.whole]

/-- An engine row whose `imm16` is an operand reads its own opcode with any `imm16` (R98, R99). -/
theorem Row.Reads.of_imm {op imm : Nat} {name : String} {f : Format} (hop : op < 256) (himm : fitsImm16 imm = true)
    (hrow : engRows.find? (fun r => decide (r.op = op)) = some ⟨name, op, f, header op 0, 0xFFFF0000#32, .eng⟩)
    (hassemble : assemble op imm ops = some i) (hwhole : f.words = ops.length + 1) :
    Row.Reads ⟨name, op, f, header op 0, 0xFFFF0000#32, .eng⟩ .eng (header op imm) ops i := by
  have himm : imm < 65536 := of_decide_eq_true himm
  have hfield : opField (header op imm) = op := opField_header hop himm
  refine ⟨?_, ?_, ?_, hwhole⟩
  · rw [listedRow_eq, hfield]
    exact hrow
  · rw [accepts_imm _ op hop, hfield, rsvField_header himm]
    exact decide_eq_true ⟨rfl, rfl⟩
  · rwa [immField_header himm]

end

/-- The words of a well-formed command are read by a row of its port as that command (R91 to R100). -/
theorem reads_encode {i : Instr} (h : i.wellFormed = true) :
    ∃ hd ops r, encode i = hd :: ops ∧ Row.Reads r i.port hd ops i := by
  cases i with
  | dlConfigure sr ms => exact ⟨_, _, _, rfl, rfl, rfl, congrArg (some <| Instr.dlConfigure · ms) (dword_append sr), rfl⟩
  | dlSetDelay n => exact ⟨_, _, _, rfl, rfl, rfl, congrArg (some <| Instr.dlSetDelay ·) (toInt_ofInt_of_fits h), rfl⟩
  | combConfigure sr ms => exact ⟨_, _, _, rfl, rfl, rfl, congrArg (some <| Instr.combConfigure · ms) (dword_append sr), rfl⟩
  | combSetDelay n => exact ⟨_, _, _, rfl, rfl, rfl, congrArg (some <| Instr.combSetDelay ·) (toInt_ofInt_of_fits h), rfl⟩
  | apConfigure sr ms => exact ⟨_, _, _, rfl, rfl, rfl, congrArg (some <| Instr.apConfigure · ms) (dword_append sr), rfl⟩
  | apSetDelay n => exact ⟨_, _, _, rfl, rfl, rfl, congrArg (some <| Instr.apSetDelay ·) (toInt_ofInt_of_fits h), rfl⟩
  | engConfigure sr hint =>
    exact ⟨_, _, _, rfl, rfl, rfl,
      congrArg₂ (some <| Instr.engConfigure · ·) (dword_append sr) (toInt_ofInt_of_fits h), rfl⟩
  | engSetPreset id => cases id <;> exact ⟨_, _, _, rfl, rfl, rfl, rfl, rfl⟩
  | engProcess ch ns =>
    obtain ⟨hch, hns⟩ := Bool.and_eq_true_iff.1 h
    have hops : (BitVec.ofNat 32 ns).toNat = ns := by
      rw [BitVec.toNat_ofNat, Nat.mod_eq_of_lt (of_decide_eq_true hns)]
    exact ⟨_, _, _, rfl, .of_imm (by decide) hch rfl (congrArg (some <| Instr.engProcess ch ·) hops) rfl⟩
  | engGetParam r => exact ⟨_, _, _, rfl, .of_imm (by decide) h rfl rfl rfl⟩
  | _ => exact ⟨_, _, _, rfl, rfl, rfl, rfl, rfl⟩

namespace Machine

/-- Settles O8: this is what a step does with words that decode. -/
theorem stepRunsTheDecodedCommand : Obligations.StepRunsTheDecodedCommand := fun _ _ _ _ hnext hdecode =>
  step_ok hnext hdecode

/-- Settles O7: a row reads the words as the command and as a whole one, so they are the next command and taking them leaves
the rest. -/
theorem firstCommandOnThePortsRuns : Obligations.FirstCommandOnThePortsRuns := by
  intro s i rest hwf hinbox
  obtain ⟨h, ops, r, hwords, hreads⟩ := reads_encode hwf
  obtain ⟨hnext, hrest⟩ := nextCommand_head rest hreads.commandWords_eq
  rw [← hwords, ← hinbox] at hnext hrest
  rw [step_ok hnext (hwords ▸ hreads.decode_eq), hrest]
  rfl

end Machine

end Sys2Proof
end

section
/-! ## Causality of a block (spec/20_memory.md rules R64, R67)

A block is a run over its input pairs, and the outputs of a run are those of its first part followed by the rest. -/

namespace Sys2Proof.Machine

/-- The outputs of the first inputs do not depend on what follows. -/
theorem runUnit_getD_append {σ α β : Type} (f : σ → α → σ × β) (u : σ) {xs : List α} (ys : List α) {j : Nat}
    (hj : j < xs.length) (d : β) : (runUnit f u (xs ++ ys)).2.getD j d = (runUnit f u xs).2.getD j d := by
  rw [runUnit_append]
  exact List.getD_append _ _ _ _ (by rwa [runUnit_length])

/-- The inputs of `a + b` indices are those of the first `a` and then those of the other `b`. -/
theorem hostInputs_add (ch ns i a b : Nat) (hb : Memory Word) :
    hostInputs ch ns i (a + b) hb = hostInputs ch ns i a hb ++ hostInputs ch ns (i + a) b hb := by
  simp [hostInputs, List.range_add, Function.comp_def, Nat.add_assoc]

/-- Host buffers that agree on the inputs of the first `n` indices get the same outputs there. -/
theorem Engine.process_causal (p : BqProcess Word) {ch ns n : Nat} (e : Engine32) {hb hb' : Memory Word} (hwf : hb.wf 0#32)
    (hwf' : hb'.wf 0#32) (hn : n ≤ ns) (hagree : hostInputs ch ns 0 n hb = hostInputs ch ns 0 n hb') {j : Nat}
    (hj : j < n) :
    (e.process Num.b32 (.ofProcess p) ch ns hb).2.read 0#32 j = (e.process Num.b32 (.ofProcess p) ch ns hb').2.read 0#32 j ∧
      (ch = 2 → (e.process Num.b32 (.ofProcess p) ch ns hb).2.read 0#32 (ns + j) =
        (e.process Num.b32 (.ofProcess p) ch ns hb').2.read 0#32 (ns + j)) := by
  have hsplit : ∀ m, hostInputs ch ns 0 ns m = hostInputs ch ns 0 n m ++ hostInputs ch ns (0 + n) (ns - n) m := fun m => by
    rw [← hostInputs_add, Nat.add_sub_cancel' hn]
  have hlen : j < (hostInputs ch ns 0 n hb').length := by rwa [hostInputs_length]
  have houtputs : (runUnit (Engine.tick p) e (hostInputs ch ns 0 ns hb)).2.getD j (0#32, 0#32) =
      (runUnit (Engine.tick p) e (hostInputs ch ns 0 ns hb')).2.getD j (0#32, 0#32) := by
    rw [hsplit hb, hsplit hb', hagree, runUnit_getD_append _ _ _ hlen, runUnit_getD_append _ _ _ hlen]
  obtain ⟨-, hout, -⟩ := Engine.processFrom_spec p ch ns ns 0 e hwf (Nat.zero_add ns).le
  obtain ⟨-, hout', -⟩ := Engine.processFrom_spec p ch ns ns 0 e hwf' (Nat.zero_add ns).le
  obtain ⟨hl, hr⟩ := hout j (hj.trans_le hn)
  obtain ⟨hl', hr'⟩ := hout' j (hj.trans_le hn)
  rw [Nat.zero_add] at hl hl' hr hr'
  exact ⟨hl.trans ((congrArg Prod.fst houtputs).trans hl'.symm),
    fun hch => (hr hch).trans ((congrArg Prod.snd houtputs).trans (hr' hch).symm)⟩

/-- Settles O40: up to index `i` both blocks read the same inputs, and outputs up to `i` depend on no others. -/
theorem outputsDependOnEarlierInputsOnly : Obligations.OutputsDependOnEarlierInputsOnly := by
  intro ch ns i s t u hb hwf hwf' hi hcells ht hu j hj
  obtain ⟨-, rfl⟩ := exec_next_iff.1 ht
  obtain ⟨-, rfl⟩ := exec_next_iff.1 hu
  refine Engine.process_causal (processOf s.biquad) s.eng hwf hwf' (Nat.succ_le_of_lt hi) (hostInputs_congr fun k hk => ?_)
    (Nat.lt_succ_of_le hj)
  rw [Nat.zero_add]
  exact hcells k (Nat.le_of_lt_succ hk)

end Sys2Proof.Machine
end

section
/-! ## The host buffer that the host presents (spec/20_memory.md rule R66) -/

namespace Sys2Proof.Machine

section

variable {S : Type} [DecidableEq S] {zero : S}

/-- No cell is listed below the first index. -/
theorem le_of_mem_cellsFrom {start : Nat} {xs : List S} {c : Nat × S} (hc : c ∈ cellsFrom zero start xs) : start ≤ c.1 := by
  induction xs generalizing start with
  | nil => cases hc
  | cons v xs ih =>
    simp only [cellsFrom] at hc
    split at hc
    · exact Nat.le_of_succ_le (ih hc)
    · rcases List.mem_cons.1 hc with rfl | hc
      · exact Nat.le_refl _
      · exact Nat.le_of_succ_le (ih hc)

/-- Listed samples are in canonical form. -/
theorem cellsFrom_wf (start : Nat) (xs : List S) : (cellsFrom zero start xs).wf zero := by
  induction xs generalizing start with
  | nil => exact Memory.wf_nil
  | cons v xs ih =>
    simp only [cellsFrom]
    split
    · exact ih _
    · next hv => exact Memory.wf_cons.2 ⟨fun c hc => le_of_mem_cellsFrom hc, hv, ih _⟩

/-- Sample `i` is read at the first index plus `i`. -/
theorem read_cellsFrom (start : Nat) (xs : List S) (i : Nat) :
    (cellsFrom zero start xs).read zero (start + i) = xs.getD i zero := by
  induction xs generalizing start i with
  | nil => rfl
  | cons v xs ih =>
    cases i with
    | zero =>
      simp only [cellsFrom]
      split
      · next hv => exact (Memory.read_of_lt fun c hc => le_of_mem_cellsFrom hc).trans hv.symm
      · simp [Memory.read]
    | succ i =>
      have hrest : (cellsFrom zero (start + 1) xs).read zero (start + (i + 1)) = xs.getD i zero := by
        rw [Nat.add_comm i 1, ← Nat.add_assoc]
        exact ih (start + 1) i
      simp only [cellsFrom]
      split
      · exact hrest
      · simpa [Memory.read] using hrest

end

/-- Settles O45: the buffer lists channel 0 and then channel 1 from index 0, so channel 1 begins at `numSamples`. -/
theorem hostBufferIsChannelMajor : Obligations.HostBufferIsChannelMajor := by
  intro s ch0 ch1 _
  have hread : ∀ a, (s.presentBuffer ch0 ch1).hb.read 0#32 a = (ch0 ++ ch1).getD a 0#32 := fun a => by
    rw [← read_cellsFrom 0, Nat.zero_add]
    rfl
  refine ⟨cellsFrom_wf 0 _, fun i hi => ⟨?_, ?_⟩⟩
  · simp only [State.bufferSample, hbIndex, b32_zero, hread, Nat.zero_mul, Nat.zero_add]
    exact List.getD_append _ _ _ _ hi
  · simp only [State.bufferSample, hbIndex, b32_zero, hread, Nat.one_mul]
    rw [List.getD_append_right _ _ _ _ (Nat.le_add_right _ _), Nat.add_sub_cancel_left]

end Sys2Proof.Machine
end

section
/-! ## What a Delay Line command depends on (spec/20_memory.md rule R68, spec/30_encoding.md rule R101) -/

namespace Sys2Proof.Machine

section

variable {i : Instr} {s s' : State}

/-- The check reads the line and `MAX_CAP`. -/
theorem commandCheck_congr_dl (hi : i.port = .dl) (hdl : s'.dl = s.dl) (hcap : s'.cfg.maxCap = s.cfg.maxCap) :
    commandCheck s' i = commandCheck s i := by
  cases i with
  | dlConfigure sr ms => exact congrArg (checkConfigure · sr ms) hcap
  | dlSetDelay n => exact congrArg checkBuffer hdl
  | dlClear => rfl
  | dlTick x => exact congrArg checkReady hdl
  | _ => cases hi

/-- The effect makes the same line of the same line and answers the same. -/
theorem commandEffect_congr_dl (hi : i.port = .dl) (hdl : s'.dl = s.dl) :
    (commandEffect s' i).dl = (commandEffect s i).dl ∧
      ∃ answer, (commandEffect s i).responses = s.responses ++ answer ∧
        (commandEffect s' i).responses = s'.responses ++ answer := by
  cases i with
  | dlConfigure sr ms => exact ⟨rfl, [], (List.append_nil _).symm, (List.append_nil _).symm⟩
  | dlSetDelay n => exact ⟨congrArg (·.setLength n) hdl, [], (List.append_nil _).symm, (List.append_nil _).symm⟩
  | dlClear => exact ⟨congrArg DelayLine.clear hdl, [], (List.append_nil _).symm, (List.append_nil _).symm⟩
  | dlTick x =>
    refine ⟨congrArg (fun D : DelayLine Word => (D.tick Num.b32 x).1) hdl,
      [(.dl, .word (s.dl.tick Num.b32 x).2)], rfl, ?_⟩
    rw [← hdl]
    rfl
  | _ => cases hi

end

/-- Settles O55: the check passes in both states or in neither, and the effects agree on the line and the answer. -/
theorem dlCommandsDependOnTheirLineOnly : Obligations.DlCommandsDependOnTheirLineOnly := by
  intro i s s' t hi hdl hcap hexec
  obtain ⟨hcheck, rfl⟩ := exec_next_iff.1 hexec
  obtain ⟨hline, answer, hanswer, hanswer'⟩ := commandEffect_congr_dl hi hdl
  refine ⟨_, exec_next_iff.2 ⟨(commandCheck_congr_dl hi hdl hcap).trans hcheck, rfl⟩, hline, fun given hgiven => ?_⟩
  rw [hanswer', List.append_cancel_left (hanswer.symm.trans hgiven)]

end Sys2Proof.Machine
end

section
/-! ## Lengths and verdicts (spec/30_encoding.md rules R101 to R106)

What the opcode table says of a listed opcode, in the spec's own terms: which opcodes a port lists, how long their commands
are, and which headers a row accepts. The decoder's verdicts rest on these rules. -/

namespace Sys2Proof

open Machine

/-! ### The opcode table read as R101 to R106 print it -/

/-- The mask of R100 by opcode: it leaves out the bits of `imm16` that hold an operand, `imm16[1:0]` of `ENG.SETPRESET` (R97)
and all of `imm16` of `ENG.PROCESS` and `ENG.GETPARAM` (R98, R99). -/
def maskOf (op : Nat) : Word :=
  if op = 0x43 then 0xFFFFFFFC#32 else if op = 0x44 ∨ op = 0x46 then 0xFFFF0000#32 else 0xFFFFFFFF#32

/-- Every row matches its opcode with zeros elsewhere, under the mask of its opcode (R100). -/
theorem bits_of_mem_opcodeTable :
    ∀ r ∈ opcodeTable, r.op < 256 ∧ r.matchBits = header r.op 0 ∧ r.mask = maskOf r.op := by decide

/-- Every row's format has the length R106 gives its opcode. -/
theorem words_of_mem_opcodeTable : ∀ r ∈ opcodeTable, r.format.words = lengthOfOpcode r.op := by decide

/-- The rows of a port are those of the opcodes R102 spells out. -/
theorem exists_rowsOf_iff {p : Port} {op : Nat} : (∃ r ∈ rowsOf p, r.op = op) ↔ listedOpcode p op := by
  cases p <;> simp [rowsOf, dlRows, combRows, apRows, engRows, listedOpcode] <;> omega

section

variable {p : Port} {h : Word} {ops : List Word}

/-- A listed opcode has its row. -/
theorem listedRow_of_listed (hl : listedOpcode p (opField h)) :
    ∃ r ∈ opcodeTable, r.op = opField h ∧ listedRow p h = some r := by
  obtain ⟨r, hr⟩ := Option.isSome_iff_exists.1 (listedRow_isSome.2 (exists_rowsOf_iff.2 hl))
  obtain ⟨hmem, -, hop⟩ := listedRow_some hr
  exact ⟨r, hmem, hop, hr⟩

/-- An unlisted opcode has none. -/
theorem listedRow_of_unlisted (hl : ¬ listedOpcode p (opField h)) : listedRow p h = none := by
  rwa [← exists_rowsOf_iff, ← listedRow_isSome, Bool.not_eq_true, Option.isSome_eq_false_iff, Option.isNone_iff_eq_none] at hl

/-! ### Lengths -/

/-- A listed opcode has the length R106 gives it, whatever the other bits. -/
theorem commandWords_of_listed (hl : listedOpcode p (opField h)) : commandWords p h = lengthOfOpcode (opField h) := by
  obtain ⟨r, hmem, hop, hrow⟩ := listedRow_of_listed hl
  rw [commandWords, hrow, ← hop]
  exact words_of_mem_opcodeTable r hmem

/-- An unlisted opcode is one word (R106). -/
theorem commandWords_of_unlisted (hl : ¬ listedOpcode p (opField h)) : commandWords p h = 1 := by
  rw [commandWords, listedRow_of_unlisted hl]

/-! ### Verdicts -/

/-- A row accepts a header of its opcode exactly when no reserved field of it is set (R103). -/
theorem accepts_iff {r : Row} (hmem : r ∈ opcodeTable) (hop : r.op = opField h) :
    r.accepts h = true ↔ ¬ reservedNonzero h := by
  obtain ⟨hlt, hbits, hmask⟩ := bits_of_mem_opcodeTable r hmem
  obtain ⟨name, op, f, bits, mask, q⟩ := r
  dsimp only at hop hlt hbits hmask
  subst hbits hmask hop
  unfold maskOf reservedNonzero
  split
  · rw [accepts_preset _ _ hlt, decide_eq_true_iff]
    omega
  · split
    · rw [accepts_imm _ _ hlt, decide_eq_true_iff]
      omega
    · rw [accepts_full, decide_eq_true_iff, ← BitVec.toNat_inj, header_toNat h, header, BitVec.toNat_ofNat]
      have := immField_lt h
      omega

/-- The decoder's verdict on an unlisted opcode (R102). -/
theorem decode_of_unlisted (hl : ¬ listedOpcode p (opField h)) : decode p (h :: ops) = .error .illegalOpcode := by
  simp only [decode, listedRow_of_unlisted hl]

/-- The decoder's verdict on a listed opcode with a reserved field set (R103). -/
theorem decode_of_reserved (hl : listedOpcode p (opField h)) (hr : reservedNonzero h) :
    decode p (h :: ops) = .error .reservedFieldNonzero := by
  obtain ⟨r, hmem, hop, hrow⟩ := listedRow_of_listed hl
  have hacc : r.accepts h ≠ true := fun hacc => (accepts_iff hmem hop).1 hacc hr
  simp only [decode, hrow, if_neg hacc]

/-- What the decoder reads: no reserved field set, and the operands assembled by a row of the port (R102). -/
theorem of_decode_ok {i : Instr} (hd : decode p (h :: ops) = .ok i) :
    ∃ r ∈ opcodeTable, r.port = p ∧ r.op = opField h ∧ ¬ reservedNonzero h ∧ assemble r.op (immField h) ops = some i := by
  simp only [decode] at hd
  split at hd
  · cases hd
  · next r hrow =>
    obtain ⟨hmem, hport, hop⟩ := listedRow_some hrow
    split at hd
    · next hacc =>
      refine ⟨r, hmem, hport, hop, (accepts_iff hmem hop).1 hacc, ?_⟩
      split at hd <;> cases hd
      assumption
    · cases hd

end

namespace Machine

/-- Settles O4: the two lengths of R106. -/
theorem commandLengthIsThatOfTheOpcode : Obligations.CommandLengthIsThatOfTheOpcode := fun _ _ =>
  ⟨commandWords_of_listed, commandWords_of_unlisted⟩

/-- Whole words at the head of the queue that decode to no command are refused, and the discard takes them all (R106). -/
theorem refused_head {s : State} {p : Port} {h : Word} {ops : List Word} {rest : List (Port × Word)} {e : DecodeError}
    (hinbox : s.inbox = (h :: ops).map (fun w => (p, w)) ++ rest) (hwhole : commandWords p h = ops.length + 1)
    (hd : decode p (h :: ops) = .error e) :
    step s = .refused (refusalOf e) ∧ s.discard = { s with inbox := rest } := by
  obtain ⟨hnext, hrest⟩ := nextCommand_head rest hwhole
  rw [← hinbox] at hnext hrest
  refine ⟨step_error hnext hd, ?_⟩
  rw [State.discard_eq hnext, hrest]
  rfl

/-- Settles O5: the header is a whole command of one word, and the decoder's verdict is `IllegalOpcode`. -/
theorem unlistedOpcodeIsRefusedAndDiscarded : Obligations.UnlistedOpcodeIsRefusedAndDiscarded :=
  fun _ _ _ _ hinbox hl => refused_head (ops := []) hinbox (commandWords_of_unlisted hl) (decode_of_unlisted hl)

/-- Settles O6: the header and its operand words are a whole command, and the decoder's verdict is `ReservedFieldNonzero`. -/
theorem reservedFieldIsRefusedAndDiscarded : Obligations.ReservedFieldIsRefusedAndDiscarded :=
  fun _ _ _ _ _ hinbox hl hlength hr =>
    refused_head hinbox ((commandWords_of_listed hl).trans hlength.symm) (decode_of_reserved hl hr)

end Machine

end Sys2Proof
end

section
/-! ## The two round trips (spec/30_encoding.md rules R91 to R100, R113) -/

namespace Sys2Proof

open Machine

/-- The bits of `imm16` that a command of the opcode carries an operand in (R97, R98, R99). -/
def operandImm (op imm : Nat) : Nat := if op = 0x43 then imm % 4 else if op = 0x44 ∨ op = 0x46 then imm else 0

/-- A preset's index is the two bits that name it (R90, R97). -/
theorem index_ofIndex (k : Nat) : (Preset.ofIndex k).index = k % 4 := by
  have hlt : k % 4 < 4 := Nat.mod_lt k (by decide)
  unfold Preset.ofIndex
  generalize k % 4 = m at hlt ⊢
  interval_cases m <;> rfl

/-- An unsigned operand word fits its field (R96). -/
theorem fitsNat32_toNat (w : Word) : fitsNat32 w.toNat = true := decide_eq_true w.isLt

/-- With no reserved field set, a header is its opcode and the operand in its `imm16` (R91, R103). -/
theorem header_operandImm {h : Word} (hr : ¬ reservedNonzero h) :
    header (opField h) (operandImm (opField h) (immField h)) = h := by
  unfold reservedNonzero at hr
  have himm : operandImm (opField h) (immField h) = immField h := by
    unfold operandImm
    split
    · omega
    · split <;> omega
  rw [himm]
  exact header_of_fields (by omega)

/-- A row assembles the number of operand words of its format, into a command of its port whose operands fit the fields they
are read from and which the encoder writes as the same words (R94 to R100). -/
theorem of_assemble {r : Row} (hmem : r ∈ opcodeTable) {imm : Nat} (himm : imm < 65536) {ops : List Word} {i : Instr}
    (h : assemble r.op imm ops = some i) :
    i.port = r.port ∧ i.wellFormed = true ∧ encode i = header r.op (operandImm r.op imm) :: ops := by
  fin_cases hmem
  all_goals
    -- The opcode being known, any other number of operand words assembles to nothing.
    rcases ops with _ | ⟨w1, _ | ⟨w2, _ | ⟨w3, _ | ⟨w4, ws⟩⟩⟩⟩ <;> cases h
    refine ⟨rfl, ?_, ?_⟩
    · simp [Instr.wellFormed, fitsInt32_toInt, fitsNat32_toNat, fitsImm16, himm]
    · simp [encode, operandImm, index_ofIndex, dwordLow_append, dwordHigh_append]

namespace Machine

/-- Settles O1: a row of the table reads the words of the command as that command. -/
theorem decodeOfEncodeIsIdentity : Obligations.DecodeOfEncodeIsIdentity := by
  intro i hwf
  obtain ⟨h, ops, r, hwords, hreads⟩ := reads_encode hwf
  rw [hwords]
  exact hreads.decode_eq

/-- Settles O2: no reserved field is set, so the header is its opcode and its operand, and the operand words are kept whole. -/
theorem encodeOfDecodeIsIdentity : Obligations.EncodeOfDecodeIsIdentity := by
  intro p ws i hd
  cases ws with
  | nil => cases hd
  | cons h ops =>
    obtain ⟨r, hmem, hport, hop, hreserved, ha⟩ := of_decode_ok hd
    obtain ⟨hiport, hwf, hwords⟩ := of_assemble hmem (immField_lt h) ha
    refine ⟨hiport.trans hport, hwf, ?_⟩
    rw [hwords, hop, header_operandImm hreserved]

/-- Settles O3: the decoder, evaluated on each example of R113. -/
theorem exampleWordsDecode : Obligations.ExampleWordsDecode :=
  ⟨rfl, rfl, rfl, rfl, rfl, rfl, rfl, rfl, rfl, rfl, rfl⟩

end Machine

end Sys2Proof
end

section
/-! ## What a command leaves alone and what it answers (spec/30_encoding.md rules R93, R101, spec/20_memory.md rule R68) -/

namespace Sys2Proof.Machine

section

variable (s : State) {i : Instr}

/-! ### Units of another port class -/

/-- Only Delay Line commands touch the standalone Delay Line. -/
theorem commandEffect_dl (hi : i.port ≠ .dl) : (commandEffect s i).dl = s.dl := by
  cases i with
  | dlConfigure | dlSetDelay | dlClear | dlTick => exact absurd rfl hi
  | _ => rfl

/-- Only Comb Filter commands touch the standalone Comb Filter. -/
theorem commandEffect_comb (hi : i.port ≠ .comb) : (commandEffect s i).comb = s.comb := by
  cases i with
  | combConfigure | combSetDelay | combClear | combProcess | combSetFb | combSetDamp => exact absurd rfl hi
  | _ => rfl

/-- Only All-Pass Filter commands touch the standalone All-Pass Filter. -/
theorem commandEffect_ap (hi : i.port ≠ .ap) : (commandEffect s i).ap = s.ap := by
  cases i with
  | apConfigure | apSetDelay | apClear | apProcess | apSetCoef => exact absurd rfl hi
  | _ => rfl

/-- Only engine commands touch the engine. -/
theorem commandEffect_eng (hi : i.port ≠ .eng) : (commandEffect s i).eng = s.eng := by
  cases i with
  | engConfigure | engSetDome | engSetPreset | engProcess | engClear | engGetParam => exact absurd rfl hi
  | _ => rfl

/-- Only `ENG.PROCESS` touches the host buffer. -/
theorem commandEffect_hb (hi : ∀ ch ns, i ≠ .engProcess ch ns) : (commandEffect s i).hb = s.hb := by
  cases i with
  | engProcess ch ns => exact absurd rfl (hi ch ns)
  | _ => rfl

/-- No command changes the configuration, the attached biquad or the words waiting. -/
theorem commandEffect_cfg_biquad_inbox (i : Instr) :
    (commandEffect s i).cfg = s.cfg ∧ (commandEffect s i).biquad = s.biquad ∧ (commandEffect s i).inbox = s.inbox := by
  cases i <;> exact ⟨rfl, rfl, rfl⟩

end

/-- Settles O53: one rule per unit, read off the command's effect. -/
theorem commandsReachOnlyTheirUnit : Obligations.CommandsReachOnlyTheirUnit := by
  intro i s t h
  obtain ⟨-, rfl⟩ := exec_next_iff.1 h
  obtain ⟨hcfg, hbiquad, hinbox⟩ := commandEffect_cfg_biquad_inbox s i
  exact ⟨hcfg, hbiquad, hinbox, commandEffect_dl s, commandEffect_comb s, commandEffect_ap s, commandEffect_eng s,
    commandEffect_hb s⟩

/-! ### Answers -/

/-- `ENG.GETPARAM` answers the register's word when its check passes (R93, R184). -/
theorem commandEffect_engGetParam_responses {s : State} {r : Nat} (hc : commandCheck s (.engGetParam r) = none) :
    ∃ w, (commandEffect s (.engGetParam r)).responses = s.responses ++ [(.eng, .word w)] := by
  simp only [commandCheck, commandEffect] at hc ⊢
  cases hread : readParam Num.b32 s.eng r with
  | error reason => rw [hread] at hc; cases hc
  | ok answer =>
    obtain ⟨w, rfl⟩ := readParam_word hread
    exact ⟨w, rfl⟩

/-- Settles O54: the sample commands answer unconditionally, `ENG.GETPARAM` because its check has read the register, and no
other effect reaches the responses. -/
theorem responsesAreThoseOfTheSpec : Obligations.ResponsesAreThoseOfTheSpec := by
  intro i s t h
  obtain ⟨hcheck, rfl⟩ := exec_next_iff.1 h
  constructor
  · rintro (⟨x, rfl⟩ | ⟨x, rfl⟩ | ⟨x, rfl⟩ | ⟨r, rfl⟩)
    · exact ⟨_, rfl⟩
    · exact ⟨_, rfl⟩
    · exact ⟨_, rfl⟩
    · exact commandEffect_engGetParam_responses hcheck
  · intro hsilent
    cases i with
    | dlTick x => exact absurd (.inl ⟨x, rfl⟩) hsilent
    | combProcess x => exact absurd (.inr (.inl ⟨x, rfl⟩)) hsilent
    | apProcess x => exact absurd (.inr (.inr (.inl ⟨x, rfl⟩))) hsilent
    | engGetParam r => exact absurd (.inr (.inr (.inr ⟨r, rfl⟩))) hsilent
    | _ => rfl

end Sys2Proof.Machine
end

section
/-! ## The commands of a Delay Line, for each of its owners (spec/40_delay_line.md rules R124 to R126)

`CONFIGURE`, `SETDELAY` and `CLEAR` are one check and one new line; the owner only says where the line stands. -/

namespace Sys2Proof.Machine

/-- A command is refused exactly when its check fails, with the check's reason. -/
theorem exec_refused_iff {i : Instr} {s : State} {r : Refusal} : exec i s = .refused r ↔ commandCheck s i = some r := by
  rw [exec_eq_unlessRefused, unlessRefused_refused]

theorem checkBuffer_of_unconfigured {D : DelayLine Word} (h : D.cap = 0) : checkBuffer D = some .notConfigured := if_pos h

theorem checkReady_of_unconfigured {D : DelayLine Word} (h : D.cap = 0) : checkReady D = some .notConfigured := if_pos h

theorem checkReady_of_unset {D : DelayLine Word} (hc : D.cap ≠ 0) (hn : D.n = none) : checkReady D = some .delayUnset :=
  (if_neg hc).trans (if_pos hn)

/-- The test of R125 on the encoding is the one on the number. -/
theorem checkMaxDelay_eq (ms : Word) :
    checkMaxDelay ms = if F32.isFinite ms = true ∧ 0 < F32.toRat ms then none else some .badMaxDelay := by
  by_cases hfin : F32.isFinite ms = true
  · simp [checkMaxDelay, hfin, F32.toRat_pos_iff hfin]
  · simp [checkMaxDelay, hfin]

/-- The capacity R125 computes: `floor(maxDelayMs * sampleRate / 1000)`. -/
theorem unitCapacity_eq (sr : DWord) (ms : Word) :
    unitCapacity sr ms = (F32.toRat ms * F64.toRat sr / 1000).floor := rfl

/-- The checks of R125 in their order, once the rate is known to be good. -/
theorem checkConfigure_of_rate {maxCap : Nat} {sr : DWord} {ms : Word} (hsr : F64.isPositiveFinite sr = true) :
    checkConfigure maxCap sr ms = firstRefusal [checkMaxDelay ms, checkCapacity maxCap (unitCapacity sr ms)] := by
  rw [checkConfigure, checkRate_eq_none.2 hsr, firstRefusal_none]

/-- The capacity is checked last. -/
theorem checkConfigure_of_operands {maxCap : Nat} {sr : DWord} {ms : Word} (hsr : F64.isPositiveFinite sr = true)
    (hfin : F32.isFinite ms = true) (hpos : 0 < F32.toRat ms) :
    checkConfigure maxCap sr ms = checkCapacity maxCap (unitCapacity sr ms) := by
  rw [checkConfigure_of_rate hsr, checkMaxDelay_eq, if_pos ⟨hfin, hpos⟩, firstRefusal_none]
  cases checkCapacity maxCap (unitCapacity sr ms) <;> rfl

/-- A unit's `CONFIGURE` (R125), for any owner of the line. -/
theorem ConfiguresLine.of_checked (maxCap : Nat) (sr : DWord) (ms : Word) (put : DelayLine Word → State) :
    ConfiguresLine maxCap sr ms (unlessRefused (checkConfigure maxCap sr ms) (put (configureLine sr ms))) put := by
  refine ⟨fun hsr => ?rate, fun hsr hms => ?maxDelay, fun hsr hfin hpos => ?capacity⟩
  case rate => simp [checkConfigure, checkRate, hsr]
  case maxDelay =>
    have hbad : ¬(F32.isFinite ms = true ∧ 0 < F32.toRat ms) := by
      rintro ⟨hfin, hpos⟩
      rcases hms with h | h
      · rw [h] at hfin
        cases hfin
      · exact not_lt.2 h hpos
    rw [checkConfigure_of_rate hsr, checkMaxDelay_eq, if_neg hbad]
    rfl
  case capacity =>
    rw [checkConfigure_of_operands hsr hfin hpos, unitCapacity_eq]
    refine ⟨fun hsmall => ?_, fun hmin hlarge => ?_, fun hmin hmax => ?_⟩
    · rw [checkCapacity, if_pos hsmall, unlessRefused_some]
    · rw [checkCapacity, if_neg (not_lt.2 hmin), if_pos hlarge, unlessRefused_some]
    · rw [checkCapacity_eq_none.2 ⟨hmin, hmax⟩]
      exact ⟨_, rfl, Int.toNat_of_nonneg (zero_le_two.trans hmin), Memory.read_nil, rfl, rfl⟩

/-- `SETDELAY` (R124), for any owner of the line. -/
theorem SetsLength.of_checked (D : DelayLine Word) (n : Int) (put : DelayLine Word → State) :
    SetsLength D n (unlessRefused (checkBuffer D) (put (D.setLength n))) put := by
  constructor
  · intro hc
    rw [checkBuffer_of_unconfigured hc, unlessRefused_some]
  · intro hc
    rw [checkBuffer_eq_none.2 hc]
    rfl

/-- `CLEAR` (R126), for any owner of the line. -/
theorem ClearsLine.of_next (D : DelayLine Word) (put : DelayLine Word → State) :
    ClearsLine D (.next (put D.clear)) put :=
  ⟨[], rfl, Memory.read_nil⟩

/-- Settles O11: `DL.CONFIGURE` is the shared command, the standalone line its owner. -/
theorem dlConfigureSizesAndZeroesTheLine : Obligations.DlConfigureSizesAndZeroesTheLine := by
  intro sr ms s
  rw [exec_eq_unlessRefused]
  exact ConfiguresLine.of_checked s.cfg.maxCap sr ms s.withDl

/-- Settles O12: `DL.SETDELAY` is the shared command, the standalone line its owner. -/
theorem dlSetDelayClampsTheLength : Obligations.DlSetDelayClampsTheLength := by
  intro n s
  rw [exec_eq_unlessRefused]
  exact SetsLength.of_checked s.dl n s.withDl

/-- Settles O13: `DL.CLEAR` is the shared command, the standalone line its owner. -/
theorem dlClearZeroesTheBuffer : Obligations.DlClearZeroesTheBuffer := by
  intro s
  rw [exec_eq_unlessRefused]
  exact ClearsLine.of_next s.dl s.withDl

end Sys2Proof.Machine
end

section
/-! ## Samples through a Delay Line (spec/40_delay_line.md rules R121 to R129, spec/10_state.md rule R35) -/

namespace Sys2Proof.Machine

/-! ### One `DL.TICK` -/

/-- On a line with a length `DL.TICK` goes ahead (R127). -/
theorem exec_dlTick {s : State} (x : Word) (hc : s.dl.cap ≠ 0) (hn : s.dl.n ≠ none) :
    exec (.dlTick x) s = .next ((s.withDl (s.dl.tick Num.b32 x).1).answer .dl (s.dl.tick Num.b32 x).2) :=
  exec_next_iff.2 ⟨checkReady_eq_none.2 ⟨hc, hn⟩, rfl⟩

/-- On a line with a buffer `DL.SETDELAY` goes ahead (R124). -/
theorem exec_dlSetDelay {s : State} (n : Int) (hc : s.dl.cap ≠ 0) :
    exec (.dlSetDelay n) s = .next (s.withDl (s.dl.setLength n)) :=
  exec_next_iff.2 ⟨checkBuffer_eq_none.2 hc, rfl⟩

/-- Settles O14: the two refusals are `checkReady`'s; the effect is one memory write, one step of the cursor and the value
read before them. -/
theorem dlTickReadsThenWritesThenAdvances : Obligations.DlTickReadsThenWritesThenAdvances := by
  intro x s h
  refine ⟨fun hc => exec_refused_iff.2 (checkReady_of_unconfigured hc),
    fun hc hn => exec_refused_iff.2 (checkReady_of_unset hc hn), fun n hn => ?_⟩
  have hset : s.dl.n ≠ none := Option.ne_none_iff_exists'.2 ⟨n, hn⟩
  have hc : s.dl.cap ≠ 0 := h.cap_ne_zero hset
  have hle : n ≤ s.dl.cap := (h.length n hn).2.trans (Nat.sub_le _ _)
  have hread : s.dl.read Num.b32 = s.dl.buf.read 0#32 ((s.dl.w + s.dl.cap - n) % s.dl.cap) := by
    rw [DelayLine.read, DelayLine.readIndex_eq hn hle, b32_zero]
  refine ⟨_, exec_dlTick x hc hset, ?_, Memory.read_write_same h.canonical s.dl.w x,
    fun j hj => Memory.read_write_other h.canonical x hj, advance_eq (h.cursor hc), rfl⟩
  rw [← hread]
  rfl

/-! ### What the buffer holds after a run -/

/-- The sample a `DL.TICK` stores. -/
def Instr.tickedSample : Instr → Option Word
  | .dlTick x => some x
  | _ => none

/-- A line with no sample stored since it was cleared, and a length set, holds the empty history (R35). -/
theorem LineInv.holds_nil {maxCap : Nat} {D : DelayLine Word} (h : LineInv maxCap D) (hb : D.buf = []) (hn : D.n ≠ none) :
    D.Holds Num.b32 [] :=
  .of_empty (h.cursor (h.cap_ne_zero hn)) hb

/-- Ticks put their samples before the history, latest first; `DL.SETDELAY` leaves it as it is. -/
theorem execList_holds (cmds : List Instr) {s : State} {vs : List Word} (hs : s.dl.Holds Num.b32 vs) (hn : s.dl.n ≠ none)
    (hcmds : ∀ i ∈ cmds, (∃ x, i = .dlTick x) ∨ ∃ n, i = .dlSetDelay n) :
    ∃ t, execList cmds s = .next t ∧
      t.dl.Holds Num.b32 ((cmds.filterMap Instr.tickedSample).reverse ++ vs) := by
  induction cmds generalizing s vs with
  | nil => exact ⟨s, rfl, hs⟩
  | cons i cmds ih =>
    obtain ⟨hi, hrest⟩ := List.forall_mem_cons.1 hcmds
    have hc : s.dl.cap ≠ 0 := Nat.ne_zero_of_lt hs.1
    rcases hi with ⟨x, rfl⟩ | ⟨n, rfl⟩
    · have hstored := hs.write_advance x
      obtain ⟨t, ht, hheld⟩ :=
        ih (s := (s.withDl (s.dl.tick Num.b32 x).1).answer .dl (s.dl.tick Num.b32 x).2) hstored hn hrest
      refine ⟨t, by rw [execList, exec_dlTick x hc hn]; exact ht, ?_⟩
      simpa [Instr.tickedSample] using hheld
    · have hkept : (s.dl.setLength n).Holds Num.b32 vs := hs.congr rfl rfl rfl
      obtain ⟨t, ht, hheld⟩ := ih (s := s.withDl (s.dl.setLength n)) hkept nofun hrest
      exact ⟨t, by rw [execList, exec_dlSetDelay n hc]; exact ht, hheld⟩

/-- Settles O15: the run starts from the empty history, and each tick stores one value in front of it. -/
theorem bufferHoldsTheLatestWrites : Obligations.BufferHoldsTheLatestWrites := by
  rintro s cmds h hb ⟨n, hn⟩ hcmds
  have hset : s.dl.n ≠ none := Option.ne_none_iff_exists'.2 ⟨n, hn⟩
  obtain ⟨t, ht, -, -, hheld⟩ := execList_holds cmds (h.holds_nil hb hset) hset hcmds
  rw [List.append_nil] at hheld
  exact ⟨t, ht, hheld⟩

/-! ### What a run of ticks answers -/

/-- A zero buffer holds any number of zeros. -/
theorem DelayLine.Holds.replicate {S : Type} {N : Num S} {D : DelayLine S} (h : D.Holds N []) (n : Nat) :
    D.Holds N (List.replicate n N.zero) := by
  obtain ⟨hw, hwf, hzero⟩ := h
  exact ⟨hw, hwf, fun k h1 h2 => (hzero k h1 h2).trans (by simp [List.getD_eq_getElem?_getD])⟩

section

variable {S : Type} [DecidableEq S] {N : Num S}

/-- A tick leaves the line written and advanced (R127). -/
theorem DelayLine.tick_fst (D : DelayLine S) (x : S) : (D.tick N x).1 = (D.write N x).advance := rfl

/-- A line whose length is that of `window`, the latest values it stored, oldest first, answers them and then the inputs. -/
theorem DelayLine.Holds.runUnit_tick {D : DelayLine S} {window older : List S} (xs : List S)
    (hD : D.Holds N (window.reverse ++ older)) (hn : D.n = some window.length) (h1 : 1 ≤ window.length)
    (h2 : window.length ≤ D.cap - 1) : (runUnit (DelayLine.tick N) D xs).2 = (window ++ xs).take xs.length := by
  induction xs generalizing D window older with
  | nil => rfl
  | cons x xs ih =>
    obtain ⟨oldest, window, rfl⟩ := List.exists_cons_of_length_pos h1
    have hread : D.read N = oldest := by
      rw [hD.read hn h1 h2]
      simp [List.getD_eq_getElem?_getD]
    have hD' : (D.tick N x).1.Holds N ((window ++ [x]).reverse ++ oldest :: older) := by
      simpa [DelayLine.tick_fst] using hD.write_advance x
    have hlength : (window ++ [x]).length = (oldest :: window).length := by simp
    have hrest := ih hD' (hn.trans (congrArg some hlength.symm)) (hlength ▸ h1) (hlength ▸ h2)
    calc (runUnit (DelayLine.tick N) D (x :: xs)).2
        = D.read N :: (runUnit (DelayLine.tick N) (D.tick N x).1 xs).2 := rfl
      _ = oldest :: (window ++ [x] ++ xs).take xs.length := by rw [hread, hrest]
      _ = (oldest :: window ++ x :: xs).take (x :: xs).length := by simp

end

/-- A run of `DL.TICK` commands answers what the line does with their samples, one after the other (R127). -/
theorem execList_dlTick (xs : List Word) {s : State} (hc : s.dl.cap ≠ 0) (hn : s.dl.n ≠ none) :
    ∃ t, execList (xs.map .dlTick) s = .next t ∧
      t.responses = s.responses ++ (runUnit (DelayLine.tick Num.b32) s.dl xs).2.map fun y => (.dl, .word y) := by
  induction xs generalizing s with
  | nil => exact ⟨s, rfl, (List.append_nil _).symm⟩
  | cons x xs ih =>
    obtain ⟨t, ht, hanswers⟩ := ih (s := (s.withDl (s.dl.tick Num.b32 x).1).answer .dl (s.dl.tick Num.b32 x).2) hc hn
    refine ⟨t, by rw [List.map_cons, execList, exec_dlTick x hc hn]; exact ht, ?_⟩
    simpa [runUnit] using hanswers

/-- Settles O16: a cleared line of length `n` holds a window of `n` zeros. -/
theorem cleanLineDelaysByItsLength : Obligations.CleanLineDelaysByItsLength := by
  intro s n xs h hb hn
  have hset : s.dl.n ≠ none := Option.ne_none_iff_exists'.2 ⟨n, hn⟩
  obtain ⟨h1, h2⟩ := h.length n hn
  have hzeros : s.dl.Holds Num.b32 ((List.replicate n 0#32).reverse ++ []) := by
    simpa using (h.holds_nil hb hset).replicate n
  have hrun := hzeros.runUnit_tick xs (by simpa using hn) (by simpa using h1) (by simpa using h2)
  rw [← hrun]
  exact execList_dlTick xs (h.cap_ne_zero hset) hset

end Sys2Proof.Machine
end

section
/-! ## Capacities (spec/40_delay_line.md rule R130) -/

namespace Sys2Proof.Machine

/-- `map_apply` changes no line but for its length (R130, R238). -/
theorem Engine.mapApply_lines_memory (p : BqProcess Word) (cfg : Params Word) (e : Engine32) :
    (e.mapApply Num.b32 (.ofProcess p) cfg).lines.map (·.memory) = e.lines.map (·.memory) := by
  refine Engine.map_lines_congr (fun c k => ?_) (fun c j => ?_) fun c => ?_
  · rw [Engine.mapApply_comb]
  · rw [Engine.mapApply_ap]
  · obtain ⟨hcap, hbuf, hw⟩ := Engine.mapApply_pre p cfg e c
    simp only [DelayLine.memory, hcap, hbuf, hw]

/-- `map_apply` changes no capacity. -/
theorem Engine.mapApply_capacities (p : BqProcess Word) (cfg : Params Word) (e : Engine32) :
    (e.mapApply Num.b32 (.ofProcess p) cfg).lines.map (·.cap) = e.lines.map (·.cap) := by
  simpa [DelayLine.memory, Function.comp_def] using congrArg (List.map (·.cap)) (Engine.mapApply_lines_memory p cfg e)

/-- Settles O49: a standalone capacity is read off the command's effect; in the engine the parameter commands end in
`map_apply`, and a block and `ENG.CLEAR` keep every setting. -/
theorem onlyConfigureChangesCapacities : Obligations.OnlyConfigureChangesCapacities := by
  intro i s t hi h
  obtain ⟨-, rfl⟩ := exec_next_iff.1 h
  refine ⟨?dl, ?comb, ?ap, ?eng⟩
  case dl =>
    cases i with
    | dlConfigure sr ms => cases hi
    | _ => rfl
  case comb =>
    cases i with
    | combConfigure sr ms => cases hi
    | _ => rfl
  case ap =>
    cases i with
    | apConfigure sr ms => cases hi
    | _ => rfl
  case eng =>
    cases i with
    | engConfigure sr hint => cases hi
    | engSetDome a => exact Engine.mapApply_capacities _ s.cfg _
    | engSetPreset id => exact Engine.mapApply_capacities _ s.cfg _
    | engProcess ch ns => exact Engine.capacities_of_settings (Engine.processFrom_settings _ ch ns ns 0 s.eng s.hb)
    | engClear => exact Engine.capacities_of_settings (Engine.clear_settings _ s.eng)
    | _ => rfl

end Sys2Proof.Machine
end

section
/-! ## The Comb Filter's commands (spec/41_comb_filter.md rules R141 to R148)

The commands of the embedded line are the shared ones, with the comb as owner. The two coefficient setters are one command
with two bounds. `COMB.PROCESS` is one line of binary32 arithmetic between a read and a write. -/

namespace Sys2Proof.Machine

/-- Settles O18: the three commands are the shared ones, the comb the line's owner; two of them put 0 in `filterStore`. -/
theorem combForwardsToItsLine : Obligations.CombForwardsToItsLine := by
  intro s
  simp only [exec_eq_unlessRefused]
  exact ⟨fun sr ms => ConfiguresLine.of_checked s.cfg.maxCap sr ms fun D =>
      s.withComb { s.comb with dl := D, filterStore := 0#32 },
    fun n => SetsLength.of_checked s.comb.dl n fun D => s.withComb { s.comb with dl := D },
    ClearsLine.of_next s.comb.dl fun D => s.withComb { s.comb with dl := D, filterStore := 0#32 }⟩

/-! ### Coefficient setters -/

/-- What a clamp into [0, `hi`] answers (R12, R278): a zero from below, the bound from above, and the operand in between, but
for the sign of a zero (U9). -/
def ClampsIntoZeroTo (hi v result : Word) : Prop :=
  (F32.lt v 0#32 = true → F32.isZero result = true) ∧
    (F32.lt hi v = true → result = hi) ∧
    (F32.le 0#32 v = true → F32.le v hi = true → result = v ∨ F32.isZero v = true ∧ F32.isZero result = true)

/-- What a coefficient setter with range [0, `hi`] does (R143, R144, R279): it refuses a NaN, and puts the clamped operand in
its register. -/
def SetsClamped (hi v : Word) (r : Result) (put : Word → State) : Prop :=
  (F32.isNaN v = true → r = .refused .nanOperand) ∧
    (F32.isNaN v = false → ∃ result, r = .next (put result) ∧ ClampsIntoZeroTo hi v result)

/-- The clamp of `NUM_B32` between 0 and a bound that is not below it. -/
theorem F32.clamp_zero_to {hi v : Word} (hv : F32.isNaN v = false) (hhi : F32.le 0#32 hi = true) :
    ClampsIntoZeroTo hi v (F32.clamp v 0#32 hi) := by
  refine ⟨fun hbelow => ?below, fun habove => ?above, F32.clamp_of_inRange⟩
  case below =>
    rw [F32.clamp, if_neg (by simp [hv]), if_pos hbelow, if_pos (by decide)]
    exact F32.isZero_pack_zero _
  case above =>
    have hnot : ¬F32.lt v 0#32 = true := by
      intro hbelow
      obtain ⟨-, -, h1⟩ := F32.lt_iff.1 hbelow
      obtain ⟨-, -, h2⟩ := F32.lt_iff.1 habove
      obtain ⟨-, -, h3⟩ := F32.le_iff.1 hhi
      omega
    rw [F32.clamp, if_neg (by simp [hv]), if_neg hnot, if_pos habove]

/-- A coefficient setter, for any register it sets. -/
theorem SetsClamped.of_checked {hi : Word} (v : Word) (put : Word → State) (hhi : F32.le 0#32 hi = true) :
    SetsClamped hi v (unlessRefused (checkNotNaN v) (put (F32.clamp v 0#32 hi))) put := by
  constructor
  · intro hv
    rw [checkNotNaN, if_pos hv, unlessRefused_some]
  · intro hv
    rw [checkNotNaN_eq_none.2 hv]
    exact ⟨_, rfl, F32.clamp_zero_to hv hhi⟩

theorem clampFb_b32 (f : Word) : clampFb Num.b32 f = F32.clamp f 0#32 0x3F7D70A4#32 := by
  have hbound : F32.ofRat 0.99 = 0x3F7D70A4#32 := by decide +kernel
  rw [clampFb, b32_ofDecimal_zero, b32_clamp, b32_ofDecimal, hbound]

theorem b32_ofDecimal_one : Num.b32.ofDecimal 1 = 0x3F800000#32 := by decide +kernel

theorem clampDamp_b32 (d : Word) : clampDamp Num.b32 d = F32.clamp d 0#32 0x3F800000#32 := by
  rw [clampDamp, b32_ofDecimal_zero, b32_ofDecimal_one, b32_clamp]

/-- Settles O19: `COMB.SETFB` is a coefficient setter with the bound 0.99. -/
theorem combSetFbClamps : Obligations.CombSetFbClamps := by
  intro f s
  rw [exec_eq_unlessRefused, commandEffect, clampFb_b32]
  exact SetsClamped.of_checked f (fun v => s.withComb { s.comb with fb := v }) (by decide)

/-- Settles O20: `COMB.SETDAMP` is a coefficient setter with the bound 1. -/
theorem combSetDampClamps : Obligations.CombSetDampClamps := by
  intro d s
  rw [exec_eq_unlessRefused, commandEffect, clampDamp_b32]
  exact SetsClamped.of_checked d (fun v => s.withComb { s.comb with damp := v }) (by decide)

/-! ### One sample -/

/-- The cell a line reads, with its length set (R121). -/
theorem LineInv.read_eq {maxCap n : Nat} {D : DelayLine Word} (h : LineInv maxCap D) (hn : D.n = some n) :
    D.read Num.b32 = D.buf.read 0#32 ((D.w + D.cap - n) % D.cap) := by
  have hle : n ≤ D.cap := (h.length n hn).2.trans (Nat.sub_le _ _)
  rw [DelayLine.read, DelayLine.readIndex_eq hn hle, b32_zero]

/-- The damping of R145 in binary32, one rounding for each operator. -/
theorem Comb.nextStore_b32 (c : Comb Word) (delayed : Word) :
    c.nextStore Num.b32 delayed =
      F32.add (F32.mul delayed (F32.sub 0x3F800000#32 c.damp)) (F32.mul c.filterStore c.damp) := by
  rw [Comb.nextStore, b32_ofDecimal_one, b32_add, b32_mul, b32_mul, b32_sub]

/-- Settles O21: the two refusals are `checkReady`'s; the effect is the damping of the value read, one memory write and one
step of the cursor. -/
theorem combProcessFollowsItsSteps : Obligations.CombProcessFollowsItsSteps := by
  intro x s h
  refine ⟨fun hc => exec_refused_iff.2 (checkReady_of_unconfigured hc),
    fun hc hn => exec_refused_iff.2 (checkReady_of_unset hc hn), fun n hn => ?_⟩
  have hset : s.comb.dl.n ≠ none := Option.ne_none_iff_exists'.2 ⟨n, hn⟩
  have hc : s.comb.dl.cap ≠ 0 := h.cap_ne_zero hset
  have hrun : exec (.combProcess x) s = .next (commandEffect s (.combProcess x)) :=
    exec_next_iff.2 ⟨checkReady_eq_none.2 ⟨hc, hset⟩, rfl⟩
  simp only [← h.read_eq hn, ← Comb.nextStore_b32]
  exact ⟨_, hrun, rfl, rfl, Memory.read_write_same h.canonical _ _,
    fun j hj => Memory.read_write_other h.canonical _ hj, advance_eq (h.cursor hc), rfl⟩

/-- Settles O22: one of the two coefficients is exactly 1, the other a zero, whose product is a zero. -/
theorem combDampingEndPoints : Obligations.CombDampingEndPoints := by
  intro c delayed hdelayed hstore
  rw [Comb.nextStore_b32]
  constructor
  · intro hdamp hnonzero
    have hunit : F32.sub 0x3F800000#32 0#32 = 0x3F800000#32 := by decide +kernel
    rw [hdamp, hunit, F32.mul_unit hdelayed]
    exact F32.add_isZero hdelayed (F32.isZero_mul hstore (by decide)) hnonzero
  · intro hdamp hnonzero
    have hzero : F32.isZero (F32.sub 0x3F800000#32 0x3F800000#32) = true := by decide +kernel
    rw [hdamp, F32.mul_unit hstore]
    exact F32.isZero_add_left hstore (F32.isZero_mul hdelayed hzero) hnonzero

end Sys2Proof.Machine
end

section
/-! ## Stability of a comb under exact arithmetic (spec/41_comb_filter.md rule R149)

With `B = X / (1 − fb)`, everything a comb holds stays within `B`: the damping is a convex combination of two held values,
and `X + B · fb = B` bounds the value stored. -/

namespace Sys2Proof.Machine

/-- What holds of a unit and is kept by every input of a class gives what every output has. -/
theorem runUnit_outputs {σ α β : Type} {f : σ → α → σ × β} {Kept : σ → Prop} {Input : α → Prop} {Output : β → Prop}
    (hstep : ∀ u x, Kept u → Input x → Kept (f u x).1 ∧ Output (f u x).2) (xs : List α) {u : σ} (hu : Kept u)
    (hxs : ∀ x ∈ xs, Input x) : ∀ y ∈ (runUnit f u xs).2, Output y := by
  induction xs generalizing u with
  | nil => nofun
  | cons x xs ih =>
    obtain ⟨hx, hrest⟩ := List.forall_mem_cons.1 hxs
    obtain ⟨hu', hy⟩ := hstep u x hu hx
    exact List.forall_mem_cons.2 ⟨hy, ih hu' hrest⟩

/-- Every listed sample is within `B`. -/
def Memory.Bounded (B : Rat) (m : Memory Rat) : Prop := ∀ p ∈ m, |p.2| ≤ B

theorem Memory.Bounded.read {B : Rat} {m : Memory Rat} (h : m.Bounded B) (hB : 0 ≤ B) (i : Nat) : |m.read 0 i| ≤ B := by
  induction m with
  | nil => simpa using hB
  | cons c m ih =>
    obtain ⟨hc, hm⟩ := List.forall_mem_cons.1 h
    rw [Memory.read]
    split
    · exact hc
    · exact ih hm

theorem Memory.Bounded.write {B v : Rat} {m : Memory Rat} (h : m.Bounded B) (hv : |v| ≤ B) (i : Nat) :
    (m.write 0 i v).Bounded B := by
  intro p hp
  rcases Memory.mem_write hp with ⟨rfl, -⟩ | hp
  · exact hv
  · exact h p hp

/-- A comb whose memories are within `B`, with the coefficients of R149. -/
structure Comb.Bounded (fb B : Rat) (c : Comb Rat) : Prop where
  feedback : c.fb = fb
  damp_nonneg : 0 ≤ c.damp
  damp_le_one : c.damp ≤ 1
  buffer : c.dl.buf.Bounded B
  store : |c.filterStore| ≤ B

/-- The damping of R145 is a convex combination. -/
theorem Comb.Bounded.nextStore {fb B delayed : Rat} {c : Comb Rat} (h : c.Bounded fb B) (hd : |delayed| ≤ B) :
    |c.nextStore Num.ideal delayed| ≤ B := by
  have hrest : 0 ≤ 1 - c.damp := sub_nonneg.2 h.damp_le_one
  calc |delayed * (1 - c.damp) + c.filterStore * c.damp|
      ≤ |delayed * (1 - c.damp)| + |c.filterStore * c.damp| := abs_add_le _ _
    _ = |delayed| * (1 - c.damp) + |c.filterStore| * c.damp := by
        rw [abs_mul, abs_mul, abs_of_nonneg hrest, abs_of_nonneg h.damp_nonneg]
    _ ≤ B * (1 - c.damp) + B * c.damp :=
        add_le_add (mul_le_mul_of_nonneg_right hd hrest) (mul_le_mul_of_nonneg_right h.store h.damp_nonneg)
    _ = B := by ring

/-- A sample within `X` keeps a comb within any `B` with `X + B · fb ≤ B`, and its answer is within `B`. -/
theorem Comb.Bounded.process {fb B X x : Rat} {c : Comb Rat} (h : c.Bounded fb B) (hfb : 0 ≤ fb) (hB : 0 ≤ B)
    (hXB : X + B * fb ≤ B) (hx : |x| ≤ X) :
    (c.process Num.ideal x).1.Bounded fb B ∧ |(c.process Num.ideal x).2| ≤ B := by
  have hread : |c.dl.read Num.ideal| ≤ B := h.buffer.read hB _
  have hstore := h.nextStore hread
  have hstored : |c.stored Num.ideal x| ≤ B :=
    calc |x + c.nextStore Num.ideal (c.dl.read Num.ideal) * c.fb|
        ≤ |x| + |c.nextStore Num.ideal (c.dl.read Num.ideal) * c.fb| := abs_add_le _ _
      _ = |x| + |c.nextStore Num.ideal (c.dl.read Num.ideal)| * fb := by rw [h.feedback, abs_mul, abs_of_nonneg hfb]
      _ ≤ X + B * fb := add_le_add hx (mul_le_mul_of_nonneg_right hstore hfb)
      _ ≤ B := hXB
  exact ⟨⟨h.feedback, h.damp_nonneg, h.damp_le_one, h.buffer.write hstored c.dl.w, hstore⟩, hread⟩

/-- Settles O23: cleared memories are within `X / (1 − fb)`, and every sample keeps them there. -/
theorem idealCombIsBounded : Obligations.IdealCombIsBounded := by
  intro c n X xs _ _ _ _ _ hbuf hstore hfb hfb1 hdamp hdamp1 hxs y hy
  have hgap : 0 < 1 - c.fb := sub_pos.2 hfb1
  obtain ⟨x, hx⟩ : ∃ x, x ∈ xs := by
    cases xs with
    | nil => cases hy
    | cons x xs => exact ⟨x, List.mem_cons_self⟩
  have hX : 0 ≤ X := (abs_nonneg x).trans (hxs x hx)
  have hB : 0 ≤ X / (1 - c.fb) := div_nonneg hX hgap.le
  have hXB : X + X / (1 - c.fb) * c.fb = X / (1 - c.fb) := by field_simp; ring
  have hclear : c.Bounded c.fb (X / (1 - c.fb)) :=
    ⟨rfl, hdamp, hdamp1, by rw [hbuf]; nofun, by rw [hstore]; simpa using hB⟩
  exact runUnit_outputs (Output := fun y => |y| ≤ X / (1 - c.fb)) (fun _ _ hkept hin => hkept.process hfb hB hXB.le hin)
    xs hclear hxs y hy

end Sys2Proof.Machine
end

section
/-! ## The All-Pass Filter's commands (spec/42_allpass_filter.md rules R161 to R165)

The commands of the embedded line are the shared ones, with the all-pass as owner, and `AP.SETCOEF` is the shared coefficient
setter. `AP.PROCESS` is binary32 arithmetic on the value read, between the read and the write. -/

namespace Sys2Proof.Machine

/-- Settles O24: the three commands are the shared ones, the all-pass the line's owner. -/
theorem allPassForwardsToItsLine : Obligations.AllPassForwardsToItsLine := by
  intro s
  simp only [exec_eq_unlessRefused]
  exact ⟨fun sr ms => ConfiguresLine.of_checked s.cfg.maxCap sr ms fun D => s.withAp { s.ap with dl := D },
    fun n => SetsLength.of_checked s.ap.dl n fun D => s.withAp { s.ap with dl := D },
    ClearsLine.of_next s.ap.dl fun D => s.withAp { s.ap with dl := D }⟩

theorem clampCoef_b32 (c : Word) : clampCoef Num.b32 c = F32.clamp c 0#32 0x3F666666#32 := by
  have hbound : F32.ofRat 0.9 = 0x3F666666#32 := by decide +kernel
  rw [clampCoef, b32_ofDecimal_zero, b32_clamp, b32_ofDecimal, hbound]

/-- Settles O25: `AP.SETCOEF` is a coefficient setter with the bound 0.9. -/
theorem allPassSetCoefClamps : Obligations.AllPassSetCoefClamps := by
  intro c s
  rw [exec_eq_unlessRefused, commandEffect, clampCoef_b32]
  exact SetsClamped.of_checked c (fun v => s.withAp { s.ap with g := v }) (by decide)

/-- Settles O26: the two refusals are `checkReady`'s; the value read feeds both the answer and the one memory write, and the
cursor makes one step. -/
theorem allPassProcessFollowsItsSteps : Obligations.AllPassProcessFollowsItsSteps := by
  intro x s h
  refine ⟨fun hc => exec_refused_iff.2 (checkReady_of_unconfigured hc),
    fun hc hn => exec_refused_iff.2 (checkReady_of_unset hc hn), fun n hn => ?_⟩
  have hset : s.ap.dl.n ≠ none := Option.ne_none_iff_exists'.2 ⟨n, hn⟩
  have hc : s.ap.dl.cap ≠ 0 := h.cap_ne_zero hset
  have hrun : exec (.apProcess x) s = .next (commandEffect s (.apProcess x)) :=
    exec_next_iff.2 ⟨checkReady_eq_none.2 ⟨hc, hset⟩, rfl⟩
  simp only [← h.read_eq hn]
  exact ⟨_, hrun, rfl, Memory.read_write_same h.canonical _ _,
    fun j hj => Memory.read_write_other h.canonical _ hj, advance_eq (h.cursor hc), rfl⟩

end Sys2Proof.Machine
end

section
/-! ## The impulse response of an all-pass under exact arithmetic (spec/42_allpass_filter.md rule R170)

`echo` is what R165 stores at each time after a unit impulse, `delayedEcho` what it reads. Both are known in closed form, so
one sample is one step of an invariant over time: the line holds the echoes of all earlier times. -/

namespace Sys2Proof.Machine

/-- A unit whose state and input are known at every time `t`, and whose answer is then `y t`, answers the `y t` in order. -/
theorem runUnit_timed {σ α β : Type} {f : σ → α → σ × β} {At : Nat → σ → Prop} {x : Nat → α} {y : Nat → β}
    (hstep : ∀ t u, At t u → At (t + 1) (f u (x t)).1 ∧ (f u (x t)).2 = y t) (k : Nat) {t : Nat} {u : σ} (hu : At t u) :
    (runUnit f u ((List.range' t k).map x)).2 = (List.range' t k).map y := by
  induction k generalizing t u with
  | zero => rfl
  | succ k ih =>
    obtain ⟨hu', hy⟩ := hstep t u hu
    rw [List.range'_succ, List.map_cons, List.map_cons, ← hy, ← ih hu']
    rfl

/-- The unit impulse of R170, with time 0 for its first sample. -/
def impulse (t : Nat) : Rat := if t = 0 then 1 else 0

theorem impulse_cons_zeros (m : Nat) : 1 :: List.replicate m 0 = (List.range' 0 (m + 1)).map impulse := by
  have hzeros : (List.range' 1 m).map impulse = List.replicate m 0 := by
    refine List.eq_replicate_iff.2 ⟨by simp, fun v hv => ?_⟩
    obtain ⟨t, ht, rfl⟩ := List.mem_map.1 hv
    have hpos : 1 ≤ t := (List.mem_range'_1.1 ht).1
    exact if_neg (Nat.ne_of_gt hpos)
  rw [List.range'_succ, List.map_cons, hzeros]
  rfl

/-- What the steps of R165 store at time `t` after a unit impulse: `v_t` of R170. -/
def echo (g : Rat) (n t : Nat) : Rat := if t % n = 0 then g ^ (t / n) else 0

/-- What they read at time `t`: `v_(t−n)` of R170, zero before any value comes back. -/
def delayedEcho (g : Rat) (n t : Nat) : Rat := if n ≤ t then echo g n (t - n) else 0

section

variable {n : Nat} (g : Rat) (t : Nat)

theorem delayedEcho_eq (hn : 1 ≤ n) :
    delayedEcho g n t = if t = 0 then 0 else if t % n = 0 then g ^ (t / n - 1) else 0 := by
  rcases Nat.lt_or_ge t n with hlt | hge
  · rw [delayedEcho, if_neg (Nat.not_le.2 hlt), Nat.mod_eq_of_lt hlt]
    split <;> rfl
  · obtain ⟨r, rfl⟩ := Nat.exists_eq_add_of_le' hge
    rw [delayedEcho, if_pos hge, if_neg (by omega), Nat.add_sub_cancel, Nat.add_mod_right, Nat.add_div_right _ hn,
      Nat.succ_sub_one, echo]

/-- The stored value of R170: `v_t = x_t + g·v_(t−n)`. -/
theorem echo_eq (hn : 1 ≤ n) : echo g n t = impulse t + g * delayedEcho g n t := by
  rw [delayedEcho_eq g t hn, impulse, echo]
  by_cases ht : t = 0
  · simp [ht]
  · by_cases hmod : t % n = 0
    · have hdiv : t / n ≠ 0 := (Nat.div_pos (Nat.le_of_dvd (by omega) (Nat.dvd_of_mod_eq_zero hmod)) hn).ne'
      simp [ht, hmod, mul_pow_sub_one hdiv]
    · simp [ht, hmod]

/-- The answer of R170: `y_t = −g·x_t + v_(t−n)`. -/
theorem impulseResponse_eq (hn : 1 ≤ n) :
    -(g * impulse t) + delayedEcho g n t = if t = 0 then -g else if t % n = 0 then g ^ (t / n - 1) else 0 := by
  rw [delayedEcho_eq g t hn, impulse]
  by_cases ht : t = 0
  · simp [ht]
  · simp [ht]

end

/-- The values of `v` at the times before `t`, latest first. -/
def valuesBefore (v : Nat → Rat) (t : Nat) : List Rat := ((List.range t).map v).reverse

theorem valuesBefore_succ (v : Nat → Rat) (t : Nat) : valuesBefore v (t + 1) = v t :: valuesBefore v t := by
  simp [valuesBefore, List.range_succ]

/-- The entry `n` places back is the value `n` samples ago. -/
theorem getD_valuesBefore (v : Nat → Rat) (t : Nat) {n : Nat} (hn : 1 ≤ n) :
    (valuesBefore v t).getD (n - 1) 0 = if n ≤ t then v (t - n) else 0 := by
  have hlength : ((List.range t).map v).length = t := by simp
  rw [valuesBefore, List.getD_eq_getElem?_getD]
  split
  · next hle =>
    rw [List.getElem?_reverse (by omega), hlength]
    have hplace : t - 1 - (n - 1) = t - n := by omega
    have hlt : t - n < t := by omega
    simp [hplace, hlt]
  · rw [List.getElem?_eq_none (by rw [List.length_reverse]; omega)]
    rfl

/-- An all-pass at time `t` of its impulse response. -/
structure AllPass.Echoing (g : Rat) (n t : Nat) (a : AllPass Rat) : Prop where
  coefficient : a.g = g
  length : a.dl.n = some n
  fits : n ≤ a.dl.cap - 1
  echoes : a.dl.Holds Num.ideal (valuesBefore (echo g n) t)

/-- One sample of the impulse: the line reads the echo of `n` samples ago, answers with it and stores the next one. -/
theorem AllPass.Echoing.process {g : Rat} {n t : Nat} {a : AllPass Rat} (hn : 1 ≤ n) (h : a.Echoing g n t) :
    (a.process Num.ideal (impulse t)).1.Echoing g n (t + 1) ∧
      (a.process Num.ideal (impulse t)).2 = -(g * impulse t) + delayedEcho g n t := by
  obtain ⟨rfl, hlength, hfits, hechoes⟩ := h
  have hread : a.dl.read Num.ideal = delayedEcho a.g n t :=
    (hechoes.read hlength hn hfits).trans (getD_valuesBefore _ t hn)
  have hstored : a.stored Num.ideal (impulse t) = echo a.g n t := by
    rw [AllPass.stored, hread, echo_eq a.g t hn, ideal_add, ideal_mul]
  refine ⟨⟨rfl, hlength, hfits, ?_⟩, ?_⟩
  · rw [valuesBefore_succ, ← hstored]
    exact hechoes.write_advance _
  · rw [← hread]
    rfl

/-- Settles O27: a cleared all-pass is at time 0 of its impulse response, and each sample takes it to the next time. -/
theorem idealAllPassImpulseResponse : Obligations.IdealAllPassImpulseResponse := by
  intro a n m _ hw hlength hn hfits hbuf t ht
  have hstart : a.Echoing a.g n 0 := ⟨rfl, hlength, hfits, .of_empty hw hbuf⟩
  have hrun := runUnit_timed (fun _ _ hat => AllPass.Echoing.process hn hat) (m + 1) hstart
  rw [impulse_cons_zeros, hrun, ← impulseResponse_eq a.g t hn]
  simp [List.getD_eq_getElem?_getD, Nat.lt_succ_of_le ht]

end Sys2Proof.Machine
end

section
/-! ## `ENG.PROCESS` on one block (spec/43_reverb_engine.md rules R183, R199, R201)

Past its checks a block is a run of the engine over the input pairs read from the host buffer. What a block does is then a
fact about runs, and how the blocks of a claim compare is a fact about their inputs. -/

namespace Sys2Proof.Machine

/-- Past its two checks `ENG.PROCESS` completes, with the engine and the host buffer the loop leaves (R183). -/
theorem exec_engProcess {s : State} {ch : Nat} (ns : Nat) (hch : ch = 1 ∨ ch = 2) (hon : s.eng.configured = true) :
    exec (.engProcess ch ns) s =
      .next { s with
        eng := (s.eng.process Num.b32 (biquadOf s.biquad) ch ns s.hb).1
        hb := (s.eng.process Num.b32 (biquadOf s.biquad) ch ns s.hb).2 } :=
  exec_next_iff.2 ⟨commandCheck_engProcess.2 ⟨hch, hon⟩, rfl⟩

/-- Channel `c` of an output pair. -/
def channelOf (c : Nat) (y : Word × Word) : Word := if c = 0 then y.1 else y.2

/-- What a block leaves: the engine after the run over the block's inputs, and output `i` of channel `c` in the host cell of
that index (R183, R64, R66). -/
theorem Engine.process_run (p : BqProcess Word) {ch : Nat} (hch : ch = 1 ∨ ch = 2) (ns : Nat) (e : Engine32)
    {hb : Memory Word} (hwf : hb.wf 0#32) :
    (e.process Num.b32 (.ofProcess p) ch ns hb).1 = (runUnit (Engine.tick p) e (hostInputs ch ns 0 ns hb)).1 ∧
      ∀ c i, c < ch → i < ns → (e.process Num.b32 (.ofProcess p) ch ns hb).2.read 0#32 (c * ns + i) =
        channelOf c ((runUnit (Engine.tick p) e (hostInputs ch ns 0 ns hb)).2.getD i (0#32, 0#32)) := by
  obtain ⟨hengine, houtputs, -⟩ := Engine.processFrom_spec p ch ns ns 0 e hwf (Nat.zero_add ns).le
  refine ⟨hengine, fun c i hc hi => ?_⟩
  obtain ⟨hleft, hright⟩ := houtputs i hi
  rw [Nat.zero_add] at hleft hright
  obtain rfl | ⟨rfl, rfl⟩ : c = 0 ∨ c = 1 ∧ ch = 2 := by omega
  · rw [Nat.zero_mul, Nat.zero_add]
    exact hleft
  · rw [Nat.one_mul]
    exact hright rfl

/-- Inputs are a function of the channels' samples, wherever in a host buffer the channels lie. -/
theorem hostInputs_of_samples {ch ns i ns' i' k : Nat} {hb hb' : Memory Word} (hch : ch = 1 ∨ ch = 2)
    (h : ∀ c j, c < ch → j < k → hb.read 0#32 (c * ns + (i + j)) = hb'.read 0#32 (c * ns' + (i' + j))) :
    hostInputs ch ns i k hb = hostInputs ch ns' i' k hb' := by
  refine List.map_congr_left fun j hj => ?_
  have hj : j < k := List.mem_range.1 hj
  have hleft : hb.read 0#32 (i + j) = hb'.read 0#32 (i' + j) := by simpa using h 0 j (by omega) hj
  rw [hleft]
  split
  · next htwo =>
    have hright : hb.read 0#32 (ns + (i + j)) = hb'.read 0#32 (ns' + (i' + j)) := by simpa using h 1 j (by omega) hj
    rw [hright]
  · rfl

/-- The outputs after those of the first inputs are those of the run that goes on from the unit they leave. -/
theorem runUnit_getD_append_right {σ α β : Type} (f : σ → α → σ × β) (u : σ) (xs ys : List α) (j : Nat) (d : β) :
    (runUnit f u (xs ++ ys)).2.getD (xs.length + j) d = (runUnit f (runUnit f u xs).1 ys).2.getD j d := by
  rw [runUnit_append, List.getD_append_right _ _ _ _ (by rw [runUnit_length]; exact Nat.le_add_right _ _), runUnit_length,
    Nat.add_sub_cancel_left]

/-- Settles O39: the inputs of the long block are those of the two parts one after the other, and so is the run over them. -/
theorem blocksSplitAnywhere : Obligations.BlocksSplitAnywhere := by
  intro s ch a b hb1 hb2 hch hon hwf hwf1 hwf2 hfirst hsecond
  have hxs : hostInputs ch (a + b) 0 a s.hb = hostInputs ch a 0 a hb1 :=
    hostInputs_of_samples hch fun c j hc hj => by simpa using (hfirst c j hc hj).symm
  have hys : hostInputs ch (a + b) (0 + a) b s.hb = hostInputs ch b 0 b hb2 :=
    hostInputs_of_samples hch fun c j hc hj => by simpa using (hsecond c j hc hj).symm
  have hinputs : hostInputs ch (a + b) 0 (a + b) s.hb = hostInputs ch a 0 a hb1 ++ hostInputs ch b 0 b hb2 := by
    rw [hostInputs_add, hxs, hys]
  obtain ⟨ht, houtT⟩ := Engine.process_run (processOf s.biquad) hch (a + b) s.eng hwf
  obtain ⟨hu, houtU⟩ := Engine.process_run (processOf s.biquad) hch a s.eng hwf1
  obtain ⟨hv, houtV⟩ := Engine.process_run (processOf s.biquad) hch b
    (s.eng.process Num.b32 (biquadOf s.biquad) ch a hb1).1 hwf2
  have honU : (s.eng.process Num.b32 (biquadOf s.biquad) ch a hb1).1.configured = true :=
    (commandEffect_configured { s with hb := hb1 } (i := .engProcess ch a) nofun).trans hon
  refine ⟨_, _, _, exec_engProcess (a + b) hch hon, exec_engProcess (s := { s with hb := hb1 }) a hch hon,
    exec_engProcess b hch honU, ?_, fun c i hc hi => ?_, fun c i hc hi => ?_⟩
  · refine ht.trans (Eq.trans ?_ hv.symm)
    rw [hinputs, runUnit_append, ← hu]
  · refine (houtT c i hc (by omega)).trans (Eq.trans ?_ (houtU c i hc hi).symm)
    rw [hinputs, runUnit_getD_append _ _ _ (by rwa [hostInputs_length])]
  · refine (houtT c (a + i) hc (by omega)).trans (Eq.trans ?_ (houtV c i hc hi).symm)
    have hplace := runUnit_getD_append_right (Engine.tick (processOf s.biquad)) s.eng (hostInputs ch a 0 a hb1)
      (hostInputs ch b 0 b hb2) i (0#32, 0#32)
    rw [hostInputs_length] at hplace
    rw [hinputs, hplace, ← hu]

/-- Settles O41: both blocks read each sample of `x` on both channels, so they are one run. -/
theorem monoEqualsDuplicatedStereo : Obligations.MonoEqualsDuplicatedStereo := by
  intro s ns hb hon hwf hwf' hsame
  have hinputs : hostInputs 1 ns 0 ns s.hb = hostInputs 2 ns 0 ns hb := by
    refine List.map_congr_left fun j hj => ?_
    obtain ⟨hleft, hright⟩ := hsame j (List.mem_range.1 hj)
    simp [hleft, hright]
  obtain ⟨ht, houtT⟩ := Engine.process_run (processOf s.biquad) (.inl rfl) ns s.eng hwf
  obtain ⟨hu, houtU⟩ := Engine.process_run (processOf s.biquad) (.inr rfl) ns s.eng hwf'
  refine ⟨_, _, exec_engProcess ns (.inl rfl) hon, exec_engProcess (s := s.withHb hb) ns (.inr rfl) hon, ?_, fun i hi => ?_⟩
  · refine ht.trans (Eq.trans ?_ hu.symm)
    rw [hinputs]
  · have hmono := houtT 0 i Nat.one_pos hi
    have hstereo := houtU 0 i Nat.two_pos hi
    rw [Nat.zero_mul, Nat.zero_add] at hmono hstereo
    refine hmono.trans (Eq.trans ?_ hstereo.symm)
    rw [hinputs]

/-- A block leaves the host cells after it alone (R64, R66). -/
theorem Engine.process_hb_outside (p : BqProcess Word) {ch : Nat} (hch : ch = 1 ∨ ch = 2) (ns : Nat) (e : Engine32)
    {hb : Memory Word} (hwf : hb.wf 0#32) {a : Nat} (ha : ch * ns ≤ a) :
    (e.process Num.b32 (.ofProcess p) ch ns hb).2.read 0#32 a = hb.read 0#32 a := by
  obtain ⟨-, -, hothers⟩ := Engine.processFrom_spec p ch ns ns 0 e hwf (Nat.zero_add ns).le
  refine hothers a fun j hj => ?_
  rcases hch with rfl | rfl <;> omega

/-- Settles O37: the two checks in their order, then the block's frame in the engine and in the host buffer. -/
theorem engProcessCompletesInPlace : Obligations.EngProcessCompletesInPlace := by
  intro ch ns s
  refine ⟨fun h1 h2 => ?channels, fun hch hoff => ?configured, fun hch hon hwf => ?completes⟩
  case channels =>
    have hbad : checkChannels ch = some .badChannelCount := if_neg (not_or.2 ⟨h1, h2⟩)
    rw [exec_refused_iff, commandCheck, hbad, firstRefusal_some]
  case configured =>
    rw [exec_refused_iff, commandCheck, checkChannels_eq_none.2 hch, checkEngConfigured, hoff]
    rfl
  case completes =>
    exact ⟨_, _, exec_engProcess ns hch hon, Engine.processFrom_settings _ ch ns ns 0 s.eng s.hb,
      fun a ha => Engine.process_hb_outside _ hch ns s.eng hwf ha⟩

/-- A block of one sample is one sample of its two inputs (R183, R199). -/
theorem Engine.process_one (p : BqProcess Word) {ch : Nat} (hch : ch = 1 ∨ ch = 2) (e : Engine32) {hb : Memory Word}
    (hwf : hb.wf 0#32) {out : Engine32 × Word × Word}
    (hout : e.sample Num.b32 (.ofProcess p) (hb.read 0#32 0) (if ch = 2 then hb.read 0#32 1 else hb.read 0#32 0) = out) :
    (e.process Num.b32 (.ofProcess p) ch 1 hb).1 = out.1 ∧
      (e.process Num.b32 (.ofProcess p) ch 1 hb).2.read 0#32 0 = out.2.1 ∧
      (e.process Num.b32 (.ofProcess p) ch 1 hb).2.read 0#32 1 = if ch = 2 then out.2.2 else hb.read 0#32 1 := by
  have hinputs : hostInputs ch 1 0 1 hb = [(hb.read 0#32 0, if ch = 2 then hb.read 0#32 1 else hb.read 0#32 0)] := by
    simp [hostInputs]
  have hrun : runUnit (Engine.tick p) e (hostInputs ch 1 0 1 hb) = (out.1, [out.2]) := by
    rw [hinputs, ← hout]
    rfl
  obtain ⟨hengine, houtputs⟩ := Engine.process_run p hch 1 e hwf
  rw [hrun] at hengine houtputs
  refine ⟨hengine, houtputs 0 0 (by omega) Nat.one_pos, ?_⟩
  split
  · next htwo => exact houtputs 1 0 (by omega) Nat.one_pos
  · next hone => exact Engine.process_hb_outside p hch 1 e hwf (by omega)

/-! The three constants of R193, R194 and R197 in binary32. -/

theorem b32_ofDecimal_eighth : Num.b32.ofDecimal 0.125 = 0x3E000000#32 := by decide +kernel
theorem b32_ofDecimal_crossfeed : Num.b32.ofDecimal 0.15 = 0x3E19999A#32 := by decide +kernel
theorem b32_ofDecimal_half : Num.b32.ofDecimal 0.5 = 0x3F000000#32 := by decide +kernel

/-- Settles O38: a block of one sample is `Engine.sample`, whose steps unfold to the operators written out. -/
theorem engProcessRunsTheEightSteps : Obligations.EngProcessRunsTheEightSteps := by
  intro ch s hch hon hwf
  have hsteps := Engine.process_one (processOf s.biquad) hch s.eng hwf rfl
  simp only [Engine.sample, Channel.front, preEq, combBank, combSum, Bank8.map, crossfeed, Channel.back, apCascade, width, mix,
    b32_ofDecimal_eighth, b32_ofDecimal_crossfeed, b32_ofDecimal_half, b32_add, b32_sub, b32_mul] at hsteps
  obtain ⟨hengine, hleft, hright⟩ := hsteps
  exact ⟨_, exec_engProcess 1 hch hon, hleft, hright, hengine⟩

end Sys2Proof.Machine
end

section
/-! ## Reading a register back (spec/43_reverb_engine.md rule R184, spec/10_state.md rule R30) -/

namespace Sys2Proof.Machine

section

variable {s : State} {r : Nat}

/-- A register that holds a word is answered with it (R93, R184). -/
theorem exec_engGetParam {w : Word} (hread : readParam Num.b32 s.eng r = .ok (.word w)) :
    exec (.engGetParam r) s = .next { s with responses := s.responses ++ [(.eng, .word w)] } := by
  refine exec_next_iff.2 ⟨?_, ?_⟩
  · rw [commandCheck, hread]
    rfl
  · rw [commandEffect, hread]
    rfl

/-- A register that cannot be read is refused with the reason (R184). -/
theorem exec_engGetParam_refused {reason : Refusal} (hread : readParam Num.b32 s.eng r = .error reason) :
    exec (.engGetParam r) s = .refused reason := by
  rw [exec_refused_iff, commandCheck, hread]
  rfl

end

section

variable {S α : Type} {v : Option α} {toWord : α → Word}

theorem readOrUnset_of_set {x : α} (h : v = some x) : readOrUnset v toWord = .ok (.word (toWord x) : Response S) := by
  rw [h]
  rfl

theorem readOrUnset_of_unset (h : v = none) : (readOrUnset v toWord : Except Refusal (Response S)) = .error .readUnset := by
  rw [h]
  rfl

end

/-- There is no register from 14 on (R30). -/
theorem readParam_of_le {S Q : Type} (N : Num S) (e : Engine S Q) {r : Nat} (hr : 14 ≤ r) :
    readParam N e r = .error .badRegister := by
  obtain ⟨k, rfl⟩ := Nat.exists_eq_add_of_le' hr
  rfl

/-- Settles O36: each clause is the register's row of R30, read in `readParam`. -/
theorem engGetParamReadsItsRegister : Obligations.EngGetParamReadsItsRegister := by
  intro s e answers
  have word : ∀ {r w}, readParam Num.b32 s.eng r = .ok (.word w) → answers r w := exec_engGetParam
  have refused : ∀ {r reason}, readParam Num.b32 s.eng r = .error reason → exec (.engGetParam r) s = .refused reason :=
    exec_engGetParam_refused
  refine ⟨word rfl, word rfl, word rfl, word rfl, word rfl, word rfl, fun n hn => word (readOrUnset_of_set hn),
    fun n hn => word (readOrUnset_of_set hn), word rfl, word rfl, word rfl,
    fun d hd => ⟨word (readOrUnset_of_set hd), word (readOrUnset_of_set hd)⟩, word rfl,
    fun hn => refused (readOrUnset_of_unset hn), fun hn => refused (readOrUnset_of_unset hn),
    fun hn => ⟨refused (readOrUnset_of_unset hn), refused (readOrUnset_of_unset hn)⟩,
    fun r hr => refused (readParam_of_le Num.b32 s.eng hr), fun Q B u => ?_⟩
  simp only [List.forall_mem_cons]
  exact ⟨rfl, rfl, rfl, rfl, rfl, rfl, rfl, rfl, nofun⟩

end Sys2Proof.Machine
end

section
/-! ## The width step under exact arithmetic (spec/43_reverb_engine.md rule R203) -/

namespace Sys2Proof.Machine

/-- R197 under `NUM_IDEAL`. -/
theorem width_ideal (w l r : Rat) :
    width Num.ideal w l r = ((l + r) * 0.5 + (l - r) * 0.5 * w, (l + r) * 0.5 - (l - r) * 0.5 * w) := rfl

/-- Settles O44: with width 0 the side is 0; with width 1 half the sum and half the difference make the inputs again. -/
theorem idealWidthEndPoints : Obligations.IdealWidthEndPoints := by
  intro l r
  rw [width_ideal, width_ideal]
  refine ⟨by ring, Prod.ext ?_ ?_⟩ <;> ring

end Sys2Proof.Machine
end

section
/-! ## The refusals of `ENG.CONFIGURE` (spec/43_reverb_engine.md rule R181, spec/60_exceptions.md rule R275) -/

namespace Sys2Proof.Machine

/-- The first line out of range gives the reason (R275). -/
theorem checkCapacities_append {maxCap : Nat} {before after : List Int} {c : Int} {r : Refusal}
    (hbefore : ∀ b ∈ before, 2 ≤ b ∧ b ≤ (maxCap : Int)) (hc : checkCapacity maxCap c = some r) :
    checkCapacities maxCap (before ++ c :: after) = some r := by
  induction before with
  | nil => simp only [List.nil_append, checkCapacities, hc]
  | cons b before ih =>
    obtain ⟨hb, hrest⟩ := List.forall_mem_cons.1 hbefore
    simp only [List.cons_append, checkCapacities, checkCapacity_eq_none.2 hb]
    exact ih hrest

/-- With a good rate and hint the capacities decide (R275). -/
theorem checkEngConfigure_of_operands {cfg : Params Word} {sr : DWord} {hint : Int} (hsr : F64.isPositiveFinite sr = true)
    (hhint : 1 ≤ hint) :
    checkEngConfigure cfg sr hint = checkCapacities cfg.maxCap ((lineMaxima cfg).map fun m => capacityOf m sr) := by
  rw [checkEngConfigure, checkRate_eq_none.2 hsr, checkBlockSize_eq_none.2 hhint, firstRefusal_none, firstRefusal_none]
  cases checkCapacities cfg.maxCap ((lineMaxima cfg).map fun m => capacityOf m sr) <;> rfl

/-- Settles O29: the check makes its three tests in this order, and the last goes through the lines in theirs. -/
theorem engConfigureRefusesInOrder : Obligations.EngConfigureRefusesInOrder := by
  intro s sr hint
  simp only [exec_refused_iff, commandCheck]
  refine ⟨fun hsr => ?rate, fun hsr hhint => ?blockSize, fun hsr hhint before m after hlines hbefore => ?capacity⟩
  case rate =>
    rw [checkEngConfigure, checkRate, hsr]
    rfl
  case blockSize =>
    rw [checkEngConfigure, checkRate_eq_none.2 hsr, checkBlockSize, if_pos hhint]
    rfl
  case capacity =>
    have first : ∀ {r}, checkCapacity s.cfg.maxCap (capacityOf m sr) = some r →
        checkEngConfigure s.cfg sr hint = some r := by
      intro r hr
      rw [checkEngConfigure_of_operands hsr hhint, hlines, List.map_append, List.map_cons]
      exact checkCapacities_append (List.forall_mem_map.2 hbefore) hr
    exact ⟨fun hsmall => first (if_pos hsmall),
      fun hmin hlarge => first ((if_neg (not_lt.2 hmin)).trans (if_pos hlarge))⟩

end Sys2Proof.Machine
end

section
/-! ## The engine without its memories (spec/43_reverb_engine.md rules R181, R182, R205)

`Engine.settings` is an engine with every memory zero and every cursor at 0. `ENG.CLEAR` leaves the memories of one, and
`ENG.CONFIGURE` on an engine that is configured at the same rate leaves exactly its settings: idempotence is that fact used
twice. -/

namespace Sys2Proof.Machine

/-! ### Memories -/

/-- Every memory of the engine is zero, in the canonical form. -/
structure Engine.Blank (e : Engine32) : Prop where
  lines : ∀ D ∈ e.lines, D.buf = []
  stores : ∀ c k, (e.comb c k).filterStore = 0#32
  biquads : ∀ c, ∀ b ∈ (e.ch.get c).biquads, b.mem = []

/-- A property of every biquad of a channel is one of its seven bands and its two tone filters. -/
theorem Channel.forall_biquads {S Q : Type} {h : Channel S Q} {P : Q → Prop} :
    (∀ q ∈ h.biquads, P q) ↔ (∀ b, P (h.eq.get b)) ∧ P h.toneLP ∧ P h.toneLS := by
  simp only [Channel.mem_biquads, or_imp, forall_and, forall_eq', forall_exists_index, forall_apply_eq_imp_iff]

theorem Engine.settings_channel (e : Engine32) (c : Fin 2) : (e.settings.ch.get c) = (e.ch.get c).settings :=
  Stereo.get_map _ _ _

theorem Engine.mem_settings_lines {e : Engine32} : ∀ D ∈ e.settings.lines, ∃ D' : DelayLine Word, D = D'.settings :=
  Engine.forall_lines.2 ⟨fun c k => ⟨(e.comb c k).dl, by simp [Engine.settings_channel, Channel.settings]⟩,
    fun c j => ⟨(e.ap c j).dl, by simp [Engine.settings_channel, Channel.settings]⟩,
    fun c => ⟨e.pre c, by simp [Engine.settings_channel, Channel.settings]⟩⟩

theorem Engine.settings_cursor {e : Engine32} {D : DelayLine Word} (hD : D ∈ e.settings.lines) : D.w = 0 := by
  obtain ⟨D', rfl⟩ := Engine.mem_settings_lines D hD
  rfl

theorem Engine.settings_blank (e : Engine32) : e.settings.Blank where
  lines D hD := by
    obtain ⟨D', rfl⟩ := Engine.mem_settings_lines D hD
    rfl
  stores c k := by simp [Engine.settings_channel, Channel.settings, Comb.settings]
  biquads c := by
    rw [Engine.settings_channel]
    exact Channel.forall_biquads.2 ⟨fun b => by simp [Channel.settings], rfl, rfl⟩

/-- `ENG.CLEAR` zeroes every memory (R182). -/
theorem Engine.clear_blank (p : BqProcess Word) (e : Engine32) : (e.clear Num.b32 (.ofProcess p)).Blank where
  lines := by
    refine Engine.forall_lines.2 ⟨fun c k => ?_, fun c j => ?_, fun c => ?_⟩
    · simp [Engine.clear, Channel.clear, Comb.clear]
    · simp [Engine.clear, Channel.clear, AllPass.clear]
    · simp [Engine.clear, Channel.clear]
  stores c k := by simp [Engine.clear, Channel.clear, Comb.clear]
  biquads c := Channel.forall_biquads.2 ⟨fun b => by simp [Engine.clear, Channel.clear],
    by simp [Engine.clear, Channel.clear], by simp [Engine.clear, Channel.clear]⟩

/-- Settles O31: clearing keeps settings and cursors, and leaves every memory zero. -/
theorem engClearZeroesMemoriesOnly : Obligations.EngClearZeroesMemoriesOnly := by
  intro s
  have hblank := Engine.clear_blank (processOf s.biquad) s.eng
  refine ⟨_, execEngClear_eq s, Engine.clear_settings _ s.eng, fun D hD j => ?_, Engine.clear_cursors _ s.eng, hblank.stores,
    hblank.biquads⟩
  rw [hblank.lines D hD, Memory.read_nil]

/-! ### Configuration -/

section

variable (p : BqProcess Word) (cfg : Params Word) (sr : DWord) (e : Engine32)

/-- What `ENG.CONFIGURE` leaves of a channel (R181, R238): only each `g` is taken over from the channel before it. -/
theorem Engine.configure_channel (c : Fin 2) :
    (e.configure Num.b32 (.ofProcess p) cfg sr).ch.get c =
      { comb := .ofFn fun k =>
          { dl := configuredLine ((cfg.combMaxMs.get c).get k) ((cfg.combDelayMs.get c).get k) sr
            fb := clampFb Num.b32 (mapDerive Num.b32 e.domeAmount).combFeedback
            damp := clampDamp Num.b32 (mapDerive Num.b32 e.domeAmount).combDamping
            filterStore := 0#32 }
        ap := .ofFn fun j =>
          { dl := configuredLine ((cfg.apMaxMs.get c).get j) ((cfg.apDelayMs.get c).get j) sr, g := (e.ap c j).g }
        pre :=
          { DelayLine.fresh (capacityOf (cfg.preDelayMaxMs.get c) sr).toNat with
            n := some (preDelayLength Num.b32 e.domeAmount c sr (capacityOf (cfg.preDelayMaxMs.get c) sr).toNat) }
        eq := .ofFn fun b => ⟨some (eqCoef cfg sr b), []⟩
        toneLP := ⟨some (toneLpCoef cfg sr (mapDerive Num.b32 e.domeAmount).lpCutoff), []⟩
        toneLS := ⟨some (toneLsCoef cfg sr e.bassBoost), []⟩ } := by
  fin_cases c <;> rfl

/-- What it leaves of the registers. -/
theorem Engine.configure_registers :
    e.configure Num.b32 (.ofProcess p) cfg sr =
      { e with
        ch := (e.configure Num.b32 (.ofProcess p) cfg sr).ch
        wetGain := (mapDerive Num.b32 e.domeAmount).wetGain
        dryGain := (mapDerive Num.b32 e.domeAmount).dryGain
        lpCutoff := (mapDerive Num.b32 e.domeAmount).lpCutoff
        preDelaySamples := .ofFn fun c => ((e.configure Num.b32 (.ofProcess p) cfg sr).pre c).n
        sampleRate := some sr
        configured := true } := rfl

/-- It leaves no memory and every cursor at 0. -/
theorem Engine.configure_settings :
    (e.configure Num.b32 (.ofProcess p) cfg sr).settings = e.configure Num.b32 (.ofProcess p) cfg sr := rfl

theorem Engine.configure_blank : (e.configure Num.b32 (.ofProcess p) cfg sr).Blank :=
  (e.configure Num.b32 (.ofProcess p) cfg sr).settings_blank

theorem Engine.configure_cursor {D : DelayLine Word} (hD : D ∈ (e.configure Num.b32 (.ofProcess p) cfg sr).lines) : D.w = 0 :=
  Engine.settings_cursor (e := e.configure Num.b32 (.ofProcess p) cfg sr) hD

end

/-- An engine that holds what `ENG.CONFIGURE` at rate `sr` and the mapper derive from its parameter registers and the
parameters `cfg` (R181, R238). -/
structure Engine.ConfiguredAt (cfg : Params Word) (sr : DWord) (e : Engine32) : Prop where
  rate : e.sampleRate = some sr
  flag : e.configured = true
  wet : e.wetGain = (mapDerive Num.b32 e.domeAmount).wetGain
  dry : e.dryGain = (mapDerive Num.b32 e.domeAmount).dryGain
  cutoff : e.lpCutoff = (mapDerive Num.b32 e.domeAmount).lpCutoff
  feedback : ∀ c k, (e.comb c k).fb = clampFb Num.b32 (mapDerive Num.b32 e.domeAmount).combFeedback
  damping : ∀ c k, (e.comb c k).damp = clampDamp Num.b32 (mapDerive Num.b32 e.domeAmount).combDamping
  preDelayRegister : ∀ c, e.preDelaySamples.get c = (e.pre c).n
  channels : ∀ c, ChannelConfigured cfg sr e c

/-- `ENG.CONFIGURE` leaves such an engine, from any engine. -/
theorem Engine.configure_configuredAt (p : BqProcess Word) (cfg : Params Word) (sr : DWord) (e : Engine32) :
    (e.configure Num.b32 (.ofProcess p) cfg sr).ConfiguredAt cfg sr where
  rate := rfl
  flag := rfl
  wet := rfl
  dry := rfl
  cutoff := rfl
  feedback c k := by rw [Engine.comb_eq, Engine.configure_channel, Bank8.get_ofFn]; rfl
  damping c k := by rw [Engine.comb_eq, Engine.configure_channel, Bank8.get_ofFn]; rfl
  preDelayRegister c := Stereo.get_ofFn (fun c => ((e.configure Num.b32 (.ofProcess p) cfg sr).pre c).n) c
  channels c :=
    { combs := fun k => by rw [Engine.comb_eq, Engine.configure_channel, Bank8.get_ofFn]; exact ⟨rfl, rfl⟩
      allPasses := fun j => by rw [Engine.ap_eq, Engine.configure_channel, Bank4.get_ofFn]; exact ⟨rfl, rfl⟩
      preCap := by rw [Engine.pre_eq, Engine.configure_channel]; rfl
      preLength := by rw [Engine.pre_eq, Engine.configure_channel]; rfl
      equaliser := fun b => by rw [Engine.eq_eq, Engine.configure_channel, Bank7.get_ofFn]
      toneLP := by rw [Engine.configure_channel]; rfl
      toneLS := by rw [Engine.configure_channel]; rfl }

/-- The invariant says so of every configured engine. -/
theorem EngineInv.configuredAt {cfg : Params Word} {sr : DWord} {e : Engine32} (h : EngineInv cfg e)
    (hr : e.sampleRate = some sr) : e.ConfiguredAt cfg sr where
  rate := hr
  flag := by rw [h.flag, hr]; rfl
  wet := h.wet
  dry := h.dry
  cutoff := h.cutoff
  feedback := h.feedback
  damping := h.damping
  preDelayRegister := h.preDelayRegister
  channels := h.configuredAs sr hr

/-- Capacity and length make the settings of a line. -/
theorem LineAs.settings_eq {maxMs delayMs : Rat} {sr : DWord} {D : DelayLine Word} (h : LineAs maxMs delayMs sr D) :
    D.settings = configuredLine maxMs delayMs sr := by
  obtain ⟨hcap, hn⟩ := h
  rw [DelayLine.settings, hn, hcap]
  rfl

theorem Biquad.reset_eq {S : Type} {b : Biquad S} {c : BqCoef S} (h : b.coef = some c) : b.reset = ⟨some c, []⟩ := by
  rw [Biquad.reset, h]

section

variable {cfg : Params Word} {sr : DWord} {e : Engine32} (h : e.ConfiguredAt cfg sr) (p : BqProcess Word)

include h

theorem Engine.ConfiguredAt.configure_channel_eq (c : Fin 2) :
    (e.configure Num.b32 (.ofProcess p) cfg sr).ch.get c = (e.ch.get c).settings := by
  have hc := h.channels c
  rw [Engine.configure_channel, Channel.settings, Channel.mk.injEq]
  refine ⟨Bank8.ext_get fun k => ?combs, Bank4.ext_get fun j => ?allPasses, ?preDelay, Bank7.ext_get fun b => ?bands,
    ?lowPass, ?lowShelf⟩
  case combs =>
    rw [Bank8.get_ofFn, Bank8.get_map, Comb.settings, ← h.feedback c k, ← h.damping c k, ← (hc.combs k).settings_eq]
    rfl
  case allPasses =>
    rw [Bank4.get_ofFn, Bank4.get_map, AllPass.settings, ← (hc.allPasses j).settings_eq]
    rfl
  case preDelay =>
    rw [DelayLine.settings, ← Engine.pre_eq, hc.preLength, hc.preCap]
    rfl
  case bands =>
    rw [Bank7.get_ofFn, Bank7.get_map]
    exact (Biquad.reset_eq (hc.equaliser b)).symm
  case lowPass => rw [Biquad.reset_eq hc.toneLP, h.cutoff]
  case lowShelf => rw [Biquad.reset_eq hc.toneLS]

/-- On an engine configured at the rate `ENG.CONFIGURE` only zeroes memories and cursors. -/
theorem Engine.ConfiguredAt.configure_eq : e.configure Num.b32 (.ofProcess p) cfg sr = e.settings := by
  have hch : (e.configure Num.b32 (.ofProcess p) cfg sr).ch = e.settings.ch :=
    Stereo.ext_get fun c => (h.configure_channel_eq p c).trans (e.settings_channel c).symm
  have hpre : (Stereo.ofFn fun c => ((e.configure Num.b32 (.ofProcess p) cfg sr).pre c).n) = e.preDelaySamples :=
    Stereo.ext_get fun c => by
      rw [Stereo.get_ofFn, Engine.pre_eq, h.configure_channel_eq p c, h.preDelayRegister c]
      rfl
  rw [Engine.configure_registers, hpre, hch, ← h.rate, ← h.flag, ← h.wet, ← h.dry, ← h.cutoff]
  rfl

end

/-- `ENG.CONFIGURE` completes exactly on checked operands, and touches only the engine (R181). -/
theorem exec_engConfigure_iff {s t : State} {sr : DWord} {hint : Int} :
    exec (.engConfigure sr hint) s = .next t ↔
      checkEngConfigure s.cfg sr hint = none ∧ t = s.withEng (s.eng.configure Num.b32 (biquadOf s.biquad) s.cfg sr) :=
  exec_next_iff

/-- Settles O30: the second `ENG.CONFIGURE` finds the engine the first left, with no memory in it, and leaves its settings. -/
theorem engConfigureIsIdempotent : Obligations.EngConfigureIsIdempotent := by
  intro s t sr hint hint' hhint' hexec
  obtain ⟨hcheck, rfl⟩ := exec_engConfigure_iff.1 hexec
  obtain ⟨hsr, -, hcaps⟩ := checkEngConfigure_eq_none.1 hcheck
  refine exec_engConfigure_iff.2 ⟨checkEngConfigure_eq_none.2 ⟨hsr, hhint', hcaps⟩, ?_⟩
  have hagain := (Engine.configure_configuredAt (processOf s.biquad) s.cfg sr s.eng).configure_eq (processOf s.biquad)
  rw [Engine.configure_settings] at hagain
  exact congrArg s.withEng hagain.symm

/-- Settles O28: the engine is configured at the rate and blank; the parameter registers and each `g` are taken over. -/
theorem engConfigureBuildsTheEngine : Obligations.EngConfigureBuildsTheEngine := by
  intro s sr hint hsr hhint hcaps
  have hexec := exec_engConfigure_iff.2 ⟨checkEngConfigure_eq_none.2 ⟨hsr, hhint, hcaps⟩, rfl⟩
  have hconf := Engine.configure_configuredAt (processOf s.biquad) s.cfg sr s.eng
  have hblank := Engine.configure_blank (processOf s.biquad) s.cfg sr s.eng
  refine ⟨_, hexec, hconf.rate, hconf.flag, rfl, rfl, rfl, rfl, rfl, rfl, rfl, hconf.channels, fun c => ?_,
    hconf.preDelayRegister, fun D hD => ⟨Engine.configure_cursor _ s.cfg sr s.eng hD, fun j => ?_⟩, hblank.stores,
    hblank.biquads, fun c j => ?_, fun c k => ⟨hconf.feedback c k, hconf.damping c k⟩⟩
  · have hc := hconf.channels c
    exact ⟨hc.equaliser 0, hc.equaliser 1, hc.equaliser 2, hc.equaliser 3, hc.equaliser 4, hc.equaliser 5, hc.equaliser 6,
      hc.toneLP, hc.toneLS⟩
  · rw [hblank.lines D hD, Memory.read_nil]
  · rw [Engine.ap_eq, Engine.configure_channel, Bank4.get_ofFn]

end Sys2Proof.Machine
end

section
/-! ## Relations that one sample keeps (spec/43_reverb_engine.md rules R190 to R199)

R200 and R202 go through the same datapath: one follows a property of a single engine, the other compares two engines. Both
say that related units given related inputs answer related outputs and stay related. That is proved here once for any
relation the operations of the datapath respect; a property is a relation that ignores its second argument. -/

namespace Sys2Proof.Machine

/-- A relation of sample values, coefficients, Delay Lines and biquads that the operations of the datapath respect, with `p` the
attached biquad. -/
structure SampleRelation (p : BqProcess Word) where
  value : Word → Word → Prop
  coef : Word → Word → Prop
  line : DelayLine Word → DelayLine Word → Prop
  biquad : Biquad Word → Biquad Word → Prop
  finite_coef : ∀ {k}, F32.isFinite k = true → coef k k
  add : ∀ {x x' y y'}, value x x' → value y y' → value (F32.add x y) (F32.add x' y')
  sub : ∀ {x x' y y'}, value x x' → value y y' → value (F32.sub x y) (F32.sub x' y')
  neg : ∀ {x x'}, value x x' → value (F32.neg x) (F32.neg x')
  mul_coef : ∀ {x x' k k'}, value x x' → coef k k' → value (F32.mul x k) (F32.mul x' k')
  coef_mul : ∀ {x x' k k'}, coef k k' → value x x' → value (F32.mul k x) (F32.mul k' x')
  read : ∀ {D D'}, line D D' → value (D.read Num.b32) (D'.read Num.b32)
  write_advance : ∀ {D D' v v'}, line D D' → value v v' → line (D.write Num.b32 v).advance (D'.write Num.b32 v').advance
  processSample : ∀ {b b' x x'}, biquad b b' → value x x' →
    biquad (b.processSample p x).1 (b'.processSample p x').1 ∧ value (b.processSample p x).2 (b'.processSample p x').2

namespace SampleRelation

variable {p : BqProcess Word} (R : SampleRelation p)

/-- Related combs: the relation of their parts, and of `1 − damp`, the other coefficient of R145. -/
structure Combs (c c' : Comb Word) : Prop where
  line : R.line c.dl c'.dl
  store : R.value c.filterStore c'.filterStore
  feedback : R.coef c.fb c'.fb
  damping : R.coef c.damp c'.damp
  passing : R.coef (F32.sub (F32.ofRat 1) c.damp) (F32.sub (F32.ofRat 1) c'.damp)

structure AllPasses (a a' : AllPass Word) : Prop where
  line : R.line a.dl a'.dl
  coefficient : R.coef a.g a'.g

structure Channels (h h' : Channel32) : Prop where
  combs : ∀ k, R.Combs (h.comb.get k) (h'.comb.get k)
  allPasses : ∀ j, R.AllPasses (h.ap.get j) (h'.ap.get j)
  pre : R.line h.pre h'.pre
  bands : ∀ b, R.biquad (h.eq.get b) (h'.eq.get b)
  toneLP : R.biquad h.toneLP h'.toneLP
  toneLS : R.biquad h.toneLS h'.toneLS

structure Engines (e e' : Engine32) : Prop where
  channels : ∀ c, R.Channels (e.ch.get c) (e'.ch.get c)
  width : R.coef e.stereoWidth e'.stereoWidth
  dry : R.coef e.dryGain e'.dryGain
  wet : R.coef e.wetGain e'.wetGain

variable {R}

/-! ### The two filters -/

theorem Combs.process {c c' : Comb Word} (h : R.Combs c c') {x x' : Word} (hx : R.value x x') :
    R.Combs (c.process Num.b32 x).1 (c'.process Num.b32 x').1 ∧
      R.value (c.process Num.b32 x).2 (c'.process Num.b32 x').2 := by
  have hread := R.read h.line
  have hstore : R.value (c.nextStore Num.b32 (c.dl.read Num.b32)) (c'.nextStore Num.b32 (c'.dl.read Num.b32)) :=
    R.add (R.mul_coef hread h.passing) (R.mul_coef h.store h.damping)
  have hstored : R.value (c.stored Num.b32 x) (c'.stored Num.b32 x') := R.add hx (R.mul_coef hstore h.feedback)
  exact ⟨⟨R.write_advance h.line hstored, hstore, h.feedback, h.damping, h.passing⟩, hread⟩

theorem AllPasses.process {a a' : AllPass Word} (h : R.AllPasses a a') {x x' : Word} (hx : R.value x x') :
    R.AllPasses (a.process Num.b32 x).1 (a'.process Num.b32 x').1 ∧
      R.value (a.process Num.b32 x).2 (a'.process Num.b32 x').2 := by
  have hread := R.read h.line
  have hstored : R.value (a.stored Num.b32 x) (a'.stored Num.b32 x') := R.add hx (R.coef_mul h.coefficient hread)
  exact ⟨⟨R.write_advance h.line hstored, h.coefficient⟩, R.add (R.neg (R.coef_mul h.coefficient hx)) hread⟩

/-! ### The pipeline steps of one channel -/

/-- Step 1 (R191). -/
theorem preEq_related {q q' : Bank7 (Biquad Word)} (h : ∀ b, R.biquad (q.get b) (q'.get b)) {x x' : Word}
    (hx : R.value x x') :
    (∀ b, R.biquad ((preEq (.ofProcess p) q x).1.get b) ((preEq (.ofProcess p) q' x').1.get b)) ∧
      R.value (preEq (.ofProcess p) q x).2 (preEq (.ofProcess p) q' x').2 := by
  obtain ⟨b0, v0⟩ := R.processSample (h 0) hx
  obtain ⟨b1, v1⟩ := R.processSample (h 1) v0
  obtain ⟨b2, v2⟩ := R.processSample (h 2) v1
  obtain ⟨b3, v3⟩ := R.processSample (h 3) v2
  obtain ⟨b4, v4⟩ := R.processSample (h 4) v3
  obtain ⟨b5, v5⟩ := R.processSample (h 5) v4
  obtain ⟨b6, v6⟩ := R.processSample (h 6) v5
  refine ⟨fun b => ?_, v6⟩
  fin_cases b
  exacts [b0, b1, b2, b3, b4, b5, b6]

/-- Step 3 (R193). -/
theorem combBank_related {b b' : Bank8 (Comb Word)} (h : ∀ k, R.Combs (b.get k) (b'.get k)) {x x' : Word}
    (hx : R.value x x') :
    (∀ k, R.Combs ((combBank Num.b32 b x).1.get k) ((combBank Num.b32 b' x').1.get k)) ∧
      R.value (combBank Num.b32 b x).2 (combBank Num.b32 b' x').2 := by
  have hy := fun k => ((h k).process hx).2
  refine ⟨fun k => ?_, R.mul_coef ?_ (R.finite_coef (by decide +kernel))⟩
  · rw [combBank, Bank8.get_map, combBank, Bank8.get_map]
    exact ((h k).process hx).1
  · exact R.add (R.add (R.add (R.add (R.add (R.add (R.add (hy 0) (hy 1)) (hy 2)) (hy 3)) (hy 4)) (hy 5)) (hy 6)) (hy 7)

/-- Step 5 (R195). -/
theorem apCascade_related {b b' : Bank4 (AllPass Word)} (h : ∀ j, R.AllPasses (b.get j) (b'.get j)) {x x' : Word}
    (hx : R.value x x') :
    (∀ j, R.AllPasses ((apCascade Num.b32 b x).1.get j) ((apCascade Num.b32 b' x').1.get j)) ∧
      R.value (apCascade Num.b32 b x).2 (apCascade Num.b32 b' x').2 := by
  obtain ⟨a0, v0⟩ := (h 0).process hx
  obtain ⟨a1, v1⟩ := (h 1).process v0
  obtain ⟨a2, v2⟩ := (h 2).process v1
  obtain ⟨a3, v3⟩ := (h 3).process v2
  refine ⟨fun j => ?_, v3⟩
  fin_cases j
  exacts [a0, a1, a2, a3]

theorem Channels.front {h h' : Channel32} (hh : R.Channels h h') {x x' : Word} (hx : R.value x x') :
    R.Channels (h.front Num.b32 (.ofProcess p) x).1 (h'.front Num.b32 (.ofProcess p) x').1 ∧
      R.value (h.front Num.b32 (.ofProcess p) x).2 (h'.front Num.b32 (.ofProcess p) x').2 := by
  obtain ⟨hbands, hv⟩ := preEq_related hh.bands hx
  obtain ⟨hcombs, hy⟩ := combBank_related hh.combs (R.read hh.pre)
  exact ⟨⟨hcombs, hh.allPasses, R.write_advance hh.pre hv, hbands, hh.toneLP, hh.toneLS⟩, hy⟩

theorem Channels.back {h h' : Channel32} (hh : R.Channels h h') {x x' : Word} (hx : R.value x x') :
    R.Channels (h.back Num.b32 (.ofProcess p) x).1 (h'.back Num.b32 (.ofProcess p) x').1 ∧
      R.value (h.back Num.b32 (.ofProcess p) x).2 (h'.back Num.b32 (.ofProcess p) x').2 := by
  obtain ⟨hallPasses, hd⟩ := apCascade_related hh.allPasses hx
  obtain ⟨hlp, ht⟩ := R.processSample hh.toneLP hd
  obtain ⟨hls, hu⟩ := R.processSample hh.toneLS ht
  exact ⟨⟨hh.combs, hallPasses, hh.pre, hh.bands, hlp, hls⟩, hu⟩

/-! ### The engine -/

theorem crossfeed_related {x x' y y' : Word} (hx : R.value x x') (hy : R.value y y') :
    R.value (crossfeed Num.b32 x y) (crossfeed Num.b32 x' y') :=
  R.add hx (R.mul_coef hy (R.finite_coef (by decide +kernel)))

theorem width_related {w w' l l' r r' : Word} (hw : R.coef w w') (hl : R.value l l') (hr : R.value r r') :
    R.value (width Num.b32 w l r).1 (width Num.b32 w' l' r').1 ∧
      R.value (width Num.b32 w l r).2 (width Num.b32 w' l' r').2 := by
  have hhalf : R.coef (F32.ofRat 0.5) (F32.ofRat 0.5) := R.finite_coef (by decide +kernel)
  have hmid := R.mul_coef (R.add hl hr) hhalf
  have hside := R.mul_coef (R.mul_coef (R.sub hl hr) hhalf) hw
  exact ⟨R.add hmid hside, R.sub hmid hside⟩

/-- One sample of related engines on related inputs (R190). -/
theorem Engines.sample {e e' : Engine32} (h : R.Engines e e') {l l' r r' : Word} (hl : R.value l l') (hr : R.value r r') :
    R.Engines (e.sample Num.b32 (.ofProcess p) l r).1 (e'.sample Num.b32 (.ofProcess p) l' r').1 ∧
      R.value (e.sample Num.b32 (.ofProcess p) l r).2.1 (e'.sample Num.b32 (.ofProcess p) l' r').2.1 ∧
      R.value (e.sample Num.b32 (.ofProcess p) l r).2.2 (e'.sample Num.b32 (.ofProcess p) l' r').2.2 := by
  obtain ⟨hfl, sl⟩ := (h.channels 0).front hl
  obtain ⟨hfr, sr⟩ := (h.channels 1).front hr
  obtain ⟨hbl, tl⟩ := hfl.back (crossfeed_related sl sr)
  obtain ⟨hbr, tr⟩ := hfr.back (crossfeed_related sr sl)
  obtain ⟨ul, ur⟩ := width_related h.width tl tr
  refine ⟨⟨fun c => ?_, h.width, h.dry, h.wet⟩, R.add (R.coef_mul h.dry hl) (R.coef_mul h.wet ul),
    R.add (R.coef_mul h.dry hr) (R.coef_mul h.wet ur)⟩
  fin_cases c
  · exact hbl
  · exact hbr

/-- A block of related engines on related host buffers (R183), where reading a cell of the block gives related values and
writing related values keeps host buffers related. -/
theorem Engines.processFrom {ch ns : Nat} (hch : ch = 1 ∨ ch = 2) {host : Memory Word → Memory Word → Prop}
    (hread : ∀ {m m'} a, host m m' → a < ch * ns → R.value (m.read 0#32 a) (m'.read 0#32 a))
    (hwrite : ∀ {m m' v v'} a, host m m' → R.value v v' → host (m.write 0#32 a v) (m'.write 0#32 a v'))
    (k i : Nat) (hik : i + k ≤ ns) {e e' : Engine32} (h : R.Engines e e') {hb hb' : Memory Word} (hhb : host hb hb') :
    R.Engines (Engine.processFrom Num.b32 (.ofProcess p) ch ns k i e hb).1
        (Engine.processFrom Num.b32 (.ofProcess p) ch ns k i e' hb').1 ∧
      host (Engine.processFrom Num.b32 (.ofProcess p) ch ns k i e hb).2
        (Engine.processFrom Num.b32 (.ofProcess p) ch ns k i e' hb').2 := by
  induction k generalizing i e e' hb hb' with
  | zero => exact ⟨h, hhb⟩
  | succ k ih =>
    have hblock : ∀ c, c < ch → hbIndex ns c i < ch * ns := fun c hc => by
      calc c * ns + i < c * ns + ns := by omega
        _ = (c + 1) * ns := (Nat.succ_mul c ns).symm
        _ ≤ ch * ns := Nat.mul_le_mul_right ns hc
    have hl := hread _ hhb (hblock 0 (by omega))
    rcases hch with rfl | rfl
    · obtain ⟨he, yl, -⟩ := h.sample hl hl
      exact ih (i + 1) (by omega) he (hwrite _ hhb yl)
    · have hr := hread _ hhb (hblock 1 (by omega))
      obtain ⟨he, yl, yr⟩ := h.sample hl hr
      exact ih (i + 1) (by omega) he (hwrite _ (hwrite _ hhb yl) yr)

end SampleRelation

end Sys2Proof.Machine
end

section
/-! ## Zero in, zero out (spec/43_reverb_engine.md rule R200)

A property that one sample keeps: sums of zeros, and products of a zero with a finite coefficient, are zeros of either sign. -/

namespace Sys2Proof.Machine

/-! ### The coefficients are finite -/

/-- One less a value in [0, 1] is finite. -/
theorem isFinite_one_sub {v : Word} (h : inRange 0#32 v (F32.ofRat 1) = true) :
    F32.isFinite (F32.sub (F32.ofRat 1) v) = true := by
  have hone : F32.isFinite (F32.ofRat 1) = true := by decide +kernel
  have hlo : F32.isFinite (F32.sub (F32.ofRat 1) (F32.ofRat 1)) = true := by decide +kernel
  have hhi : F32.isFinite (F32.sub (F32.ofRat 1) 0#32) = true := by decide +kernel
  exact ((inRange_iff hlo hhi).1 (inRange_sub (by decide) hone hone hhi hlo h)).1

/-- The gains of a legal `domeAmount` are finite (R223, R224). -/
theorem mapDerive_gains_finite {a : Word} (h : inRange 0#32 a (F32.ofRat 1) = true) :
    F32.isFinite (mapDerive Num.b32 a).wetGain = true ∧ F32.isFinite (mapDerive Num.b32 a).dryGain = true := by
  have hone : F32.isFinite (F32.ofRat 1) = true := by decide +kernel
  have hwetLo : F32.isFinite (F32.mul 0#32 (F32.ofRat 0.6)) = true := by decide +kernel
  have hwetHi : F32.isFinite (F32.mul (F32.ofRat 1) (F32.ofRat 0.6)) = true := by decide +kernel
  have hwet := inRange_mul (by decide) hone (by decide +kernel) (by decide +kernel) hwetLo hwetHi h
  have hlossHi : F32.le (F32.mul (F32.ofRat 1) (F32.ofRat 0.3)) (F32.ofRat 1) = true := by decide +kernel
  have hlossLo : F32.le 0#32 (F32.mul 0#32 (F32.ofRat 0.3)) = true := by decide +kernel
  have hloss := inRange_weaken hlossLo hlossHi
    (inRange_mul (by decide) hone (by decide +kernel) (by decide +kernel) (by decide +kernel) (by decide +kernel) h)
  exact ⟨((inRange_iff hwetLo hwetHi).1 hwet).1, isFinite_one_sub hloss⟩

/-! ### Zeros -/

theorem LineZero.write_advance {D : DelayLine Word} (hwf : D.buf.wf 0#32) (h : LineZero D) {v : Word}
    (hv : F32.isZero v = true) : LineZero (D.write Num.b32 v).advance := by
  intro i
  rw [DelayLine.advance_buf, DelayLine.write_buf, b32_zero]
  by_cases hi : i = D.w
  · rw [hi, Memory.read_write_same hwf]
    exact hv
  · rw [Memory.read_write_other hwf v hi]
    exact h i

/-- Zero values, finite coefficients and units with zero memory, as a relation that ignores its second argument. -/
def zeroRelation {p : BqProcess Word}
    (hzero : (BQ.ofProcess p).Zero Biquad.view (fun v => F32.isZero v = true)) : SampleRelation p where
  value x _ := F32.isZero x = true
  coef k _ := F32.isFinite k = true
  line D _ := D.buf.wf 0#32 ∧ LineZero D
  biquad b _ := b.mem = []
  finite_coef hk := hk
  add := F32.isZero_add
  sub := F32.isZero_sub
  neg := F32.isZero_neg
  mul_coef hx hk := F32.isZero_mul_left hk hx
  coef_mul hk hx := F32.isZero_mul hk hx
  read := fun ⟨_, hzeros⟩ => hzeros _
  write_advance := fun ⟨hwf, hzeros⟩ hv => ⟨Memory.wf_write hwf _ _, hzeros.write_advance hwf hv⟩
  processSample hb hx := hzero _ _ hb hx

section

variable {p : BqProcess Word} {hzero : (BQ.ofProcess p).Zero Biquad.view (fun v => F32.isZero v = true)}
  {cfg : Params Word} {e e' : Engine32}

/-- An engine with the invariant, zero memories and a finite width is fit for R200. -/
theorem EngineInv.zero_related (h : EngineInv cfg e) (hz : EngineZero e) (hwidth : F32.isFinite e.stereoWidth = true) :
    (zeroRelation hzero).Engines e e where
  channels c := by
    obtain ⟨hbands, hlp, hls⟩ := Channel.forall_biquads.1 (hz c).biquads
    exact {
      combs := fun k =>
        { line := ⟨(h.combs c k).line.canonical, ((hz c).combs k).1⟩
          store := ((hz c).combs k).2
          feedback := ((inRange_iff (by decide) (by decide +kernel)).1 (h.combs c k).feedback).1
          damping := F32.isFinite_of_inRange (h.combs c k).damping
          passing := isFinite_one_sub (h.combs c k).damping }
      allPasses := fun j =>
        { line := ⟨(h.allPasses c j).line.canonical, (hz c).allPasses j⟩
          coefficient := ((inRange_iff (by decide) (by decide +kernel)).1 (h.allPasses c j).coefficient).1 }
      pre := ⟨(h.preDelays c).canonical, (hz c).pre⟩
      bands := hbands
      toneLP := hlp
      toneLS := hls }
  width := hwidth
  dry := by rw [h.dry]; exact (mapDerive_gains_finite h.dome).2
  wet := by rw [h.wet]; exact (mapDerive_gains_finite h.dome).1

theorem SampleRelation.Engines.engineZero (h : (zeroRelation hzero).Engines e e') : EngineZero e := fun c =>
  { combs := fun k => ⟨((h.channels c).combs k).line.2, ((h.channels c).combs k).store⟩
    allPasses := fun j => ((h.channels c).allPasses j).line.2
    pre := (h.channels c).pre.2
    biquads := Channel.forall_biquads.2 ⟨(h.channels c).bands, (h.channels c).toneLP, (h.channels c).toneLS⟩ }

end

/-- Host cells below `n` hold zeros. -/
def ZeroBelow (n : Nat) (hb : Memory Word) : Prop := hb.wf 0#32 ∧ ∀ a < n, F32.isZero (hb.read 0#32 a) = true

theorem ZeroBelow.write {n : Nat} {hb : Memory Word} (h : ZeroBelow n hb) (a : Nat) {v : Word} (hv : F32.isZero v = true) :
    ZeroBelow n (hb.write 0#32 a v) := by
  obtain ⟨hwf, hcells⟩ := h
  refine ⟨Memory.wf_write hwf a v, fun b hb => ?_⟩
  by_cases hba : b = a
  · rw [hba, Memory.read_write_same hwf]
    exact hv
  · rw [Memory.read_write_other hwf v hba]
    exact hcells b hb

/-- Settles O42: reading the block gives zeros, so every sample answers zeros, and what is written back are zeros. -/
theorem zeroInZeroOut : Obligations.ZeroInZeroOut := by
  intro s ch ns h hch hon hz hwidth hzero hblock
  obtain ⟨hengine, -, hcells⟩ := (h.engine.zero_related (hzero := hzero) hz hwidth).processFrom hch
    (host := fun m _ => ZeroBelow (ch * ns) m) (fun a ⟨_, hcells⟩ ha => hcells a ha) (fun a hm hv => hm.write a hv) ns 0
    (Nat.zero_add ns).le (hb := s.hb) (hb' := s.hb) ⟨h.hostBuffer, hblock⟩
  exact ⟨_, exec_engProcess ns hch hon, hengine.engineZero, hcells⟩

end Sys2Proof.Machine
end

section
/-! ## A cleared engine and a freshly configured one (spec/43_reverb_engine.md rule R202, spec/10_state.md rule R33)

Both have the same settings and no memory, and differ in their cursors. Lines that differ by a rotation answer the same, so
the two engines do. -/

namespace Sys2Proof.Machine

/-- Lines in use that differ by a rotation: no sample tells them apart (R33). -/
structure RotatedInUse (maxCap : Nat) (D D' : DelayLine Word) : Prop where
  inv : LineInv maxCap D
  inv' : LineInv maxCap D'
  set : D.n ≠ none
  rotated : ∃ r, Rotated r D D'

theorem RotatedInUse.read {maxCap : Nat} {D D' : DelayLine Word} (h : RotatedInUse maxCap D D') :
    D.read Num.b32 = D'.read Num.b32 := by
  obtain ⟨r, hr⟩ := h.rotated
  exact (hr.read h.inv h.set).symm

theorem RotatedInUse.write_advance {maxCap : Nat} {D D' : DelayLine Word} (h : RotatedInUse maxCap D D') (v : Word) :
    RotatedInUse maxCap (D.write Num.b32 v).advance (D'.write Num.b32 v).advance := by
  obtain ⟨r, hr⟩ := h.rotated
  have hc : D.cap ≠ 0 := h.inv.cap_ne_zero h.set
  have hc' : D'.cap ≠ 0 := by
    obtain ⟨hcap, -⟩ := hr
    rwa [hcap]
  exact ⟨h.inv.write_advance hc v, h.inv'.write_advance hc' v, h.set, r, hr.write_advance h.inv h.inv' hc v⟩

/-- A line without memory is its settings turned by its cursor. -/
theorem LineInv.settings_rotatedInUse {maxCap : Nat} {D : DelayLine Word} (h : LineInv maxCap D) (hn : D.n ≠ none)
    (hb : D.buf = []) : RotatedInUse maxCap D.settings D where
  inv :=
    { capacity := h.capacity
      unconfigured := fun hc => ⟨rfl, (h.unconfigured hc).2⟩
      cursor := Nat.pos_of_ne_zero
      length := h.length
      canonical := Memory.wf_nil
      within := Memory.within_nil _ }
  inv' := h
  set := hn
  rotated := by
    have hw : D.w < D.cap := h.cursor (h.cap_ne_zero hn)
    refine ⟨D.w, rfl, rfl, ?_, fun j _ => ?_⟩
    · show D.w = (0 + D.w) % D.cap
      rw [Nat.zero_add, Nat.mod_eq_of_lt hw]
    · rw [hb]
      rfl

/-- Equal values, coefficients and biquads, and lines up to rotation. -/
def rotationRelation (p : BqProcess Word) (maxCap : Nat) : SampleRelation p where
  value := Eq
  coef := Eq
  line := RotatedInUse maxCap
  biquad := Eq
  finite_coef _ := rfl
  add := congrArg₂ F32.add
  sub := congrArg₂ F32.sub
  neg := congrArg F32.neg
  mul_coef := congrArg₂ F32.mul
  coef_mul := congrArg₂ F32.mul
  read h := h.read
  write_advance h hv := hv ▸ h.write_advance _
  processSample hb hx := by rw [hb, hx]; exact ⟨rfl, rfl⟩

theorem LineAs.set {maxMs delayMs : Rat} {sr : DWord} {D : DelayLine Word} (h : LineAs maxMs delayMs sr D) : D.n ≠ none := by
  rw [h.2]
  nofun

theorem Biquad.reset_of_mem_nil {S : Type} {b : Biquad S} (h : b.mem = []) : b.reset = b := by
  rw [Biquad.reset, ← h]

/-- A configured engine without memory is, but for a rotation of its lines, its settings. -/
theorem Engine.Blank.settings_related {cfg : Params Word} {sr : DWord} {e : Engine32} (hblank : e.Blank) (h : EngineInv cfg e)
    (hr : e.sampleRate = some sr) (p : BqProcess Word) : (rotationRelation p cfg.maxCap).Engines e.settings e where
  channels c := by
    rw [Engine.settings_channel]
    have hc := h.configuredAs sr hr c
    have hpreSet : (e.pre c).n ≠ none := by
      rw [hc.preLength]
      nofun
    obtain ⟨hcombs, hallPasses, hpre⟩ := Engine.forall_lines.1 hblank.lines
    obtain ⟨hbands, hlp, hls⟩ := Channel.forall_biquads.1 (hblank.biquads c)
    constructor
    case combs =>
      intro k
      rw [Channel.settings, Bank8.get_map]
      exact ⟨(h.combs c k).line.settings_rotatedInUse (hc.combs k).set (hcombs c k), (hblank.stores c k).symm,
        rfl, rfl, rfl⟩
    case allPasses =>
      intro j
      rw [Channel.settings, Bank4.get_map]
      exact ⟨(h.allPasses c j).line.settings_rotatedInUse (hc.allPasses j).set (hallPasses c j), rfl⟩
    case pre => exact (h.preDelays c).settings_rotatedInUse hpreSet (hpre c)
    case bands =>
      intro b
      rw [Channel.settings, Bank7.get_map]
      exact Biquad.reset_of_mem_nil (hbands b)
    case toneLP => exact Biquad.reset_of_mem_nil hlp
    case toneLS => exact Biquad.reset_of_mem_nil hls
  width := rfl
  dry := rfl
  wet := rfl

/-! ### Blocks -/

/-- States that run `ENG.PROCESS` alike: related engines, the flag and the attached biquad the same. -/
structure ProcessesAlike (maxCap : Nat) (s t : State) : Prop where
  biquad : t.biquad = s.biquad
  flag : t.eng.configured = s.eng.configured
  engines : (rotationRelation (processOf s.biquad) maxCap).Engines s.eng t.eng

section

variable {maxCap : Nat} {s t : State}

/-- A block on such states is refused in both or in neither, leaves such states, and the same host buffer. -/
theorem ProcessesAlike.block (h : ProcessesAlike maxCap s t) (ch ns : Nat) (hb : Memory Word) :
    commandCheck (t.withHb hb) (.engProcess ch ns) = commandCheck (s.withHb hb) (.engProcess ch ns) ∧
      (commandCheck (s.withHb hb) (.engProcess ch ns) = none →
        ProcessesAlike maxCap (commandEffect (s.withHb hb) (.engProcess ch ns))
            (commandEffect (t.withHb hb) (.engProcess ch ns)) ∧
          (commandEffect (s.withHb hb) (.engProcess ch ns)).hb = (commandEffect (t.withHb hb) (.engProcess ch ns)).hb) := by
  obtain ⟨hbiquad, hflag, hengines⟩ := h
  refine ⟨?_, fun hgo => ?_⟩
  · exact congrArg (fun on : Bool => firstRefusal [checkChannels ch, if on then none else some .notConfigured]) hflag
  · obtain ⟨hch, -⟩ := commandCheck_engProcess.1 hgo
    obtain ⟨hengines', hhb⟩ := hengines.processFrom hch (host := Eq) (fun a hm _ => congrArg (Memory.read 0#32 · a) hm)
      (fun a hm hv => by rw [hm, hv]) ns 0 (Nat.zero_add ns).le (hb := hb) rfl
    have hflag' : (commandEffect (t.withHb hb) (.engProcess ch ns)).eng.configured =
        (commandEffect (s.withHb hb) (.engProcess ch ns)).eng.configured := by
      rw [commandEffect_configured _ (i := .engProcess ch ns) nofun, commandEffect_configured _ (i := .engProcess ch ns) nofun]
      exact hflag
    have heffect : commandEffect (t.withHb hb) (.engProcess ch ns) =
        (t.withEng (t.eng.process Num.b32 (biquadOf s.biquad) ch ns hb).1).withHb
          (t.eng.process Num.b32 (biquadOf s.biquad) ch ns hb).2 := by
      rw [← hbiquad]
      rfl
    rw [heffect] at hflag' ⊢
    exact ⟨⟨hbiquad, hflag', hengines'⟩, hhb⟩

/-- Such states leave the same host buffers, block by block. -/
theorem ProcessesAlike.blockOutputs_eq (blocks : List (Nat × Nat × Memory Word)) (h : ProcessesAlike maxCap s t) :
    blockOutputs blocks s = blockOutputs blocks t := by
  induction blocks generalizing s t with
  | nil => rfl
  | cons block blocks ih =>
    obtain ⟨ch, ns, hb⟩ := block
    obtain ⟨hcheck, hafter⟩ := h.block ch ns hb
    rw [blockOutputs, blockOutputs, exec_eq_unlessRefused, exec_eq_unlessRefused, hcheck]
    cases hgo : commandCheck (s.withHb hb) (.engProcess ch ns) with
    | some r => rfl
    | none =>
      obtain ⟨halike, hhb⟩ := hafter hgo
      rw [unlessRefused_none, unlessRefused_none]
      dsimp only
      rw [ih halike, hhb]

end

/-! ### The capacities of a configured engine pass the check again -/

/-- A property of the maxima that `ENG.CONFIGURE` checks is one of every line's (R181, R275). -/
theorem forall_lineMaxima {cfg : Params Word} {P : Rat → Prop} (hcombs : ∀ c k, P ((cfg.combMaxMs.get c).get k))
    (hallPasses : ∀ c j, P ((cfg.apMaxMs.get c).get j)) (hpre : ∀ c, P (cfg.preDelayMaxMs.get c)) :
    ∀ m ∈ lineMaxima cfg, P m := by
  have hcomb : ∀ c, ∀ m ∈ (cfg.combMaxMs.get c).toList, P m := fun c m hm => by
    obtain ⟨k, rfl⟩ := Bank8.mem_toList.1 hm
    exact hcombs c k
  have hap : ∀ c, ∀ m ∈ (cfg.apMaxMs.get c).toList, P m := fun c m hm => by
    obtain ⟨j, rfl⟩ := Bank4.mem_toList.1 hm
    exact hallPasses c j
  simp only [lineMaxima, List.forall_mem_append, List.forall_mem_singleton]
  exact ⟨⟨⟨hcomb 0, hap 0⟩, hpre 0⟩, ⟨hcomb 1, hap 1⟩, hpre 1⟩

/-- The capacity a line in use was given is in range. -/
theorem LineInv.capacity_in_range {maxCap : Nat} {D : DelayLine Word} (h : LineInv maxCap D) (hc : D.cap ≠ 0) {c : Int}
    (hcap : D.cap = c.toNat) : 2 ≤ c ∧ c ≤ maxCap := by
  have := h.capacity
  omega

/-- A configured engine's rate passes every check of `ENG.CONFIGURE` but the hint's. -/
theorem EngineInv.checkEngConfigure {cfg : Params Word} {sr : DWord} {e : Engine32} (h : EngineInv cfg e)
    (hr : e.sampleRate = some sr) {hint : Int} (hhint : 1 ≤ hint) : checkEngConfigure cfg sr hint = none := by
  have hc := h.configuredAs sr hr
  have hsized := h.sized sr hr
  refine checkEngConfigure_eq_none.2 ⟨h.rate sr hr, hhint, forall_lineMaxima (fun c k => ?_) (fun c j => ?_) fun c => ?_⟩
  · exact (h.combs c k).line.capacity_in_range (hsized _ (e.comb_mem_lines c k)) ((hc c).combs k).1
  · exact (h.allPasses c j).line.capacity_in_range (hsized _ (e.ap_mem_lines c j)) ((hc c).allPasses j).1
  · exact (h.preDelays c).capacity_in_range (hsized _ (e.pre_mem_lines c)) (hc c).preCap

/-- Settles O43: `ENG.CONFIGURE` leaves the settings of the cleared engine, which answer as it does. -/
theorem clearEqualsFreshConfigure : Obligations.ClearEqualsFreshConfigure := by
  intro s sr hint h hr hhint
  have hcheck := h.engine.checkEngConfigure hr hhint
  refine ⟨_, _, execEngClear_eq s, exec_engConfigure_iff.2 ⟨hcheck, rfl⟩, fun blocks => ?_⟩
  have hsettings := Engine.clear_settings (processOf s.biquad) s.eng
  have hconfigure : s.eng.configure Num.b32 (biquadOf s.biquad) s.cfg sr =
      (s.eng.clear Num.b32 (biquadOf s.biquad)).settings :=
    ((h.engine.configuredAt hr).configure_eq (processOf s.biquad)).trans hsettings.symm
  have halike : ProcessesAlike s.cfg.maxCap (s.withEng (s.eng.clear Num.b32 (biquadOf s.biquad)).settings)
      (s.withEng (s.eng.clear Num.b32 (biquadOf s.biquad))) :=
    ⟨rfl, rfl, (Engine.clear_blank _ s.eng).settings_related (h.engine.clear _) hr _⟩
  rw [hconfigure]
  exact (halike.blockOutputs_eq blocks).symm

end Sys2Proof.Machine
end

section
/-! ## The derived coefficients (spec/44_parameter_mapper.md rules R221 to R230, R234)

Every derived quantity is a constant, or a constant plus or minus a product of the amount, one rounding for each operator.
R234 follows from monotone rounding: the product by a constant runs from a zero to the constant, and adding it to a constant,
or taking it from one, keeps or reverses the order. -/

namespace Sys2Proof.Machine

/-- The formulas of R223, R224, R227, R228 and R229 in binary32, each constant the word nearest its decimal. -/
theorem mapDerive_b32 (a : Word) :
    mapDerive Num.b32 a =
      { wetGain := F32.mul a 0x3F19999A#32
        dryGain := F32.sub 0x3F800000#32 (F32.mul a 0x3E99999A#32)
        combFeedback := F32.add 0x3F400000#32 (F32.mul a 0x3DF5C28F#32)
        combDamping := F32.add 0x3E19999A#32 (F32.mul a 0x3EB33333#32)
        lpCutoff := F32.sub 0x461C4000#32 (F32.mul a 0x459C4000#32) } := by
  have hwet : F32.ofRat 0.6 = 0x3F19999A#32 := by decide +kernel
  have hone : F32.ofRat 1 = 0x3F800000#32 := by decide +kernel
  have hdry : F32.ofRat 0.3 = 0x3E99999A#32 := by decide +kernel
  have hfb : F32.ofRat 0.75 = 0x3F400000#32 := by decide +kernel
  have hfbSlope : F32.ofRat 0.12 = 0x3DF5C28F#32 := by decide +kernel
  have hdamp : F32.ofRat 0.15 = 0x3E19999A#32 := by decide +kernel
  have hdampSlope : F32.ofRat 0.35 = 0x3EB33333#32 := by decide +kernel
  have hcutoff : F32.ofRat 10000 = 0x461C4000#32 := by decide +kernel
  have hcutoffSlope : F32.ofRat 5000 = 0x459C4000#32 := by decide +kernel
  simp only [mapDerive, b32_ofDecimal, b32_add, b32_sub, b32_mul, hwet, hone, hdry, hfb, hfbSlope, hdamp, hdampSlope, hcutoff,
    hcutoffSlope]

/-! ### Ranges -/

/-- The product of finite numbers does not depend on their order. -/
theorem F32.mul_comm_of_finite {a b : Word} (ha : F32.isFinite a = true) (hb : F32.isFinite b = true) :
    F32.mul a b = F32.mul b a := by
  rw [F32.mul_of_finite ha hb, F32.mul_of_finite hb ha, Nat.mul_comm, bne_comm]

section

variable {a c k lo hi : Word} (ha : inRange 0#32 a 0x3F800000#32 = true) (hc : F32.isFinite c = true) (hpos : 0 ≤ F32.scaled c)
include ha hc hpos

/-- A constant times an amount in [0, 1] runs from 0 to the constant. -/
theorem inRange_amount_mul : inRange 0#32 (F32.mul a c) c = true := by
  have hunit : F32.mul 0x3F800000#32 c = c := by rw [F32.mul_comm_of_finite (by decide) hc, F32.mul_unit hc]
  have hzero : F32.isZero (F32.mul 0#32 c) = true := F32.isZero_mul_left hc (by decide)
  have hfinite := F32.isFinite_of_isZero hzero
  have hle : F32.le 0#32 (F32.mul 0#32 c) = true :=
    F32.le_iff.2 ⟨by decide, F32.not_isNaN_of_isFinite hfinite, (F32.orderKey_of_isZero hzero).ge⟩
  have hmul := inRange_mul (by decide) (by decide) hc hpos hfinite (hunit.symm ▸ hc) ha
  rw [hunit] at hmul
  exact inRange_weaken hle (F32.le_refl (F32.not_isNaN_of_isFinite hc)) hmul

/-- Added to a constant, it runs up from that constant. -/
theorem inRange_add_amount_mul (hk : F32.isFinite k = true) (hlo : F32.add k 0#32 = lo) (hhi : F32.add k c = hi)
    (hlof : F32.isFinite lo = true) (hhif : F32.isFinite hi = true) : inRange lo (F32.add k (F32.mul a c)) hi = true := by
  subst hlo hhi
  exact inRange_add (by decide) hc hk hlof hhif (inRange_amount_mul ha hc hpos)

/-- Taken from a constant, it runs down from that constant. -/
theorem inRange_sub_amount_mul (hk : F32.isFinite k = true) (hlo : F32.sub k c = lo) (hhi : F32.sub k 0#32 = hi)
    (hlof : F32.isFinite lo = true) (hhif : F32.isFinite hi = true) : inRange lo (F32.sub k (F32.mul a c)) hi = true := by
  subst hlo hhi
  exact inRange_sub (by decide) hc hk hhif hlof (inRange_amount_mul ha hc hpos)

end

/-- Settles O35: the amounts 0 and 1 give the end points, and rounding is monotone in between. -/
theorem derivedCoefficientsAreBounded : Obligations.DerivedCoefficientsAreBounded := by
  intro a ha
  rw [mapDerive_b32]
  refine ⟨?feedback, ?damping, ?wet, ?dry, ?cutoff⟩
  case feedback =>
    have hlo : F32.add 0x3F400000#32 0#32 = 0x3F400000#32 := by decide +kernel
    have hhi : F32.add 0x3F400000#32 0x3DF5C28F#32 = 0x3F5EB852#32 := by decide +kernel
    exact inRange_add_amount_mul ha (by decide) (by decide +kernel) (by decide) hlo hhi (by decide) (by decide)
  case damping =>
    have hlo : F32.add 0x3E19999A#32 0#32 = 0x3E19999A#32 := by decide +kernel
    have hhi : F32.add 0x3E19999A#32 0x3EB33333#32 = 0x3F000000#32 := by decide +kernel
    exact inRange_add_amount_mul ha (by decide) (by decide +kernel) (by decide) hlo hhi (by decide) (by decide)
  case wet => exact inRange_amount_mul ha (by decide) (by decide +kernel)
  case dry =>
    have hlo : F32.sub 0x3F800000#32 0x3E99999A#32 = 0x3F333333#32 := by decide +kernel
    have hhi : F32.sub 0x3F800000#32 0#32 = 0x3F800000#32 := by decide +kernel
    exact inRange_sub_amount_mul ha (by decide) (by decide +kernel) (by decide) hlo hhi (by decide) (by decide)
  case cutoff =>
    have hlo : F32.sub 0x461C4000#32 0x459C4000#32 = 0x459C4000#32 := by decide +kernel
    have hhi : F32.sub 0x461C4000#32 0#32 = 0x461C4000#32 := by decide +kernel
    exact inRange_sub_amount_mul ha (by decide) (by decide +kernel) (by decide) hlo hhi (by decide) (by decide)

/-! ### The setters' clamps do not reach a derived coefficient -/

/-- A clamp leaves alone a value between its bounds that lies above a number above zero. -/
theorem F32.clamp_eq_self {lo l v h hi : Word} (hv : inRange l v h = true) (hl : F32.le lo l = true) (hh : F32.le h hi = true)
    (hpos : F32.lt 0#32 l = true) : F32.clamp v lo hi = v := by
  obtain ⟨hlv, hvh⟩ := Bool.and_eq_true_iff.1 hv
  rcases F32.clamp_of_inRange (F32.le_trans hl hlv) (F32.le_trans hvh hh) with heq | ⟨hzero, -⟩
  · exact heq
  · obtain ⟨-, -, hkey⟩ := F32.le_iff.1 hlv
    obtain ⟨-, -, hkeyPos⟩ := F32.lt_iff.1 hpos
    rw [F32.orderKey_of_isZero hzero] at hkey
    rw [F32.orderKey_of_isZero (by decide : F32.isZero 0#32 = true)] at hkeyPos
    omega

section

variable {a : Word} (ha : inRange 0#32 a 0x3F800000#32 = true)
include ha

/-- `setFeedback` stores the derived feedback as it is (R143, R227, R234). -/
theorem clampFb_combFeedback : clampFb Num.b32 (mapDerive Num.b32 a).combFeedback = (mapDerive Num.b32 a).combFeedback := by
  obtain ⟨hfb, -, -, -, -⟩ := derivedCoefficientsAreBounded a ha
  rw [clampFb_b32]
  exact F32.clamp_eq_self hfb (by decide) (by decide) (by decide)

/-- `setDamping` stores the derived damping as it is (R144, R228, R234). -/
theorem clampDamp_combDamping : clampDamp Num.b32 (mapDerive Num.b32 a).combDamping = (mapDerive Num.b32 a).combDamping := by
  obtain ⟨-, hdamp, -, -, -⟩ := derivedCoefficientsAreBounded a ha
  rw [clampDamp_b32]
  exact F32.clamp_eq_self hdamp (by decide) (by decide) (by decide)

end

end Sys2Proof.Machine
end

section
/-! ## The parameter commands (spec/44_parameter_mapper.md rules R225, R226, R230 to R233, R237, R238)

Both write parameter registers of the engine and end in `map_apply`, so what they leave of everything else is what `map_apply`
leaves. -/

namespace Sys2Proof.Machine

/-- An engine with its four parameter registers written. -/
def Engine.writeParameters (e : Engine32) (preset : Preset) (domeAmount stereoWidth bassBoost : Word) : Engine32 :=
  { e with preset := preset, domeAmount := domeAmount, stereoWidth := stereoWidth, bassBoost := bassBoost }

/-- A parameter command's effect on the engine is to write the parameter registers and run `map_apply` (R232, R233). -/
theorem commandEffect_parameters (s : State) {i : Instr} (hi : (∃ a, i = .engSetDome a) ∨ ∃ id, i = .engSetPreset id) :
    ∃ preset domeAmount stereoWidth bassBoost, (commandEffect s i).eng =
      (s.eng.writeParameters preset domeAmount stereoWidth bassBoost).mapApply Num.b32 (biquadOf s.biquad) s.cfg := by
  rcases hi with ⟨a, rfl⟩ | ⟨id, rfl⟩
  · exact ⟨s.eng.preset, clampDome Num.b32 a, s.eng.stereoWidth, s.eng.bassBoost, rfl⟩
  · exact ⟨id, _, _, _, rfl⟩

/-- `e'` is `e` with everything that depends on `domeAmount` alone derived as `d` (R238, first half). -/
structure Engine.Rederives (d : Derived Word) (e e' : Engine32) : Prop where
  amount : e'.domeAmount = e.domeAmount
  preset : e'.preset = e.preset
  width : e'.stereoWidth = e.stereoWidth
  bass : e'.bassBoost = e.bassBoost
  rate : e'.sampleRate = e.sampleRate
  flag : e'.configured = e.configured
  wet : e'.wetGain = d.wetGain
  dry : e'.dryGain = d.dryGain
  cutoff : e'.lpCutoff = d.lpCutoff
  feedback : ∀ c k, (e'.comb c k).fb = clampFb Num.b32 d.combFeedback
  damping : ∀ c k, (e'.comb c k).damp = clampDamp Num.b32 d.combDamping
  memory : ∀ c, (e'.ch.get c).memory = (e.ch.get c).memory

theorem Engine.mapApply_rederives (p : BqProcess Word) (cfg : Params Word) (e : Engine32) :
    Engine.Rederives (mapDerive Num.b32 e.domeAmount) e (e.mapApply Num.b32 (.ofProcess p) cfg) := by
  obtain ⟨hdome, hpreset, hwidth, hbass, hrate, hflag⟩ := Engine.mapApply_kept p cfg e
  obtain ⟨hwet, hdry, hcutoff⟩ := Engine.mapApply_derived p cfg e
  have hcomb := Engine.mapApply_comb p cfg e
  exact ⟨hdome, hpreset, hwidth, hbass, hrate, hflag, hwet, hdry, hcutoff, fun c k => congrArg Comb.fb (hcomb c k),
    fun c k => congrArg Comb.damp (hcomb c k), Engine.mapApply_memory p cfg e⟩

/-! ### `ENG.SETDOME` -/

/-- `setDomeAmount`'s clamp (R232). -/
theorem clampDome_clampsIntoZeroTo {a : Word} (ha : F32.isNaN a = false) :
    ClampsIntoZeroTo 0x3F800000#32 a (clampDome Num.b32 a) := by
  rw [show clampDome Num.b32 a = F32.clamp a 0#32 0x3F800000#32 from clampDamp_b32 a]
  exact F32.clamp_zero_to ha (by decide)

/-- Settles O32: the stored amount is the clamped operand, and the rest is what `map_apply` makes of it. -/
theorem engSetDomeRederives : Obligations.EngSetDomeRederives := by
  intro a s
  constructor
  · intro hnan
    exact exec_refused_iff.2 (by rw [commandCheck, checkNotNaN, if_pos hnan])
  · intro ha
    have hexec : exec (.engSetDome a) s = .next (commandEffect s (.engSetDome a)) :=
      exec_next_iff.2 ⟨checkNotNaN_eq_none.2 ha, rfl⟩
    have h := Engine.mapApply_rederives (processOf s.biquad) s.cfg
      (s.eng.writeParameters s.eng.preset (clampDome Num.b32 a) s.eng.stereoWidth s.eng.bassBoost)
    have hamount := clampDome_clampsIntoZeroTo ha
    rw [← show _ = clampDome Num.b32 a from h.amount] at hamount
    obtain ⟨hbelow, habove, hbetween⟩ := hamount
    rw [mapDerive_b32, ← h.amount] at h
    exact ⟨_, hexec, hbelow, habove, hbetween, h.wet, h.dry, h.cutoff, h.feedback, h.damping, h.memory, h.preset, h.width,
      h.bass, h.rate, h.flag⟩

/-! ### `ENG.SETPRESET` -/

/-- The preset table of R230, each decimal the word nearest it. -/
def presetWords : Preset → PresetRow Word
  | .arena => ⟨0x3F19999A#32, 0x3F4CCCCD#32, 0x3FC00000#32⟩
  | .stadium => ⟨0x3F4CCCCD#32, 0x3F800000#32, 0x3FE66666#32⟩
  | .hall => ⟨0x3ECCCCCD#32, 0x3F19999A#32, 0x3F99999A#32⟩
  | .club => ⟨0x3E800000#32, 0x3F000000#32, 0x40000000#32⟩

theorem presetRow_b32 (id : Preset) : presetRow Num.b32 id = presetWords id := by
  cases id <;> decide +kernel

/-- What each row derives (V-MAP-2). -/
def presetDerived : Preset → Derived Word
  | .arena => ⟨0x3EB851EC#32, 0x3F51EB85#32, 0x3F526E98#32, 0x3EB851EC#32, 0x45DAC000#32⟩
  | .stadium => ⟨0x3EF5C290#32, 0x3F428F5C#32, 0x3F589375#32, 0x3EDC28F6#32, 0x45BB8000#32⟩
  | .hall => ⟨0x3E75C290#32, 0x3F6147AE#32, 0x3F4C49BA#32, 0x3E947AE2#32, 0x45FA0000#32⟩
  | .club => ⟨0x3E19999A#32, 0x3F6CCCCD#32, 0x3F47AE14#32, 0x3E733334#32, 0x4608B800#32⟩

theorem mapDerive_presetWords (id : Preset) : mapDerive Num.b32 (presetWords id).domeAmount = presetDerived id := by
  rw [mapDerive_b32]
  cases id <;> decide +kernel

theorem presetWords_inRange (id : Preset) : inRange 0#32 (presetWords id).domeAmount 0x3F800000#32 = true := by
  cases id <;> decide

/-- What `ENG.SETPRESET` leaves of the engine (R233), the row written as words. -/
theorem Engine.setPreset_eq (B : BQ Word (Biquad Word)) (cfg : Params Word) (e : Engine32) (id : Preset) :
    e.setPreset Num.b32 B cfg id =
      (e.writeParameters id (presetWords id).domeAmount (presetWords id).stereoWidth (presetWords id).bassBoost).mapApply
        Num.b32 B cfg := by
  rw [Engine.setPreset, presetRow_b32, Engine.writeParameters]

/-- Settles O34: the registers written are the table's row, and the rest is what `map_apply` makes of its amount, which the
setters' clamps leave alone. -/
theorem engSetPresetLoadsItsRow : Obligations.EngSetPresetLoadsItsRow := by
  intro id s
  have hexec := execEngSetPreset_eq s id
  rw [Engine.setPreset_eq] at hexec
  have hfb := clampFb_combFeedback (presetWords_inRange id)
  have hdamp := clampDamp_combDamping (presetWords_inRange id)
  rw [mapDerive_presetWords] at hfb hdamp
  have h : Engine.Rederives (presetDerived id) _ _ := mapDerive_presetWords id ▸
    Engine.mapApply_rederives (processOf s.biquad) s.cfg (s.eng.writeParameters id (presetWords id).domeAmount
      (presetWords id).stereoWidth (presetWords id).bassBoost)
  refine ⟨_, hexec, h.preset, ?row, ?derived, fun c k => ?combs, h.memory, h.rate, h.flag⟩
  case row =>
    refine (congrArg₂ Prod.mk h.amount (congrArg₂ Prod.mk h.width h.bass)).trans ?_
    cases id <;> rfl
  case derived =>
    refine (congrArg₂ Prod.mk h.wet (congrArg₂ Prod.mk h.dry h.cutoff)).trans ?_
    cases id <;> rfl
  case combs =>
    refine (congrArg₂ Prod.mk ((h.feedback c k).trans hfb) ((h.damping c k).trans hdamp)).trans ?_
    cases id <;> rfl

/-! ### Pre-delay lengths and tone filters -/

/-- The length of R225 and R226, its milliseconds written out. -/
theorem preDelayLength_b32 (a : Word) (c : Fin 2) (sr : DWord) (cap : Nat) :
    preDelayLength Num.b32 a c sr cap =
      (max 1 (min (F32.toRat a * (if c = 0 then 25 else 30) * F64.toRat sr / 1000).floor ((cap : Int) - 1))).toNat := by
  fin_cases c <;> rfl

/-- Settles O33: configured or not, the clause is the rate-dependent part of `map_apply`, done or skipped. -/
theorem parameterCommandsSetPreDelays : Obligations.ParameterCommandsSetPreDelays := by
  intro s t i hi h
  obtain ⟨-, rfl⟩ := exec_next_iff.1 h
  obtain ⟨preset, amount, width, bass, heng⟩ := commandEffect_parameters s hi
  have hmapped := Engine.mapApply_rederives (processOf s.biquad) s.cfg (s.eng.writeParameters preset amount width bass)
  rw [heng]
  constructor
  · intro sr hon hrate c
    obtain ⟨hlength, hregister, hlp, hls⟩ := Engine.mapApply_rate (processOf s.biquad) s.cfg
      (s.eng.writeParameters preset amount width bass) hon hrate c
    refine ⟨?_, hregister.trans hlength.symm, ?_, ?_⟩
    · rw [hmapped.amount, ← preDelayLength_b32]
      exact hlength
    · rw [hmapped.cutoff]
      exact hlp
    · rw [hmapped.bass]
      exact hls
  · intro hoff
    have hidle := Engine.mapApply_idle (processOf s.biquad) s.cfg (s.eng.writeParameters preset amount width bass) hoff
    refine ⟨(hidle 0).2.1, fun c => ?_⟩
    obtain ⟨hlength, -, hlp, hls⟩ := hidle c
    exact ⟨hlength, hlp, hls⟩

/-! ### Who writes the parameter registers -/

/-- Engines with equal settings have equal all-pass coefficients. -/
theorem Engine.ap_g_of_settings {e e' : Engine32} (h : e'.settings = e.settings) (c : Fin 2) (j : Fin 4) :
    (e'.ap c j).g = (e.ap c j).g := by
  obtain ⟨-, hap, -⟩ := Channel.units_of_settings (Engine.channels_of_settings h c)
  rw [Engine.ap_eq, Engine.ap_eq, ← AllPass.settings_g, hap j, AllPass.settings_g]

/-- No command changes an all-pass coefficient of the engine (R231). -/
theorem commandEffect_ap_g (s : State) (i : Instr) (c : Fin 2) (j : Fin 4) :
    ((commandEffect s i).eng.ap c j).g = (s.eng.ap c j).g := by
  have mapped : ∀ e : Engine32, ((e.mapApply Num.b32 (biquadOf s.biquad) s.cfg).ap c j).g = (e.ap c j).g := fun e =>
    congrArg AllPass.g (Engine.mapApply_ap (processOf s.biquad) s.cfg e c j)
  cases i with
  | engConfigure sr hint => exact (mapped _).trans (by simp [Channel.configure])
  | engSetDome a => exact mapped _
  | engSetPreset id => exact mapped _
  | engProcess ch ns => exact Engine.ap_g_of_settings (Engine.processFrom_settings _ ch ns ns 0 s.eng s.hb) c j
  | engClear => exact Engine.ap_g_of_settings (Engine.clear_settings _ s.eng) c j
  | _ => rfl

/-- Only `ENG.SETPRESET` writes preset, width and bass (R233, R237). -/
theorem commandEffect_preset_width_bass (s : State) {i : Instr} (hi : ∀ id, i ≠ .engSetPreset id) :
    (commandEffect s i).eng.preset = s.eng.preset ∧ (commandEffect s i).eng.stereoWidth = s.eng.stereoWidth ∧
      (commandEffect s i).eng.bassBoost = s.eng.bassBoost := by
  have kept : ∀ e' : Engine32, e'.settings = s.eng.settings →
      e'.preset = s.eng.preset ∧ e'.stereoWidth = s.eng.stereoWidth ∧ e'.bassBoost = s.eng.bassBoost := fun e' h => by
    obtain ⟨hpreset, -, hwidth, hbass, -⟩ := Engine.registers_of_settings h
    exact ⟨hpreset, hwidth, hbass⟩
  cases i with
  | engConfigure sr hint => exact ⟨rfl, rfl, rfl⟩
  | engSetDome a =>
    obtain ⟨-, hpreset, hwidth, hbass, -, -⟩ := Engine.mapApply_kept (processOf s.biquad) s.cfg
      { s.eng with domeAmount := clampDome Num.b32 a }
    exact ⟨hpreset, hwidth, hbass⟩
  | engSetPreset id => exact absurd rfl (hi id)
  | engProcess ch ns => exact kept _ (Engine.processFrom_settings _ ch ns ns 0 s.eng s.hb)
  | engClear => exact kept _ (Engine.clear_settings _ s.eng)
  | _ => exact ⟨rfl, rfl, rfl⟩

/-- Only the two parameter commands write `domeAmount` (R232, R233). -/
theorem commandEffect_domeAmount (s : State) {i : Instr} (hpreset : ∀ id, i ≠ .engSetPreset id)
    (hdome : ∀ a, i ≠ .engSetDome a) : (commandEffect s i).eng.domeAmount = s.eng.domeAmount := by
  have kept : ∀ e' : Engine32, e'.settings = s.eng.settings → e'.domeAmount = s.eng.domeAmount := fun e' h => by
    obtain ⟨-, hamount, -⟩ := Engine.registers_of_settings h
    exact hamount
  cases i with
  | engSetDome a => exact absurd rfl (hdome a)
  | engSetPreset id => exact absurd rfl (hpreset id)
  | engProcess ch ns => exact kept _ (Engine.processFrom_settings _ ch ns ns 0 s.eng s.hb)
  | engClear => exact kept _ (Engine.clear_settings _ s.eng)
  | _ => rfl

/-- Settles O50: one rule per register, read off the command's effect. -/
theorem parameterRegistersHaveTheirWriters : Obligations.ParameterRegistersHaveTheirWriters := by
  intro i s t h
  obtain ⟨-, rfl⟩ := exec_next_iff.1 h
  exact ⟨commandEffect_ap_g s i, commandEffect_preset_width_bass s, commandEffect_domeAmount s⟩

end Sys2Proof.Machine
end

section
/-! ## Refused commands and idle steps (spec/60_exceptions.md rules R271, R276, R277, R286) -/

namespace Sys2Proof.Machine

/-- With no whole command on any port there is no next command (R106). -/
theorem nextCommand_eq_none {queue : List (Port × Word)} (h : ∀ p, nextFrame p queue = none) : nextCommand queue = none := by
  have hport : nextPort queue = none := List.find?_eq_none.2 fun p _ => by simp [h p]
  rw [nextCommand, hport]

/-- Settles O10: with no next command a step is idle. -/
theorem idleCoreHoldsItsState : Obligations.IdleCoreHoldsItsState := fun _ h => step_idle (nextCommand_eq_none h)

/-- After a refusal the session goes on without the refused words (R277). -/
theorem proceed_of_refused {s : State} {r : Refusal} (h : step s = .refused r) : proceed s = s.discard := by
  rw [proceed, h]

/-- Settles O9: an idle step is not refused, so there was a next command, and its words are what is discarded. -/
theorem refusedCommandLeavesTheState : Obligations.RefusedCommandLeavesTheState := by
  intro s r h
  rcases step_cases s with ⟨-, hidle⟩ | ⟨p, ws, hnext, -⟩
  · rw [hidle] at h
    cases h
  · exact ⟨p, ws, hnext, (proceed_of_refused h).trans (State.discard_eq hnext)⟩

end Sys2Proof.Machine
end

section
/-! ## The table of refusal reasons (spec/60_exceptions.md rules R272, R273)

A command's reasons are those of its check, and a check's reasons are those of the tests it is made of. -/

namespace Sys2Proof.Machine

/-! ### What each test refuses with -/

section

variable {r : Refusal}

/-- A test that passes on a condition has one reason. -/
theorem reason_of_passes_if {p : Prop} [Decidable p] {reason : Refusal} (h : (if p then none else some reason) = some r) :
    r = reason := by
  obtain ⟨-, hr⟩ := Option.ite_none_left_eq_some.1 h
  exact (Option.some.inj hr).symm

/-- A test that fails on a condition has one reason. -/
theorem reason_of_fails_if {p : Prop} [Decidable p] {reason : Refusal} (h : (if p then some reason else none) = some r) :
    r = reason := by
  obtain ⟨-, hr⟩ := Option.ite_none_right_eq_some.1 h
  exact (Option.some.inj hr).symm

theorem checkRate_reason {sr : DWord} (h : checkRate sr = some r) : r = .badSampleRate := reason_of_passes_if h

theorem checkMaxDelay_reason {ms : Word} (h : checkMaxDelay ms = some r) : r = .badMaxDelay := reason_of_passes_if h

theorem checkBlockSize_reason {hint : Int} (h : checkBlockSize hint = some r) : r = .badBlockSize := reason_of_fails_if h

theorem checkChannels_reason {ch : Nat} (h : checkChannels ch = some r) : r = .badChannelCount := reason_of_passes_if h

theorem checkNotNaN_reason {v : Word} (h : checkNotNaN v = some r) : r = .nanOperand := reason_of_fails_if h

theorem checkEngConfigured_reason {e : Engine32} (h : checkEngConfigured e = some r) : r = .notConfigured := reason_of_passes_if h

theorem checkBuffer_reason {D : DelayLine Word} (h : checkBuffer D = some r) : r = .notConfigured := reason_of_fails_if h

theorem checkReady_reason {D : DelayLine Word} (h : checkReady D = some r) : r = .notConfigured ∨ r = .delayUnset := by
  unfold checkReady at h
  split at h
  · exact .inl (Option.some.inj h).symm
  · exact .inr (reason_of_fails_if h)

theorem checkCapacity_reason {maxCap : Nat} {c : Int} (h : checkCapacity maxCap c = some r) :
    r = .capacityTooSmall ∨ r = .capacityTooLarge := by
  unfold checkCapacity at h
  split at h
  · exact .inl (Option.some.inj h).symm
  · exact .inr (reason_of_fails_if h)

theorem checkCapacities_reason {maxCap : Nat} {l : List Int} (h : checkCapacities maxCap l = some r) :
    r = .capacityTooSmall ∨ r = .capacityTooLarge := by
  induction l with
  | nil => cases h
  | cons c l ih =>
    rw [checkCapacities] at h
    cases hc : checkCapacity maxCap c with
    | none => exact ih (by rwa [hc] at h)
    | some r' =>
      rw [hc] at h
      exact checkCapacity_reason (hc.trans h)

/-- Only a register that may be unset is refused as unset (R24). -/
theorem readOrUnset_reason {S α : Type} {v : Option α} {toWord : α → Word}
    (h : (readOrUnset v toWord : Except Refusal (Response S)) = .error r) : r = .readUnset := by
  cases v <;> cases h
  rfl

/-- Registers 6, 7, 11 and 12 may be unset, and from 14 on there is none: cases `h_7`, `h_8`, `h_12`, `h_13` and `h_15` (R30). -/
theorem readParam_reason {e : Engine32} {reg : Nat} (h : readParam Num.b32 e reg = .error r) :
    r = .badRegister ∨ r = .readUnset := by
  unfold readParam at h
  split at h
  case h_7 | h_8 | h_12 | h_13 => exact .inr (readOrUnset_reason h)
  case h_15 => exact .inl (Except.error.inj h).symm
  all_goals cases h

/-- The reason of several tests is that of the first or that of the others. -/
theorem firstRefusal_cons_reason {c : Option Refusal} {l : List (Option Refusal)} (h : firstRefusal (c :: l) = some r) :
    c = some r ∨ firstRefusal l = some r := by
  cases c with
  | none => exact .inr h
  | some r' => exact .inl h

theorem firstRefusal_singleton (c : Option Refusal) : firstRefusal [c] = c := by
  cases c <;> rfl

theorem refusalIn_eq_some {α : Type} {x : Except Refusal α} : refusalIn x = some r ↔ x = .error r := by
  cases x <;> simp [refusalIn]

/-! ### What each command is refused with -/

/-- The reasons of a unit's `CONFIGURE` (R125). -/
theorem checkConfigure_reason {maxCap : Nat} {sr : DWord} {ms : Word} (h : checkConfigure maxCap sr ms = some r) :
    r = .badSampleRate ∨ r = .badMaxDelay ∨ r = .capacityTooSmall ∨ r = .capacityTooLarge := by
  refine (firstRefusal_cons_reason h).imp checkRate_reason fun h => ?_
  refine (firstRefusal_cons_reason h).imp checkMaxDelay_reason fun h => ?_
  rw [firstRefusal_singleton] at h
  exact checkCapacity_reason h

/-- The reasons of `ENG.CONFIGURE` (R181). -/
theorem checkEngConfigure_reason {cfg : Params Word} {sr : DWord} {hint : Int} (h : checkEngConfigure cfg sr hint = some r) :
    r = .badSampleRate ∨ r = .badBlockSize ∨ r = .capacityTooSmall ∨ r = .capacityTooLarge := by
  refine (firstRefusal_cons_reason h).imp checkRate_reason fun h => ?_
  refine (firstRefusal_cons_reason h).imp checkBlockSize_reason fun h => ?_
  rw [firstRefusal_singleton] at h
  exact checkCapacities_reason h

/-- The reasons of `ENG.PROCESS` (R183). -/
theorem commandCheck_engProcess_reason {s : State} {ch ns : Nat} (h : commandCheck s (.engProcess ch ns) = some r) :
    r = .badChannelCount ∨ r = .notConfigured := by
  refine (firstRefusal_cons_reason h).imp checkChannels_reason fun h => ?_
  rw [firstRefusal_singleton] at h
  exact checkEngConfigured_reason h

/-- The reasons of a command's check are those of its row (R272). -/
theorem commandCheck_mayRefuse {s : State} {i : Instr} (h : commandCheck s i = some r) : mayRefuse i r := by
  cases i with
  | dlConfigure sr ms | combConfigure sr ms | apConfigure sr ms => exact checkConfigure_reason h
  | dlSetDelay n | combSetDelay n | apSetDelay n => exact checkBuffer_reason h
  | dlTick x | combProcess x | apProcess x => exact checkReady_reason h
  | combSetFb v | combSetDamp v | apSetCoef v | engSetDome v => exact checkNotNaN_reason h
  | engConfigure sr hint => exact checkEngConfigure_reason h
  | engProcess ch ns => exact commandCheck_engProcess_reason h
  | engGetParam reg => exact readParam_reason (refusalIn_eq_some.1 h)
  | dlClear | combClear | apClear | engClear | engSetPreset id => cases h

end

/-- Settles O56: a command is refused with its check's reason, and that is one of its row. -/
theorem refusalReasonsAreThoseOfTheTable : Obligations.RefusalReasonsAreThoseOfTheTable := fun _ _ _ h =>
  commandCheck_mayRefuse (exec_refused_iff.1 h)

/-! ### Commands that are never refused -/

/-- A command whose check passes completes. -/
theorem exec_completes {i : Instr} {s : State} (h : commandCheck s i = none) : ∃ t, exec i s = .next t :=
  ⟨commandEffect s i, exec_next_iff.2 ⟨h, rfl⟩⟩

/-- Settles O57: the `CLEAR` commands and `ENG.SETPRESET` make no check; the setters only look for a NaN; `ENG.PROCESS` only
looks at its channel count and the flag. -/
theorem commandsThatAreNeverRefused : Obligations.CommandsThatAreNeverRefused := by
  intro s
  refine ⟨exec_completes rfl, exec_completes rfl, exec_completes rfl, exec_completes rfl, fun id => exec_completes rfl,
    fun v hv => ?setters, fun ch ns hch hon => ?process⟩
  case setters =>
    have hcheck : checkNotNaN v = none := checkNotNaN_eq_none.2 hv
    exact ⟨exec_completes hcheck, exec_completes hcheck, exec_completes hcheck, exec_completes hcheck⟩
  case process => exact exec_completes (commandCheck_engProcess.2 ⟨hch, hon⟩)

end Sys2Proof.Machine
end
